-- ==== Sys2Proof/Word.lean ====
section
/-! DEFINITION. The bit-vector types of the Keccak sponge core: what the spec treats as bits.
Bit 0 is the least significant bit of any value (00_scope.md R10). -/

namespace Sys2Proof

/-- A byte: 8 bits (R10). One entry of `S`, of `DIN` and of `DOUT`. -/
abbrev Byte := BitVec 8

/-- A 32-bit word: a command word of `CMDQ`, or one word of the register port (20_memory.md R47). -/
abbrev Word := BitVec 32

/-- A 64-bit lane of the 5 x 5 lane view of `S` (10_state.md R24). -/
abbrev Lane := BitVec 64

end Sys2Proof
end

