-- ==== Sys2Proof/Config.lean ====
section
/-! DEFINITION. The design parameters the spec leaves OPEN (00_scope.md R9, 92_eei_decisions.md "Open parameters") and the
one free value of the model. Each is an opaque constant: nothing in Lean can evaluate it, so what is proved holds of
every value. -/

namespace Sys2Proof

/-- The design parameters a command's step can meet (R9: "A model takes each one as an argument").
The queue depths decide only when a step is enabled; `permExternal` decides only whether `Permute()` goes over the
port of 45_permutation.md R142. They stand in `State.params`, where no step changes them. -/
structure Params where
  /-- `CMDQ_DEPTH`, entries in the command queue, at least 1. -/
  cmdqDepth : Nat
  /-- `DIN_DEPTH`, bytes in the input queue, at least 1. -/
  dinDepth : Nat
  /-- `DOUT_DEPTH`, bytes in the output queue, at least 1. -/
  doutDepth : Nat
  /-- `PERM_EXTERNAL`. -/
  permExternal : Bool
deriving DecidableEq, Repr

/-- `CMDQ_DEPTH - 1`, OPEN (R9). -/
opaque Config.cmdqDepthPred : Nat
/-- `DIN_DEPTH - 1`, OPEN (R9). -/
opaque Config.dinDepthPred : Nat
/-- `DOUT_DEPTH - 1`, OPEN (R9). -/
opaque Config.doutDepthPred : Nat
/-- `PERM_EXTERNAL`, OPEN (R9). -/
opaque Config.permExternal : Bool
/-- `PERM_LATENCY - 1`, OPEN (R9): "no rule depends on it", and none of this model reads it (70_reset_and_hazards.md R187). -/
opaque Config.permLatencyPred : Nat
/-- `REG_BASE` (20_memory.md R54): where the register port sits in a system's address map, left to the platform.
The port itself takes offsets, so nothing of this model reads it. -/
opaque Config.regBase : Nat

/-- The parameters of the hardware at hand, each depth at least 1. -/
def Config.params : Params where
  cmdqDepth := Config.cmdqDepthPred + 1
  dinDepth := Config.dinDepthPred + 1
  doutDepth := Config.doutDepthPred + 1
  permExternal := Config.permExternal

/-- The free value (assumption log 1): the `n`-th word an implementation shows in the fields of STATUS and CONFIG that
read unspecified values while `STATUS.BUSY = 1` (10_state.md R36). -/
opaque Config.freeWord : Nat → Word

end Sys2Proof
end

