-- ==== Sys2Proof/Syntax.lean ====
section
/-! DEFINITION. The command set: one constructor per row of spec/opcode_table.json (30_encoding.md R72). -/

namespace Sys2Proof

/-- `PHASE` (10_state.md R22), a 1-bit register: 0 is *absorbing*, 1 is *squeezing*. -/
inductive Phase where
  | absorbing
  | squeezing
deriving DecidableEq, Repr

/-- The eleven commands, with their operands in the assembler's order (30_encoding.md R76).
Operands are the non-negative integers of R10; `WellFormed` bounds them by their fields. -/
inductive Instr where
  /-- `INIT cap` (40_sequencer.md R93). -/
  | init (cap : Nat)
  /-- `ABSORB len` (41_absorb_squeeze.md R98). -/
  | absorb (len : Nat)
  /-- `SQUEEZE len` (R100). -/
  | squeeze (len : Nat)
  /-- `SQUEEZE_XOR len` (R102). -/
  | squeezeXor (len : Nat)
  /-- `ENCRYPT len` (42_duplex.md R107). -/
  | encrypt (len : Nat)
  /-- `DECRYPT len` (R109). -/
  | decrypt (len : Nat)
  /-- `PAD slen` (43_pad.md R114). -/
  | pad (slen : Nat)
  /-- `REWIND` (44_context.md R122). -/
  | rewind
  /-- `FORGET` (R124). -/
  | forget
  /-- `CTX_SAVE` (R126). -/
  | ctxSave
  /-- `CTX_LOAD pos, cap, ph` (R128). -/
  | ctxLoad (pos cap : Nat) (ph : Phase)
deriving DecidableEq, Repr

end Sys2Proof
end

