-- ==== Sys2Proof/Machine/State.lean ====
section
/-! DEFINITION. The state of the core and of the world it is wired to, as plain data, and its value after reset
(10_state.md R15 to R41). -/

namespace Sys2Proof.Machine

/-- The contents of the state buffer `S` (10_state.md R18): a list of (address, byte) pairs in one canonical form
(`Memory.wf`): addresses strictly rising and below 200, no entry equal to what an unlisted address reads as, 0x00
(the reset contents of R41). -/
abbrev Memory := List Host.Cell

/-- The *context* (10_state.md R17): the hardware form of one sponge, and all a command computes from. -/
structure Context where
  /-- `S`, 200 bytes (R18). -/
  S : Memory
  /-- `CAP`, the capacity in bits, an 11-bit register (R19). -/
  cap : BitVec 11
  /-- `POS`, the position cursor, an 8-bit register (R21). -/
  pos : BitVec 8
  /-- `PHASE`, 1 bit (R22). -/
  phase : Phase
  /-- `CFG`, *configured*, 1 bit (R23). -/
  cfg : Bool
deriving DecidableEq, Repr

/-- `SEQ`, the sequencer micro-state (10_state.md R26). `run i k`: the command `i` (held decoded; its word is
`encode i`) is under execution and has completed `k` byte steps. -/
inductive Seq where
  | idle
  | run (i : Instr) (k : Nat)
deriving DecidableEq, Repr

/-- The value of `ERRSTAT.CODE` (60_exceptions.md R148); codes 5 to 15 are never produced. -/
inductive ErrCode where
  | none
  | illegal
  | param
  | nocfg
  | phase
deriving DecidableEq, Repr

/-- The signals of the permutation port (45_permutation.md R142), used when `PERM_EXTERNAL` is true. -/
structure PermPort where
  /-- `perm_req`, out. -/
  req : Bool
  /-- `perm_din`, out; bit `i` is bit `i mod 8` of state byte `i div 8`. -/
  din : BitVec 1600
  /-- `perm_ack`, in. -/
  ack : Bool
  /-- `perm_dout`, in. -/
  dout : BitVec 1600
deriving DecidableEq, Repr

/-- The host's steps (40_sequencer.md R96) and the level of the `rst` input (70_reset_and_hazards.md R169, R170). -/
inductive HostStep where
  /-- `PushCmd(v)`. -/
  | pushCmd (v : Word)
  /-- `PushDin(b)`. -/
  | pushDin (b : Byte)
  /-- `PopDout()`. -/
  | popDout
  /-- `RegRead(off)`, a byte offset 0x00 to 0xFF. -/
  | regRead (off : BitVec 8)
  /-- `RegWrite(off, v)`. -/
  | regWrite (off : BitVec 8) (v : Word)
  /-- `Reset`, one pulse of `rst` (R171). -/
  | reset
  /-- `rst` driven to a level: asserted (true) or released (false). -/
  | setRst (level : Bool)
deriving DecidableEq, Repr

/-- Who takes a step: the core or the host (40_sequencer.md R79), or the external permutation unit, which with
`PERM_EXTERNAL` true answers on its port in its own time (45_permutation.md R143). -/
inductive Agent where
  | core
  | host
  | perm
deriving DecidableEq, Repr

/-- The state. Fields down to `perm` are the hardware's; the rest are the model's own: the parameters, what the
outside world will do and has received, and the free value's counter. -/
structure State where
  /-- The context (R17 to R23). -/
  ctx : Context
  /-- `SEQ` (R26). -/
  seq : Seq
  /-- `CMDQ`, oldest word first (R25). -/
  cmdq : List Word
  /-- `DIN`, oldest byte first (R25). -/
  din : List Byte
  /-- `DOUT`, oldest byte first (R25). -/
  dout : List Byte
  /-- `CTRL.STRICT` (R28). -/
  strict : Bool
  /-- `CTRL.IE` (R28). -/
  ie : Bool
  /-- `ERRSTAT.ERR` (R38). -/
  err : Bool
  /-- `ERRSTAT.CODE` (R38). -/
  code : ErrCode
  /-- `ERRSTAT.EOP` (R38). -/
  eop : BitVec 4
  /-- `ERRCMD` (R39). -/
  errcmd : Word
  /-- The `rst` input (70_reset_and_hazards.md R169). -/
  rst : Bool
  /-- The permutation port (45_permutation.md R142). -/
  perm : PermPort
  /-- The design parameters (00_scope.md R9); no step changes them. -/
  params : Params
  /-- The host's steps still to come, in its order (assumption log 2). -/
  host : List HostStep
  /-- Whose turn each coming step is; an empty list means the core's (assumption log 2). -/
  turns : List Agent
  /-- The bytes `PopDout()` has returned to the host, oldest first. -/
  popped : List Byte
  /-- The words `RegRead` has returned to the host, oldest first. -/
  reads : List Word
  /-- How many free words (`Config.freeWord`) have been used (assumption log 1). -/
  freeCount : Nat
deriving DecidableEq, Repr

/-- Why the machine stops with a fault. -/
inductive Fault where
  /-- An access to state byte `S[a]` with `a ≥ 200`, which does not exist (00_scope.md R12: "Both require `i + n <= 200`").
  Raised by a byte step or finish step in a state whose `POS` has left the rate window, which no run reaches
  (10_state.md R21). Safe: the model stops where the spec describes no behaviour. -/
  | stateAddress (a : Nat)
deriving DecidableEq, Repr

/-- Why the model gives an instruction no meaning. -/
inductive Refusal where
  /-- Raised by `exec` for an instruction that has no meaning yet, by its mnemonic. Safe. No arm raises it. -/
  | notModelled (mnemonic : String)
deriving DecidableEq, Repr

/-- The context after reset (R41). -/
def Context.reset : Context where
  S := []
  cap := 0
  pos := 0
  phase := .absorbing
  cfg := false

/-- The permutation port at rest: nothing requested, nothing acknowledged (assumption log 3). -/
def PermPort.reset : PermPort where
  req := false
  din := 0
  ack := false
  dout := 0

/-- The machine right after reset (10_state.md R41, 70_reset_and_hazards.md R171): nothing listed in `S`, every queue
empty, no host step pending. -/
def State.reset : State where
  ctx := Context.reset
  seq := .idle
  cmdq := []
  din := []
  dout := []
  strict := false
  ie := false
  err := false
  code := .none
  eop := 0
  errcmd := 0
  rst := false
  perm := PermPort.reset
  params := Config.params
  host := []
  turns := []
  popped := []
  reads := []
  freeCount := 0

end Sys2Proof.Machine
end

