-- ==== Sys2Proof/Machine/Memory.lean ====
section
/-! DEFINITION. The named operations over the state buffer `S`: one byte read, one byte written, all 200 bytes in order
(00_scope.md R12, 20_memory.md R42, R49), each keeping the canonical form `Memory.wf`. -/

namespace Sys2Proof.Machine

/-- The number of bytes of `S` (00_scope.md R7). -/
abbrev stateBytes : Nat := 200

/-- What an unlisted address of `S` reads as: its reset contents, 0x00 (10_state.md R41). -/
abbrev unlistedByte : Byte := 0x00

/-- `S[a]`. -/
def Memory.byteAt : Memory → Nat → Byte
  | [], _ => unlistedByte
  | (b, v) :: m, a => if a = b then v else Memory.byteAt m a

/-- A cell as a list: none for a byte equal to what an unlisted address reads as. -/
def cellFor (a : Nat) (v : Byte) : Memory := if v = unlistedByte then [] else [(a, v)]

/-- `S[a] <- v`, keeping the list sorted and free of unlisted values. -/
def Memory.setByte : Memory → Nat → Byte → Memory
  | [], a, v => cellFor a v
  | (b, u) :: m, a, v =>
    if a < b then cellFor a v ++ (b, u) :: m
    else if a = b then cellFor a v ++ m
    else (b, u) :: Memory.setByte m a v

/-- The canonical form: addresses strictly rising, each an address of `S`, no entry that an unlisted address would
read as. -/
abbrev Memory.wf (m : Memory) : Prop :=
  m.Pairwise (fun c d => c.1 < d.1) ∧ ∀ c ∈ m, c.1 < stateBytes ∧ c.2 ≠ unlistedByte

/-- All 200 bytes `S[0]` to `S[199]`. -/
def Memory.toBytes (m : Memory) : List Byte := (List.range stateBytes).map fun a => Memory.byteAt m a

/-- The canonical list holding `bs` from address `a` on. -/
def Memory.ofBytesFrom (a : Nat) : List Byte → Memory
  | [] => []
  | v :: bs => cellFor a v ++ Memory.ofBytesFrom (a + 1) bs

/-- A state buffer from its 200 bytes, first byte at `S[0]`. -/
def Memory.ofBytes (bs : List Byte) : Memory := Memory.ofBytesFrom 0 bs

/-- `S[i] <- 0x00` for all `i` (40_sequencer.md R93, 44_context.md R124). -/
def Memory.zero : Memory := []

end Sys2Proof.Machine
end

