-- ==== Sys2Proof/Machine/Keccak.lean ====
section
/-! DEFINITION. The Keccak-f[1600] permutation datapath (45_permutation.md R134 to R146), on the lane view of `S`
(10_state.md R24, 20_memory.md R44). -/

namespace Sys2Proof.Machine

/-- The 25 lanes, lane `A[x][y]` at index `x + 5*y` (R44). -/
abbrev Lanes := List Lane

/-- `A[x][y]`, indices taken mod 5 (R134). -/
def lane (A : Lanes) (x y : Nat) : Lane := A.getD (x % 5 + 5 * (y % 5)) 0

/-- The lanes `A[x][y] = f x y`. -/
def lanesOf (f : Nat → Nat → Lane) : Lanes := (List.range 25).map fun i => f (i % 5) (i / 5)

/-- `C[x]` of theta (R135): the parity of column `x`. -/
def columnParity (A : Lanes) (x : Nat) : Lane :=
  lane A x 0 ^^^ lane A x 1 ^^^ lane A x 2 ^^^ lane A x 3 ^^^ lane A x 4

/-- `D[x] = C[x-1] ^ (C[x+1] <<< 1)` of theta (R135); `x - 1` is `x + 4` mod 5. -/
def thetaEffect (A : Lanes) (x : Nat) : Lane :=
  columnParity A (x + 4) ^^^ (columnParity A (x + 1)).rotateLeft 1

/-- theta (R135). -/
def theta (A : Lanes) : Lanes := lanesOf fun x y => lane A x y ^^^ thetaEffect A x

/-- The offsets `r[x][y]` of rho (R136), at index `x + 5*y`: a row of the spec's table is a row here. -/
def rhoOffsets : List Nat :=
  [ 0,  1, 62, 28, 27,
   36, 44,  6, 55, 20,
    3, 10, 43, 25, 39,
   41, 45, 15, 21,  8,
   18,  2, 61, 56, 14]

/-- rho (R136). -/
def rho (A : Lanes) : Lanes :=
  lanesOf fun x y => (lane A x y).rotateLeft (rhoOffsets.getD (x + 5 * y) 0)

/-- pi (R137): `A'[x][y] = A[(x + 3*y) mod 5][x]`. -/
def pi (A : Lanes) : Lanes := lanesOf fun x y => lane A (x + 3 * y) x

/-- chi (R138), computed from the old `A`. -/
def chi (A : Lanes) : Lanes :=
  lanesOf fun x y => lane A x y ^^^ (~~~lane A (x + 1) y &&& lane A (x + 2) y)

/-- iota (R139) with the round constant `c`. -/
def iota (A : Lanes) (c : Lane) : Lanes :=
  lanesOf fun x y => if x = 0 ∧ y = 0 then lane A x y ^^^ c else lane A x y

/-- The table of round constants as R140 prints it: row `ir` holds `RC[ir]` and `RC[ir + 12]`. -/
def roundConstantRows : List (Lane × Lane) :=
  [ (0x0000000000000001, 0x000000008000808B),
    (0x0000000000008082, 0x800000000000008B),
    (0x800000000000808A, 0x8000000000008089),
    (0x8000000080008000, 0x8000000000008003),
    (0x000000000000808B, 0x8000000000008002),
    (0x0000000080000001, 0x8000000000000080),
    (0x8000000080008081, 0x000000000000800A),
    (0x8000000000008009, 0x800000008000000A),
    (0x000000000000008A, 0x8000000080008081),
    (0x0000000000000088, 0x8000000000008080),
    (0x0000000080008009, 0x0000000080000001),
    (0x000000008000000A, 0x8000000080008008) ]

/-- `RC[0..23]`: the left column of the table, then the right one (R140). -/
def roundConstants : List Lane := roundConstantRows.map Prod.fst ++ roundConstantRows.map Prod.snd

/-- One round: theta, rho, pi, chi, iota, in that order (R134, R145). -/
def keccakRound (A : Lanes) (c : Lane) : Lanes := iota (chi (pi (rho (theta A)))) c

/-- The 24 rounds in increasing order of `ir` (R145). -/
def keccakLanes (A : Lanes) : Lanes := roundConstants.foldl keccakRound A

/-- A lane from its eight bytes, the first holding bits 7:0 (R44). -/
def laneOfBytes : List Byte → Lane
  | [] => 0
  | b :: bs => b.setWidth 64 ||| (laneOfBytes bs <<< 8)

/-- The lane at index `j` of a 200-byte string: bytes `8*j` to `8*j+7` (R44). -/
def laneAt (bs : List Byte) (j : Nat) : Lane := laneOfBytes ((bs.drop (8 * j)).take 8)

/-- The lane view of 200 bytes. -/
def lanesOfBytes (bs : List Byte) : Lanes := (List.range 25).map fun j => laneAt bs j

/-- Byte `k` of a lane: its bits `8*k+7` down to `8*k` (R44). -/
def byteOfLane (l : Lane) (k : Nat) : Byte := l.extractLsb' (8 * k) 8

/-- The 200 bytes of a lane view (R44). -/
def bytesOfLanes (A : Lanes) : List Byte :=
  (List.range stateBytes).map fun a => byteOfLane (A.getD (a / 8) 0) (a % 8)

/-- `KeccakF` on 200 bytes (R134): a total function of the bytes alone (R141). -/
def keccakBytes (bs : List Byte) : List Byte := bytesOfLanes (keccakLanes (lanesOfBytes bs))

/-- `KeccakF(S)`. -/
def keccakF (S : Memory) : Memory := Memory.ofBytes (keccakBytes (Memory.toBytes S))

/-- The 1600-bit bus of the permutation port: bit `i` is bit `i mod 8` of state byte `i div 8` (R142). -/
def busOfBytes (bs : List Byte) : BitVec 1600 :=
  BitVec.ofNat 1600 (bs.foldr (fun b acc => b.toNat + 256 * acc) 0)

/-- The 200 bytes on the bus (R142). -/
def bytesOfBus (v : BitVec 1600) : List Byte :=
  (List.range stateBytes).map fun a => v.extractLsb' (8 * a) 8

/-- What the external unit returns: `perm_dout = KeccakF(perm_din)` (R142). -/
def keccakBus (v : BitVec 1600) : BitVec 1600 := busOfBytes (keccakBytes (bytesOfBus v))

end Sys2Proof.Machine
end

