-- ==== Sys2Proof/WellFormed.lean ====
section
/-! DEFINITION. Which terms of `Instr` are commands: every operand fits its field of the command word. -/

namespace Sys2Proof

/-- The assembler's operand check (30_encoding.md R76): "It rejects an operand that does not fit its field:
LEN above 16 777 215, SLEN above 255, CAP above 2047, POS above 255, PH above 1."
(`ph` is a `Phase`, so it always fits.) -/
def Instr.wf : Instr → Bool
  | .init cap => decide (cap ≤ 2047)
  | .absorb len => decide (len ≤ 16777215)
  | .squeeze len => decide (len ≤ 16777215)
  | .squeezeXor len => decide (len ≤ 16777215)
  | .encrypt len => decide (len ≤ 16777215)
  | .decrypt len => decide (len ≤ 16777215)
  | .pad slen => decide (slen ≤ 255)
  | .rewind => true
  | .forget => true
  | .ctxSave => true
  | .ctxLoad pos cap _ => decide (pos ≤ 255) && decide (cap ≤ 2047)

/-- An instruction the assembler accepts. -/
abbrev WellFormed (i : Instr) : Prop := i.wf = true

end Sys2Proof
end

