-- ==== Sys2Proof/Decode.lean ====
section
/-! DEFINITION. Decoding a command word, total on every 32-bit word and rejecting by name, and after it the encoder,
both written from the formats and the opcode map of 30_encoding.md (R61 to R75). -/

namespace Sys2Proof

/-- Why a word is no command; both are the error ILLEGAL (60_exceptions.md R148). -/
inductive Reject where
  /-- An opcode 0x0 or 0xC to 0xF (R73). -/
  | reservedOpcode
  /-- A command's opcode with a 1 in a bit its format reserves (R74). -/
  | reservedBits
deriving DecidableEq, Repr

/-- The field `w[lo+len-1 : lo]` as an unsigned number (R66 to R68: no scaling, no sign, no offset). -/
def field (w : Word) (lo len : Nat) : Nat := (w.extractLsb' lo len).toNat

/-- `OP = w[3:0]` (R62). -/
def opcodeOf (w : Word) : Nat := field w 0 4

/-- `PHASE` from its bit (10_state.md R22: 0 absorbing, 1 squeezing). -/
def phaseOfBit (b : Bool) : Phase := if b then .squeezing else .absorbing

/-- The bit of a `PHASE` value. -/
def Phase.bit : Phase → Bool
  | .absorbing => false
  | .squeezing => true

/-- One row of the opcode map: the word `w` is the command when `w & mask = pattern` (R72). -/
structure OpRow where
  mask : Word
  pattern : Word
  operands : Word → Instr

/-- The opcode map of R72, row by row; the fields are those of formats C, D, P and N (R64, R65, R68, R71). -/
def opcodeMap : List OpRow :=
  [ { mask := 0xF800FFFF, pattern := 0x00000001, operands := fun w => .init (field w 16 11) },
    { mask := 0x000000FF, pattern := 0x00000002, operands := fun w => .absorb (field w 8 24) },
    { mask := 0x000000FF, pattern := 0x00000003, operands := fun w => .squeeze (field w 8 24) },
    { mask := 0x000000FF, pattern := 0x00000004, operands := fun w => .squeezeXor (field w 8 24) },
    { mask := 0x000000FF, pattern := 0x00000005, operands := fun w => .encrypt (field w 8 24) },
    { mask := 0x000000FF, pattern := 0x00000006, operands := fun w => .decrypt (field w 8 24) },
    { mask := 0xFFFF00FF, pattern := 0x00000007, operands := fun w => .pad (field w 8 8) },
    { mask := 0xFFFFFFFF, pattern := 0x00000008, operands := fun _ => .rewind },
    { mask := 0xFFFFFFFF, pattern := 0x00000009, operands := fun _ => .forget },
    { mask := 0xFFFFFFFF, pattern := 0x0000000A, operands := fun _ => .ctxSave },
    { mask := 0xF00000FF, pattern := 0x0000000B,
      operands := fun w => .ctxLoad (field w 8 8) (field w 16 11) (phaseOfBit (w.getLsbD 27)) } ]

/-- `w & mask = match` (R72). -/
def OpRow.matches (r : OpRow) (w : Word) : Bool := w &&& r.mask == r.pattern

/-- The decoder: "a word is legal exactly when some row of rule R72 has `w & mask = match`" (R74). -/
def decode (w : Word) : Except Reject Instr :=
  match opcodeMap.find? (fun r => r.matches w) with
  | some r => .ok (r.operands w)
  | none => .error (if opcodeOf w = 0 ∨ 12 ≤ opcodeOf w then .reservedOpcode else .reservedBits)

/-- The field `v` placed at bits `lo` and up of a word: `zext_32(v) << lo` (00_scope.md R10). -/
def place {n : Nat} (v : BitVec n) (lo : Nat) : Word := v.setWidth 32 <<< lo

/-- The encoder: the one command word of a well-formed instruction (R64, R65, R68, R71).
An operand that does not fit its field is cut to it; `WellFormed` excludes that. -/
def encode : Instr → Word
  | .init cap => place (BitVec.ofNat 11 cap) 16 ||| 0x1
  | .absorb len => place (BitVec.ofNat 24 len) 8 ||| 0x2
  | .squeeze len => place (BitVec.ofNat 24 len) 8 ||| 0x3
  | .squeezeXor len => place (BitVec.ofNat 24 len) 8 ||| 0x4
  | .encrypt len => place (BitVec.ofNat 24 len) 8 ||| 0x5
  | .decrypt len => place (BitVec.ofNat 24 len) 8 ||| 0x6
  | .pad slen => place (BitVec.ofNat 8 slen) 8 ||| 0x7
  | .rewind => 0x8
  | .forget => 0x9
  | .ctxSave => 0xA
  | .ctxLoad pos cap ph =>
      place (BitVec.ofBool ph.bit) 27 ||| place (BitVec.ofNat 11 cap) 16 ||| place (BitVec.ofNat 8 pos) 8 ||| 0xB

/-- The host's question: what the decoder reads from an instruction of `nbits` bits `w`, the bits above `nbits` zero.
Every command is one 32-bit word (R61), so a longer one is none. -/
def decodeTableWord (nbits w : Nat) : Option Instr :=
  if nbits ≤ 32 then
    match decode (BitVec.ofNat 32 (w % 2 ^ nbits)) with
    | .ok i => some i
    | .error _ => none
  else none

end Sys2Proof
end

