-- ==== Sys2Proof/Machine/Operands.lean ====
section
/-! DEFINITION. What the sequencer computes from a command's operands and the context: the rate, the number of byte steps,
and `Check(w)` (40_sequencer.md R82 to R87). -/

namespace Sys2Proof.Machine

/-- `(1600 - cap) / 8` (00_scope.md R8, 10_state.md R20). -/
def rateOf (cap : Nat) : Nat := (1600 - cap) / 8

/-- `RATE`, a function of `CAP` and no register (10_state.md R20). -/
def Context.rate (c : Context) : Nat := rateOf c.cap.toNat

/-- `LegalCap(c)` (40_sequencer.md R85). -/
def legalCap (c : Nat) : Bool := decide (c % 64 = 0) && decide (c ≤ 1536)

/-- `n(w)`, the number of byte steps (40_sequencer.md R82). -/
def byteSteps : Instr → Nat
  | .absorb len => len
  | .squeeze len => len
  | .squeezeXor len => len
  | .encrypt len => len
  | .decrypt len => len
  | .pad slen => slen
  | .ctxSave => 204
  | .ctxLoad _ _ _ => 200
  | .init _ => 0
  | .rewind => 0
  | .forget => 0

/-- `op not in {INIT, CTX_LOAD}`: the command needs `CFG = 1` (40_sequencer.md R84, 60_exceptions.md R149). -/
def needsCfg : Instr → Bool
  | .init _ => false
  | .ctxLoad _ _ _ => false
  | .absorb _ => true
  | .squeeze _ => true
  | .squeezeXor _ => true
  | .encrypt _ => true
  | .decrypt _ => true
  | .pad _ => true
  | .rewind => true
  | .forget => true
  | .ctxSave => true

/-- `PhaseBad(op, PHASE)` (40_sequencer.md R86). -/
def phaseBad : Instr → Phase → Bool
  | .absorb _, p => decide (p = .squeezing)
  | .squeeze _, p => decide (p = .absorbing)
  | .squeezeXor _, p => decide (p = .absorbing)
  | .encrypt _, p => decide (p = .absorbing)
  | .decrypt _, p => decide (p = .absorbing)
  | .init _, _ => false
  | .pad _, _ => false
  | .rewind, _ => false
  | .forget, _ => false
  | .ctxSave, _ => false
  | .ctxLoad _ _ _, _ => false

/-- The parameter tests of `Check(w)` pass (40_sequencer.md R84, its last four tests). -/
def paramsOk (c : Context) : Instr → Bool
  | .init cap => legalCap cap
  | .ctxLoad pos cap _ => legalCap cap && decide (pos < rateOf cap)
  | .pad slen => decide (slen ≤ c.rate - c.pos.toNat)
  | .absorb _ => true
  | .squeeze _ => true
  | .squeezeXor _ => true
  | .encrypt _ => true
  | .decrypt _ => true
  | .rewind => true
  | .forget => true
  | .ctxSave => true

/-- `Check(w)` of a word that decodes to `i` (40_sequencer.md R84): the first failing test, in the order
NOCFG, PHASE, PARAM. It reads the instruction, the context and `CTRL.STRICT` only (R81). -/
def check (strict : Bool) (c : Context) (i : Instr) : ErrCode :=
  if needsCfg i && !c.cfg then .nocfg
  else if strict && phaseBad i c.phase then .phase
  else if paramsOk c i then .none
  else .param

/-- `Check(w)` whole (40_sequencer.md R84): ILLEGAL before every other test (60_exceptions.md R154). -/
def checkWord (strict : Bool) (c : Context) (w : Word) : ErrCode :=
  match decode w with
  | .ok i => check strict c i
  | .error _ => .illegal

end Sys2Proof.Machine
end

