-- ==== Sys2Proof/Machine/Ops.lean ====
section
/-! DEFINITION. The shared operations of the command steps: reaching a state byte, the queues, the cursor advance, the
permutation, raising and clearing an error, the issue step, and the shape every command's execution has
(40_sequencer.md R79 to R95, 60_exceptions.md R147 to R159). -/

namespace Sys2Proof.Machine

/-- What one byte step or finish step amounts to, `SEQ` apart. -/
inductive Effect where
  /-- The step is not enabled: the core waits (40_sequencer.md R95). -/
  | wait
  /-- The step's whole effect. -/
  | done (t : State)
  /-- The step's effect, with the call to `Permute()` that ends it still to be made on `t.ctx.S`. -/
  | permute (t : State)
  /-- The step reaches for `S[a]`, which does not exist. -/
  | noByte (a : Nat)
deriving DecidableEq, Repr

/-- `s` with another context. -/
def State.withCtx (s : State) (c : Context) : State := { s with ctx := c }

/-- `s` with another state buffer. -/
def State.withS (s : State) (m : Memory) : State := { s with ctx := { s.ctx with S := m } }

/-- `s` with another `SEQ`. -/
def State.withSeq (s : State) (q : Seq) : State := { s with seq := q }

/-- `DoutPush(b)` (00_scope.md R12). -/
def State.pushDout (s : State) (b : Byte) : State := { s with dout := s.dout ++ [b] }

/-- "DOUT ready": `DOUT` holds fewer than `DOUT_DEPTH` bytes (40_sequencer.md R95). -/
def State.doutReady (s : State) : Bool := decide (s.dout.length < s.params.doutDepth)

/-- A step enabled when `DIN` is non-empty, given the byte that `DinPop()` removes (00_scope.md R12). -/
def popDin (s : State) (f : Byte → State → Effect) : Effect :=
  match s.din with
  | [] => .wait
  | b :: rest => f b { s with din := rest }

/-- A step enabled when `DOUT` is ready (40_sequencer.md R95). -/
def whenDoutReady (s : State) (e : Effect) : Effect := if s.doutReady then e else .wait

/-- `MemRead(a, 1)`: the step given `S[a]`, which exists only for `a < 200` (00_scope.md R12). -/
def withStateByte (s : State) (a : Nat) (f : Byte → Effect) : Effect :=
  if a < stateBytes then f (Memory.byteAt s.ctx.S a) else .noByte a

/-- `S[a] <- v`. -/
def State.setStateByte (s : State) (a : Nat) (v : Byte) : State := s.withS (Memory.setByte s.ctx.S a v)

/-- `Advance()`, the cursor step every data byte step ends with (40_sequencer.md R88). The permutation is eager: it is
called in the step that brings `POS` to `RATE`. -/
def advance (s : State) : Effect :=
  if s.ctx.pos.toNat + 1 = s.ctx.rate then .permute (s.withCtx { s.ctx with pos := 0 })
  else .done (s.withCtx { s.ctx with pos := BitVec.ofNat 8 (s.ctx.pos.toNat + 1) })

/-- The step from `s` to `t` whose last action is `Permute()` on `t.ctx.S` (40_sequencer.md R89).
With the permutation internal it is one function application. With `PERM_EXTERNAL` true the core raises `perm_req` with
`perm_din` driven by the buffer, waits for `perm_ack`, and only then takes the whole step, dropping `perm_req`
(45_permutation.md R142); until then `SEQ` and all else show the step before it (R143, 20_memory.md R52). -/
def permuteStep (s t : State) : State :=
  if s.params.permExternal then
    if s.perm.req then
      if s.perm.ack then
        { t.withS (Memory.ofBytes (bytesOfBus s.perm.dout)) with
          perm := { s.perm with req := false, ack := false } }
      else s
    else { s with perm := { s.perm with req := true, din := busOfBytes (Memory.toBytes t.ctx.S) } }
  else t.withS (keccakF t.ctx.S)

/-- Takes the byte step or finish step with effect `e` from `s`, after which `SEQ` is `q` (40_sequencer.md R83). -/
def commit (s : State) (q : Seq) (e : Effect) : Host.Outcome State Fault Refusal :=
  match e with
  | .wait => .next s
  | .done t => .next (t.withSeq q)
  | .permute t => .next (permuteStep s (t.withSeq q))
  | .noByte a => .fault (.stateAddress a)

/-- `raise Error(code)` for the failing word `w` (60_exceptions.md R151): the record of R150 and nothing else. `SEQ`
stays `Idle`, and with `ERR` set the core is halted (R152). This core's exceptions are these errors only (R147); it
has no vector and saves nothing more (R156). -/
def raiseError (e : ErrCode) (w : Word) (s : State) : State :=
  { s with err := true, code := e, eop := w.extractLsb' 0 4, errcmd := w }

/-- The return from an error (60_exceptions.md R157): the host's write of 1 to `ERRSTAT` bit 0 sets `ERR`, `CODE`,
`EOP` and `ERRCMD` to 0 (10_state.md R38). Nothing is restored, because nothing was changed. -/
def clearError (s : State) : State := { s with err := false, code := .none, eop := 0, errcmd := 0 }

/-- The rest of the issue step once the word of `i` has left `CMDQ` (40_sequencer.md R80): a failed check raises its
error, a passed one starts the command. -/
def issue (i : Instr) (s : State) : State :=
  match check s.strict s.ctx i with
  | .none => s.withSeq (.run i 0)
  | e => raiseError e (encode i) s

/-- The shape of every command (40_sequencer.md R83): its issue step from `Idle`, then its byte steps for
`k < n(w)`, then its finish step. `byte k` and `finish` are the command's own pseudocode. -/
def runCommand (i : Instr) (byte : Nat → State → Effect) (finish : State → Effect) (s : State) :
    Host.Outcome State Fault Refusal :=
  match s.seq with
  | .idle => .next (issue i s)
  | .run _ k =>
    if k < byteSteps i then commit s (.run i (k + 1)) (byte k s)
    else commit s .idle (finish s)

/-- The empty finish step of the data commands and CTX_SAVE (40_sequencer.md R83). -/
def finishNothing (s : State) : Effect := .done s

/-- The byte-step slot of a command with `n(w) = 0`, never taken (40_sequencer.md R82). -/
def noByteStep (_ : Nat) (_ : State) : Effect := .wait

end Sys2Proof.Machine
end

