-- ==== Sys2Proof/Machine/AbsorbSqueeze.lean ====
section
/-! DEFINITION. ABSORB, SQUEEZE and SQUEEZE_XOR (41_absorb_squeeze.md R98 to R106). -/

namespace Sys2Proof.Machine

/-- The byte step of ABSORB (R98). -/
def absorbByte (_ : Nat) (s : State) : Effect :=
  popDin s fun b t =>
    withStateByte t t.ctx.pos.toNat fun v =>
      advance (t.setStateByte t.ctx.pos.toNat (v ^^^ b))

/-- The byte step of SQUEEZE (R100). -/
def squeezeByte (_ : Nat) (s : State) : Effect :=
  whenDoutReady s <|
    withStateByte s s.ctx.pos.toNat fun v => advance (s.pushDout v)

/-- The byte step of SQUEEZE_XOR (R102); the XOR does not write `S`. -/
def squeezeXorByte (_ : Nat) (s : State) : Effect :=
  whenDoutReady s <|
    popDin s fun b t =>
      withStateByte t t.ctx.pos.toNat fun v => advance (t.pushDout (b ^^^ v))

/-- `ABSORB len` (R98). -/
def execAbsorb (len : Nat) (s : State) : Host.Outcome State Fault Refusal :=
  runCommand (.absorb len) absorbByte finishNothing s

/-- `SQUEEZE len` (R100). -/
def execSqueeze (len : Nat) (s : State) : Host.Outcome State Fault Refusal :=
  runCommand (.squeeze len) squeezeByte finishNothing s

/-- `SQUEEZE_XOR len` (R102). -/
def execSqueezeXor (len : Nat) (s : State) : Host.Outcome State Fault Refusal :=
  runCommand (.squeezeXor len) squeezeXorByte finishNothing s

end Sys2Proof.Machine
end

