-- ==== Sys2Proof/Machine/ContextOps.lean ====
section
/-! DEFINITION. REWIND, FORGET, CTX_SAVE and CTX_LOAD (44_context.md R122 to R133). -/

namespace Sys2Proof.Machine

/-- The finish step of REWIND (R122). -/
def rewindFinish (s : State) : Effect :=
  .done (s.withCtx { s.ctx with pos := 0, phase := .absorbing })

/-- The finish step of FORGET (R124); `POS <- 0` as the spec fixes it (R125, `FORGET_KEEPS_POS` false). -/
def forgetFinish (s : State) : Effect :=
  .done (s.withCtx { s.ctx with S := Memory.zero, pos := 0, phase := .absorbing })

/-- The metadata word `m` of CTX_SAVE (R126), a CTX_LOAD word for the context (R127). -/
def metadataWord (c : Context) : Word :=
  0x0000000B#32 ||| place c.pos 8 ||| place c.cap 16 ||| place (BitVec.ofBool c.phase.bit) 27

/-- The byte `k` CTX_SAVE pushes: the 200 bytes of `S`, then `m` least significant byte first
(R126, 20_memory.md R48). -/
def savedByte (c : Context) (k : Nat) : Byte :=
  if k < stateBytes then Memory.byteAt c.S k else (metadataWord c).extractLsb' (8 * (k - stateBytes)) 8

/-- The byte step `k` of CTX_SAVE (R126). -/
def ctxSaveByte (k : Nat) (s : State) : Effect :=
  whenDoutReady s (.done (s.pushDout (savedByte s.ctx k)))

/-- The byte step `k` of CTX_LOAD (R128). -/
def ctxLoadByte (k : Nat) (s : State) : Effect :=
  popDin s fun b t => withStateByte t k fun _ => .done (t.setStateByte k b)

/-- The finish step of CTX_LOAD (R128). -/
def ctxLoadFinish (pos cap : Nat) (ph : Phase) (s : State) : Effect :=
  .done (s.withCtx
    { s.ctx with cap := BitVec.ofNat 11 cap, pos := BitVec.ofNat 8 pos, phase := ph, cfg := true })

/-- `REWIND` (R122). -/
def execRewind (s : State) : Host.Outcome State Fault Refusal :=
  runCommand .rewind noByteStep rewindFinish s

/-- `FORGET` (R124). -/
def execForget (s : State) : Host.Outcome State Fault Refusal :=
  runCommand .forget noByteStep forgetFinish s

/-- `CTX_SAVE` (R126). -/
def execCtxSave (s : State) : Host.Outcome State Fault Refusal :=
  runCommand .ctxSave ctxSaveByte finishNothing s

/-- `CTX_LOAD pos, cap, ph` (R128). -/
def execCtxLoad (pos cap : Nat) (ph : Phase) (s : State) : Host.Outcome State Fault Refusal :=
  runCommand (.ctxLoad pos cap ph) ctxLoadByte (ctxLoadFinish pos cap ph) s

end Sys2Proof.Machine
end

