-- ==== Sys2Proof/Machine/Duplex.lean ====
section
/-! DEFINITION. ENCRYPT and DECRYPT, the duplex XOR-with-state commands (42_duplex.md R107 to R113). -/

namespace Sys2Proof.Machine

/-- The byte step of ENCRYPT (R107): the new state byte is the ciphertext byte just output. -/
def encryptByte (_ : Nat) (s : State) : Effect :=
  whenDoutReady s <|
    popDin s fun p t =>
      withStateByte t t.ctx.pos.toNat fun v =>
        advance ((t.setStateByte t.ctx.pos.toNat (p ^^^ v)).pushDout (p ^^^ v))

/-- The byte step of DECRYPT (R109): the recovered plaintext is XORed into the state byte, which becomes the ciphertext
byte (90_conflicts.md C3). -/
def decryptByte (_ : Nat) (s : State) : Effect :=
  whenDoutReady s <|
    popDin s fun c t =>
      withStateByte t t.ctx.pos.toNat fun v =>
        advance ((t.setStateByte t.ctx.pos.toNat (v ^^^ (c ^^^ v))).pushDout (c ^^^ v))

/-- `ENCRYPT len` (R107). -/
def execEncrypt (len : Nat) (s : State) : Host.Outcome State Fault Refusal :=
  runCommand (.encrypt len) encryptByte finishNothing s

/-- `DECRYPT len` (R109). -/
def execDecrypt (len : Nat) (s : State) : Host.Outcome State Fault Refusal :=
  runCommand (.decrypt len) decryptByte finishNothing s

end Sys2Proof.Machine
end

