-- ==== Sys2Proof/Machine/Init.lean ====
section
/-! DEFINITION. INIT, the source's `new(capacity_bits)` (40_sequencer.md R93, R94). -/

namespace Sys2Proof.Machine

/-- The finish step of INIT (R93): a new sponge of capacity `cap` replaces the whole context. -/
def initFinish (cap : Nat) (s : State) : Effect :=
  .done (s.withCtx
    { S := Memory.zero, cap := BitVec.ofNat 11 cap, pos := 0, phase := .absorbing, cfg := true })

/-- `INIT cap` (R93). -/
def execInit (cap : Nat) (s : State) : Host.Outcome State Fault Refusal :=
  runCommand (.init cap) noByteStep (initFinish cap) s

end Sys2Proof.Machine
end

