-- ==== Sys2Proof/Machine/Pad.lean ====
section
/-! DEFINITION. PAD (43_pad.md R114 to R121). -/

namespace Sys2Proof.Machine

/-- The byte step `k` of PAD (R114): suffix byte `k` goes to `S[POS + k]`, and `POS` stays (R117). -/
def padByte (k : Nat) (s : State) : Effect :=
  popDin s fun b t =>
    withStateByte t (t.ctx.pos.toNat + k) fun v =>
      .done (t.setStateByte (t.ctx.pos.toNat + k) (v ^^^ b))

/-- The flip of the final bit of the rate window, made unless the suffix is empty (R114, R115, R116). -/
def padFlip (slen : Nat) (s : State) : State :=
  if slen = 0 then s
  else s.setStateByte (s.ctx.rate - 1) (Memory.byteAt s.ctx.S (s.ctx.rate - 1) ^^^ 0x80)

/-- The finish step of PAD (R114). `RATE - 1` is below 200 whatever `CAP` holds. -/
def padFinish (slen : Nat) (s : State) : Effect :=
  .permute ((padFlip slen s).withCtx { (padFlip slen s).ctx with pos := 0, phase := .squeezing })

/-- `PAD slen` (R114). -/
def execPad (slen : Nat) (s : State) : Host.Outcome State Fault Refusal :=
  runCommand (.pad slen) padByte (padFinish slen) s

end Sys2Proof.Machine
end

