-- ==== Sys2Proof/Machine/Dispatch.lean ====
section
/-! DEFINITION. One arm per command: the meaning of the core step a command takes next. -/

namespace Sys2Proof.Machine

def exec (i : Instr) (s : State) : Host.Outcome State Fault Refusal :=
  match i with
  | .init cap => Sys2Proof.Machine.execInit cap s
  | .absorb len => Sys2Proof.Machine.execAbsorb len s
  | .squeeze len => Sys2Proof.Machine.execSqueeze len s
  | .squeezeXor len => Sys2Proof.Machine.execSqueezeXor len s
  | .encrypt len => Sys2Proof.Machine.execEncrypt len s
  | .decrypt len => Sys2Proof.Machine.execDecrypt len s
  | .pad slen => Sys2Proof.Machine.execPad slen s
  | .rewind => Sys2Proof.Machine.execRewind s
  | .forget => Sys2Proof.Machine.execForget s
  | .ctxSave => Sys2Proof.Machine.execCtxSave s
  | .ctxLoad pos cap ph => Sys2Proof.Machine.execCtxLoad pos cap ph s

end Sys2Proof.Machine
end

