-- ==== Sys2Proof/Machine/Flags.lean ====
section
/-! DEFINITION. Every status computation of the spec: the fields and words of the register port and the interrupt output
(10_state.md R27 to R40, 60_exceptions.md R148, R160). -/

namespace Sys2Proof.Machine

/-- The code `ERRSTAT.CODE` reads (60_exceptions.md R148). -/
def ErrCode.bits : ErrCode → BitVec 4
  | .none => 0
  | .illegal => 1
  | .param => 2
  | .nocfg => 3
  | .phase => 4

/-- `STATUS.BUSY`: 1 when `SEQ = Run(...)` (10_state.md R33, R34). -/
def State.busy (s : State) : Bool :=
  match s.seq with
  | .idle => false
  | .run _ _ => true

/-- The `irq` output: `ERRSTAT.ERR & CTRL.IE` (60_exceptions.md R160). -/
def State.irq (s : State) : Bool := s.err && s.ie

/-- The RATE field of STATUS and CONFIG: `RATE` when `CFG = 1`, else 0 (10_state.md R20). -/
def State.rateField (s : State) : BitVec 8 := if s.ctx.cfg then BitVec.ofNat 8 s.ctx.rate else 0

/-- The CAP field of CONFIG: `CAP` when `CFG = 1`, else 0 (10_state.md R37). -/
def State.capField (s : State) : BitVec 11 := if s.ctx.cfg then s.ctx.cap else 0

/-- One bit of a register word. -/
def placeBit (b : Bool) (n : Nat) : Word := place (BitVec.ofBool b) n

/-- CTRL as it reads: STRICT and IE; the flush bits and the reserved bits read 0 (10_state.md R28). -/
def State.ctrlWord (s : State) : Word := placeBit s.strict 0 ||| placeBit s.ie 1

/-- STATUS as it reads when the core is not busy (10_state.md R33); bits 31:24 read 0. -/
def State.statusWord (s : State) : Word :=
  placeBit s.ctx.cfg 0 ||| placeBit s.ctx.phase.bit 1 ||| placeBit s.busy 2 ||| placeBit s.err 3 |||
    placeBit s.cmdq.isEmpty 4 ||| placeBit s.din.isEmpty 5 ||| placeBit s.dout.isEmpty 6 |||
    placeBit s.irq 7 ||| place s.ctx.pos 8 ||| place s.rateField 16

/-- CONFIG as it reads when the core is not busy (10_state.md R37); `REV` is 0x01, bits 15:11 read 0. -/
def State.configWord (s : State) : Word := place s.capField 0 ||| place s.rateField 16 ||| place 0x01#8 24

/-- ERRSTAT as it reads (10_state.md R38); bits 3:1 and 31:12 read 0. -/
def State.errstatWord (s : State) : Word :=
  placeBit s.err 0 ||| place s.code.bits 4 ||| place s.eop 8

/-- The word offset an access reaches: the port ignores offset bits 1:0 (20_memory.md R50). -/
def portOffset (off : BitVec 8) : Nat := (off &&& 0xFC).toNat

/-- The register at an offset, every field exact; offsets 0x14 to 0xFF read 0 (10_state.md R27, R40). -/
def State.regWord (s : State) (off : BitVec 8) : Word :=
  if portOffset off = 0x00 then s.ctrlWord
  else if portOffset off = 0x04 then s.statusWord
  else if portOffset off = 0x08 then s.configWord
  else if portOffset off = 0x0C then s.errstatWord
  else if portOffset off = 0x10 then s.errcmd
  else 0

/-- The bits of a register that read unspecified values while `STATUS.BUSY = 1`: STATUS.CFG, PHASE, POS and RATE, and
CONFIG.CAP and RATE (10_state.md R36). -/
def busyMask (off : BitVec 8) : Word :=
  if portOffset off = 0x04 then 0x00FFFF03
  else if portOffset off = 0x08 then 0x00FF07FF
  else 0

/-- What a register read returns (10_state.md R35, R36): the exact word, but for the unspecified bits while busy, which
are those of the next free word (assumption log 1). -/
def State.regReadWord (s : State) (off : BitVec 8) : Word :=
  if s.busy then
    (s.regWord off &&& ~~~busyMask off) ||| (Config.freeWord s.freeCount &&& busyMask off)
  else s.regWord off

end Sys2Proof.Machine
end

