-- ==== Sys2Proof/Machine/HostPort.lean ====
section
/-! DEFINITION. The steps of the agents outside the core: the host on its queues, its register port and `rst`
(40_sequencer.md R96, 70_reset_and_hazards.md R169 to R171), and the external permutation unit
(45_permutation.md R142). -/

namespace Sys2Proof.Machine

/-- The reset action (70_reset_and_hazards.md R171): every piece of the hardware's state at its reset value. What the
outside world will do and has received, the parameters and the free value's counter are not the hardware's. -/
def resetCore (s : State) : State :=
  { State.reset with
    params := s.params, host := s.host, turns := s.turns, popped := s.popped, reads := s.reads,
    freeCount := s.freeCount }

/-- `RegRead(off)`: the host receives the word; the read has no effect on the hardware (20_memory.md R53). -/
def regRead (off : BitVec 8) (s : State) : State :=
  { s with
    reads := s.reads ++ [s.regReadWord off],
    freeCount := if s.busy then s.freeCount + 1 else s.freeCount }

/-- The flush bits of a CTRL write (10_state.md R31): each empties its queue, and all are ignored unless
`SEQ = Idle`. -/
def flush (v : Word) (s : State) : State :=
  if s.busy then s
  else
    { s with
      cmdq := if v.getLsbD 8 then [] else s.cmdq,
      din := if v.getLsbD 9 then [] else s.din,
      dout := if v.getLsbD 10 then [] else s.dout }

/-- A write to CTRL (10_state.md R28, R31, R32): STRICT, IE and the flushes; reserved bits are ignored. -/
def writeCtrl (v : Word) (s : State) : State :=
  flush v { s with strict := v.getLsbD 0, ie := v.getLsbD 1 }

/-- `RegWrite(off, v)` (10_state.md R27 to R40): CTRL, and ERRSTAT bit 0 write-1-to-clear; every other write is
ignored, and so is every write while `rst` is asserted (70_reset_and_hazards.md R170). -/
def regWrite (off : BitVec 8) (v : Word) (s : State) : State :=
  if s.rst then s
  else if portOffset off = 0x00 then writeCtrl v s
  else if portOffset off = 0x0C then (if v.getLsbD 0 then clearError s else s)
  else s

/-- One host step, or none if it is not enabled and the host waits (40_sequencer.md R96, 10_state.md R25); while `rst`
is asserted no push and no pop is accepted (70_reset_and_hazards.md R170). -/
def hostAction (a : HostStep) (s : State) : Option State :=
  match a with
  | .pushCmd v =>
    if !s.rst && decide (s.cmdq.length < s.params.cmdqDepth) then some { s with cmdq := s.cmdq ++ [v] } else none
  | .pushDin b =>
    if !s.rst && decide (s.din.length < s.params.dinDepth) then some { s with din := s.din ++ [b] } else none
  | .popDout =>
    match s.dout with
    | [] => none
    | b :: rest => if s.rst then none else some { s with dout := rest, popped := s.popped ++ [b] }
  | .regRead off => some (regRead off s)
  | .regWrite off v => some (regWrite off v s)
  | .reset => some (resetCore s)
  | .setRst level => some (if level then { resetCore s with rst := true } else { s with rst := false })

/-- The host's turn: it takes the first of its coming steps, or waits with it. -/
def hostTurn (s : State) : State :=
  match s.host with
  | [] => s
  | a :: rest =>
    match hostAction a { s with host := rest } with
    | some t => t
    | none => s

/-- The external permutation unit's turn: it acknowledges a request with `perm_dout = KeccakF(perm_din)`
(45_permutation.md R142). A unit that never has a turn never acknowledges (70_reset_and_hazards.md R185). -/
def permTurn (s : State) : State :=
  if s.params.permExternal && s.perm.req && !s.perm.ack then
    { s with perm := { s.perm with ack := true, dout := keccakBus s.perm.din } }
  else s

end Sys2Proof.Machine
end

