-- ==== Sys2Proof/Machine/Sequencer.lean ====
section
/-! DEFINITION. Whose turn it is, and what the core has to do next: the enabling of the issue step and the fetch of a
command word from the head of `CMDQ` (40_sequencer.md R79, R80, R83, 10_state.md R16). -/

namespace Sys2Proof.Machine

/-- What the core's turn comes to. -/
inductive Work where
  /-- No core step is enabled. -/
  | wait
  /-- The issue step of a word that matches no row of the opcode map, ending in this state (R80, R151). -/
  | illegal (t : State)
  /-- The next core step of the command `i`, from this state: the issue step of its word, which has left `CMDQ`, or its
  byte step or finish step. -/
  | command (i : Instr) (t : State)
deriving DecidableEq, Repr

/-- The issue step is enabled (R80): `SEQ = Idle`, `ERRSTAT.ERR = 0` and `CMDQ` non-empty. The oldest word leaves the
queue, whether or not it passes its checks (10_state.md R16). -/
def fetch (s : State) : Work :=
  if s.err then .wait
  else
    match s.cmdq with
    | [] => .wait
    | w :: rest =>
      match decode w with
      | .ok i => .command i { s with cmdq := rest }
      | .error _ => .illegal (raiseError .illegal w { s with cmdq := rest })

/-- The core's work: none while `rst` is asserted (70_reset_and_hazards.md R170), a fetch when idle, else the command
under execution (R83). -/
def nextWork (s : State) : Work :=
  if s.rst then .wait
  else
    match s.seq with
    | .idle => fetch s
    | .run i _ => .command i s

/-- The agent that takes the coming step, and the state with its turn spent (assumption log 2). -/
def takeTurn (s : State) : Agent × State :=
  match s.turns with
  | [] => (.core, s)
  | a :: rest => (a, { s with turns := rest })

/-- `s` with the word `w` at the head of `CMDQ` and nothing in the way of its issue: no command under execution, no
error held, `rst` released, the core's turn. -/
def withCommandAtHead (s : State) (w : Word) : State :=
  { clearError s with
    cmdq := w :: s.cmdq.tail, seq := .idle, rst := false,
    perm := { s.perm with req := false, ack := false }, turns := .core :: s.turns }

end Sys2Proof.Machine
end

