-- ==== Sys2Proof/Machine/Step.lean ====
section
/-! DEFINITION. One step of the machine. -/

namespace Sys2Proof.Machine

/-- The core's turn (40_sequencer.md R79, R80, R83). A core with no enabled step waits: the state stays as it is. -/
def coreTurn (s : State) : Host.Outcome State Fault Refusal :=
  match nextWork s with
  | .wait => .next s
  | .illegal t => .next t
  | .command i t => exec i t

/-- One step: the turn of the agent `State.turns` names next (40_sequencer.md R79). -/
def step (s : State) : Host.Outcome State Fault Refusal :=
  match takeTurn s with
  | (.core, t) => coreTurn t
  | (.host, t) => .next (hostTurn t)
  | (.perm, t) => .next (permTurn t)

/-- `s` with the command word `w` of `nbits` bits where the next step fetches: at the head of `CMDQ`. -/
def State.withFetchWord (s : State) (nbits w : Nat) : State :=
  withCommandAtHead s (BitVec.ofNat 32 (w % 2 ^ nbits))

end Sys2Proof.Machine
end

