-- ==== Sys2Proof/Machine/Assembler.lean ====
section
/-! DEFINITION. The assembler's lines, its pseudo-instructions, and the two streams a program text gives
(30_encoding.md R76, R77; 43_pad.md R120), as abstract syntax: spelling, number bases and comments are left to a parser.
Nothing here is hardware; the core sees only the pushes. -/

namespace Sys2Proof.Machine

/-- A program: the words for `CMDQ` and the bytes for `DIN`, each in order (40_sequencer.md R97). -/
structure Program where
  words : List Word
  data : List Byte
deriving DecidableEq, Repr

/-- A line of assembly (R76, R77). -/
inductive Line where
  /-- A command and its operands. -/
  | command (i : Instr)
  /-- `.word v`. -/
  | word (v : Word)
  /-- `.din hh hh ...`. -/
  | din (bs : List Byte)
  /-- `ABSORB_DATA`. -/
  | absorbData (bs : List Byte)
  /-- `SQUEEZE_XOR_DATA`. -/
  | squeezeXorData (bs : List Byte)
  /-- `ENCRYPT_DATA`. -/
  | encryptData (bs : List Byte)
  /-- `DECRYPT_DATA`. -/
  | decryptData (bs : List Byte)
  /-- `PADB b`. -/
  | padByte (b : Byte)
  /-- `PAD_KECCAK`. -/
  | padKeccak
  /-- `PAD_SHA3`. -/
  | padSha3
  /-- `PAD_RAWSHAKE`. -/
  | padRawShake
  /-- `PAD_SHAKE`. -/
  | padShake
  /-- `PAD_WRAP_PLAIN`. -/
  | padWrapPlain
  /-- `PAD_WRAP_KEY`. -/
  | padWrapKey
  /-- `PAD_NAKED`. -/
  | padNaked
deriving DecidableEq, Repr

/-- A command line: rejected if an operand does not fit its field (R76). -/
def assembleCommand (i : Instr) (bs : List Byte) : Option Program :=
  if i.wf then some { words := [encode i], data := bs } else none

/-- What a line adds to the two streams, the pseudo-instructions by their expansions (R77). -/
def assembleLine : Line → Option Program
  | .command i => assembleCommand i []
  | .word v => some { words := [v], data := [] }
  | .din bs => some { words := [], data := bs }
  | .absorbData bs => assembleCommand (.absorb bs.length) bs
  | .squeezeXorData bs => assembleCommand (.squeezeXor bs.length) bs
  | .encryptData bs => assembleCommand (.encrypt bs.length) bs
  | .decryptData bs => assembleCommand (.decrypt bs.length) bs
  | .padByte b => assembleCommand (.pad 1) [b]
  | .padKeccak => assembleCommand (.pad 1) [0x01]
  | .padSha3 => assembleCommand (.pad 1) [0x06]
  | .padRawShake => assembleCommand (.pad 1) [0x07]
  | .padShake => assembleCommand (.pad 1) [0x1F]
  | .padWrapPlain => assembleCommand (.pad 1) [0x02]
  | .padWrapKey => assembleCommand (.pad 1) [0x03]
  | .padNaked => assembleCommand (.pad 0) []

/-- A program text: the command lines in order are the words, the data lines in order are the bytes (R76). -/
def assemble : List Line → Option Program
  | [] => some { words := [], data := [] }
  | l :: ls =>
    match assembleLine l, assemble ls with
    | some p, some q => some { words := p.words ++ q.words, data := p.data ++ q.data }
    | _, _ => none

/-- The word a host step pushes onto `CMDQ`. -/
def HostStep.pushedWord : HostStep → Option Word
  | .pushCmd v => some v
  | .pushDin _ => none
  | .popDout => none
  | .regRead _ => none
  | .regWrite _ _ => none
  | .reset => none
  | .setRst _ => none

/-- The byte a host step pushes onto `DIN`. -/
def HostStep.pushedByte : HostStep → Option Byte
  | .pushCmd _ => none
  | .pushDin b => some b
  | .popDout => none
  | .regRead _ => none
  | .regWrite _ _ => none
  | .reset => none
  | .setRst _ => none

/-- The host's steps in a run of a program: it pushes words and bytes and pops `DOUT` (40_sequencer.md R97). -/
def HostStep.inRun : HostStep → Bool
  | .pushCmd _ => true
  | .pushDin _ => true
  | .popDout => true
  | .regRead _ => false
  | .regWrite _ _ => false
  | .reset => false
  | .setRst _ => false

/-- The host's steps are those of a run of this program: all its words and all its bytes pushed, each stream in order, with
any pops between; no order between the two streams is required (40_sequencer.md R97, 70_reset_and_hazards.md R189). -/
def Program.PushedBy (p : Program) (hs : List HostStep) : Prop :=
  (∀ a ∈ hs, a.inRun = true) ∧
    hs.filterMap HostStep.pushedWord = p.words ∧ hs.filterMap HostStep.pushedByte = p.data

end Sys2Proof.Machine
end

