-- ==== Sys2Proof/Safety.lean ====
section
/-! DEFINITION. The terms claims about the core use: the effect of each command's steps as one function, the functions on
contexts that whole commands compute, the invariant of every run, and the ends of a run (40_sequencer.md R97). -/

namespace Sys2Proof.Machine

/-- Byte step `k` of the command `i` (40_sequencer.md R83). -/
def byteEffect (i : Instr) (k : Nat) (s : State) : Effect :=
  match i with
  | .absorb _ => absorbByte k s
  | .squeeze _ => squeezeByte k s
  | .squeezeXor _ => squeezeXorByte k s
  | .encrypt _ => encryptByte k s
  | .decrypt _ => decryptByte k s
  | .pad _ => padByte k s
  | .ctxSave => ctxSaveByte k s
  | .ctxLoad _ _ _ => ctxLoadByte k s
  | .init _ => noByteStep k s
  | .rewind => noByteStep k s
  | .forget => noByteStep k s

/-- The finish step of the command `i` (40_sequencer.md R83). -/
def finishEffect (i : Instr) (s : State) : Effect :=
  match i with
  | .absorb _ => finishNothing s
  | .squeeze _ => finishNothing s
  | .squeezeXor _ => finishNothing s
  | .encrypt _ => finishNothing s
  | .decrypt _ => finishNothing s
  | .pad slen => padFinish slen s
  | .ctxSave => finishNothing s
  | .ctxLoad pos cap ph => ctxLoadFinish pos cap ph s
  | .init cap => initFinish cap s
  | .rewind => rewindFinish s
  | .forget => forgetFinish s

/-- The step of `i` from `Run(w, k)`: a byte step for `k < n(w)`, then the finish step (40_sequencer.md R83). -/
def effectOf (i : Instr) (k : Nat) (s : State) : Effect :=
  if k < byteSteps i then byteEffect i k s else finishEffect i s

/-- `SEQ` after that step (40_sequencer.md R83). -/
def nextSeq (i : Instr) (k : Nat) : Seq :=
  if k < byteSteps i then .run i (k + 1) else .idle

/-- A legal capacity, and the cursor inside its rate window (10_state.md R19, R21). -/
abbrev Context.inWindow (c : Context) : Prop :=
  legalCap c.cap.toNat = true ∧ c.pos.toNat < c.rate

/-- `S[POS]`. -/
def Context.current (c : Context) : Byte := Memory.byteAt c.S c.pos.toNat

/-- The context with `S[POS]` replaced. -/
def Context.withCurrent (c : Context) (v : Byte) : Context :=
  { c with S := Memory.setByte c.S c.pos.toNat v }

/-- The context after `Advance()` (40_sequencer.md R88). -/
def Context.advanced (c : Context) : Context :=
  if c.pos.toNat + 1 = c.rate then { c with S := keccakF c.S, pos := 0 }
  else { c with pos := BitVec.ofNat 8 (c.pos.toNat + 1) }

/-- The context after absorbing one byte (41_absorb_squeeze.md R98). -/
def Context.absorbed (c : Context) (b : Byte) : Context :=
  (c.withCurrent (c.current ^^^ b)).advanced

/-- The context after absorbing a byte string (R98, R104). -/
def Context.absorbAll (c : Context) (d : List Byte) : Context := d.foldl Context.absorbed c

/-- The output of SQUEEZE of `n` bytes and the context it leaves (R100). -/
def Context.squeezeAll : Nat → Context → List Byte × Context
  | 0, c => ([], c)
  | n + 1, c =>
    let r := Context.squeezeAll n c.advanced
    (c.current :: r.1, r.2)

/-- The output of SQUEEZE_XOR of a byte string and the context it leaves (R102). -/
def Context.squeezeXorAll : List Byte → Context → List Byte × Context
  | [], c => ([], c)
  | b :: d, c =>
    let r := Context.squeezeXorAll d c.advanced
    ((b ^^^ c.current) :: r.1, r.2)

/-- The output of ENCRYPT of a byte string and the context it leaves (42_duplex.md R107). -/
def Context.encryptAll : List Byte → Context → List Byte × Context
  | [], c => ([], c)
  | p :: d, c =>
    let r := Context.encryptAll d (c.withCurrent (p ^^^ c.current)).advanced
    ((p ^^^ c.current) :: r.1, r.2)

/-- The output of DECRYPT of a byte string and the context it leaves (R109). -/
def Context.decryptAll : List Byte → Context → List Byte × Context
  | [], c => ([], c)
  | e :: d, c =>
    let r := Context.decryptAll d (c.withCurrent (c.current ^^^ (e ^^^ c.current))).advanced
    ((e ^^^ c.current) :: r.1, r.2)

/-- The invariant of every run. -/
structure Inv (s : State) : Prop where
  /-- `S` is in canonical form. -/
  memory : Memory.wf s.ctx.S
  /-- A configured context has a legal `CAP` (10_state.md R19) and `POS < RATE` (R21). -/
  context : s.ctx.cfg = true → s.ctx.inWindow
  /-- Every queue depth is at least 1 (00_scope.md R9). -/
  depths : 1 ≤ s.params.cmdqDepth ∧ 1 ≤ s.params.dinDepth ∧ 1 ≤ s.params.doutDepth
  /-- No queue holds more than its depth (10_state.md R25). -/
  queues : s.cmdq.length ≤ s.params.cmdqDepth ∧ s.din.length ≤ s.params.dinDepth ∧
    s.dout.length ≤ s.params.doutDepth
  /-- With no error held the record reads 0 (10_state.md R38, R39). -/
  noError : s.err = false → s.code = .none ∧ s.eop = 0 ∧ s.errcmd = 0
  /-- An error held has a code, the failing word's opcode, and `SEQ = Idle` (60_exceptions.md R150, R152). -/
  halted : s.err = true → s.code ≠ .none ∧ s.eop = s.errcmd.extractLsb' 0 4 ∧ s.seq = .idle
  /-- A command under execution is a well-formed one that passed its checks, with `k ≤ n(w)` (10_state.md R26,
  40_sequencer.md R81). -/
  running : ∀ i k, s.seq = .run i k →
    WellFormed i ∧ k ≤ byteSteps i ∧ (needsCfg i = true → s.ctx.cfg = true) ∧ paramsOk s.ctx i = true
  /-- While `rst` is asserted every piece of the hardware holds its reset value (70_reset_and_hazards.md R170). -/
  inReset : s.rst = true → s = { resetCore s with rst := true }
  /-- A request on the permutation port is that of the pending step, with `perm_din` the buffer it would permute
  (45_permutation.md R142, R143). -/
  port : s.perm.req = true → s.params.permExternal = true ∧
    ∃ i k t, s.seq = .run i k ∧ effectOf i k s = .permute t ∧
      s.perm.din = busOfBytes (Memory.toBytes t.ctx.S)
  /-- An acknowledgement answers a request, with `KeccakF` of it (45_permutation.md R142). -/
  acked : s.perm.ack = true → s.perm.req = true ∧ s.perm.dout = keccakBus s.perm.din

/-- A launch state (95_test_vectors.md, part 1): the state after reset, `CTRL` as the program has it, with any legal design
parameters (00_scope.md R9). -/
def IsLaunch (s : State) : Prop :=
  ∃ (strict ie : Bool) (ps : Params), 1 ≤ ps.cmdqDepth ∧ 1 ≤ ps.dinDepth ∧ 1 ≤ ps.doutDepth ∧
    s = { State.reset with strict := strict, ie := ie, params := ps }

/-- A run of a program from a launch state, and the state it has come to (40_sequencer.md R97): the host pushes all of the
program in order and pops `DOUT`, its steps interleaved in any way with those of the other agents. -/
def Program.Run (p : Program) (launch s : State) : Prop :=
  IsLaunch launch ∧ ∃ (hs : List HostStep) (ts : List Agent) (n : Nat), p.PushedBy hs ∧
    Host.Core.run Sys2Proof.core n { launch with host := hs, turns := ts } = .next s

/-- A step that pushes onto `CMDQ` or `DIN`. -/
def HostStep.isPush : HostStep → Bool
  | .pushCmd _ => true
  | .pushDin _ => true
  | .popDout => false
  | .regRead _ => false
  | .regWrite _ _ => false
  | .reset => false
  | .setRst _ => false

/-- A run has ended cleanly (R97): everything pushed, nothing queued or running, no error. -/
def EndedCleanly (s : State) : Prop :=
  s.host.any HostStep.isPush = false ∧ s.cmdq = [] ∧ s.seq = .idle ∧ s.dout = [] ∧ s.err = false

/-- A run has ended halted (R97): as above with an error held, words possibly left in `CMDQ`. -/
def EndedHalted (s : State) : Prop :=
  s.host.any HostStep.isPush = false ∧ s.seq = .idle ∧ s.dout = [] ∧ s.err = true

/-- A command is under execution and its next step is not enabled now: the core's turn leaves the state as it is
(40_sequencer.md R95). A later host step may enable it. -/
def CoreWaits (s : State) : Prop := s.rst = false ∧ s.seq ≠ .idle ∧ coreTurn s = .next s

/-- The core waits now and for ever, in whatever order the allowed agents take their turns and the host its coming steps. -/
def WaitsForever (allowed : Agent → Prop) (s : State) : Prop :=
  ∀ (ts : List Agent) (n : Nat) (t : State), (∀ a ∈ ts, allowed a) →
    Host.Core.run Sys2Proof.core n { s with turns := ts } = .next t → t.seq = s.seq ∧ CoreWaits t

/-- A state is *stuck* (R97): a byte step waits for ever on a `DIN` byte or a `DOUT` slot that no coming host step provides. It
is no end of a run. -/
def CoreStuck (s : State) : Prop :=
  (∃ i k, s.seq = .run i k ∧ k < byteSteps i) ∧ WaitsForever (fun _ => True) s

/-- The third way to hang (70_reset_and_hazards.md R185): the core has called for a permutation and, the unit never
acknowledging it, waits for ever. -/
def HungOnPermutation (s : State) : Prop :=
  s.perm.req = true ∧ s.perm.ack = false ∧ WaitsForever (fun a => a ≠ .perm) s

end Sys2Proof.Machine
end

