-- ==== Sys2Proof/Certificates/Slice0/Obligations.lean ====
section
/-! DEFINITION. The statements of the row: what each command, the sequencer, the register port, reset, the permutation port
and whole commands do, from the numbered rules of spec/. -/

open Sys2Proof Sys2Proof.Machine

/-! ### Words the statements use -/

/-- The state after `raise Error(c)` for the failing word `w` with opcode `op` (60_exceptions.md R151). -/
def Sys2Proof.Claims.failed (s : State) (c : ErrCode) (op : BitVec 4) (w : Word) : State :=
  { s with err := true, code := c, eop := op, errcmd := w }

/-- The permutation is internal, or this byte step does not reach the end of the rate window: `Advance()` is whole in
one step. -/
abbrev Sys2Proof.Claims.AdvancesAtOnce (s : State) : Prop :=
  s.params.permExternal = false ∨ s.ctx.pos.toNat + 1 ≠ s.ctx.rate

/-- Only the core moves: every coming turn is its own and `rst` is released. -/
abbrev Sys2Proof.Claims.CoreAlone (s : State) : Prop := s.turns = [] ∧ s.rst = false

/-- The core can issue: idle, no error held, only the core moves, the permutation internal. -/
abbrev Sys2Proof.Claims.ReadyAlone (s : State) : Prop :=
  Claims.CoreAlone s ∧ s.seq = .idle ∧ s.err = false ∧ s.params.permExternal = false

/-- The same machine with the permutation internal. -/
def Sys2Proof.Claims.internally (s : State) : State :=
  { s with params := { s.params with permExternal := false } }

/-- The hardware's part of two states is the same: they differ at most in the model's own fields. -/
abbrev Sys2Proof.Claims.SameHardware (s t : State) : Prop :=
  t.ctx = s.ctx ∧ t.seq = s.seq ∧ t.cmdq = s.cmdq ∧ t.din = s.din ∧ t.dout = s.dout ∧ t.strict = s.strict ∧
    t.ie = s.ie ∧ t.err = s.err ∧ t.code = s.code ∧ t.eop = s.eop ∧ t.errcmd = s.errcmd ∧ t.rst = s.rst ∧
    t.perm = s.perm

/-- Every field but the context, `SEQ`, `DIN`, `DOUT` and the permutation port is unchanged. -/
abbrev Sys2Proof.Claims.ControlUnchanged (s t : State) : Prop :=
  t.cmdq = s.cmdq ∧ t.strict = s.strict ∧ t.ie = s.ie ∧ t.err = s.err ∧ t.code = s.code ∧ t.eop = s.eop ∧
    t.errcmd = s.errcmd ∧ t.rst = s.rst ∧ t.params = s.params ∧ t.host = s.host ∧ t.turns = s.turns ∧
    t.popped = s.popped ∧ t.reads = s.reads ∧ t.freeCount = s.freeCount

/-- The coming turn is the core's: listed for it, or none listed at all (assumption log 2). -/
abbrev Sys2Proof.Claims.CoreTurn (s : State) : Prop := s.turns = [] ∨ ∃ ts, s.turns = .core :: ts

/-- The coming step is the host's reset: a pulse of `rst`, or its assertion. -/
abbrev Sys2Proof.Claims.HostResets (s : State) : Prop :=
  (∃ ts, s.turns = .host :: ts) ∧ ∃ hs, s.host = .reset :: hs ∨ s.host = .setRst true :: hs

/-- The coming step is the host's write of `v` to the register at `off`. -/
abbrev Sys2Proof.Claims.HostWrites (s : State) (off : BitVec 8) (v : Word) : Prop :=
  (∃ ts, s.turns = .host :: ts) ∧ ∃ hs, s.host = .regWrite off v :: hs

/-- The coming step of the core is the finish step of INIT, or that of CTX_LOAD: with the count of byte steps at or past the
command's own, and at it in every state that meets the invariant. -/
def Sys2Proof.Claims.InitOrLoadFinishes (s : State) : Prop :=
  (∃ c k, s.seq = .run (.init c) k ∧ (Inv s → k = 0)) ∨
    (∃ p c ph k, s.seq = .run (.ctxLoad p c ph) k ∧ 200 ≤ k ∧ (Inv s → k = 200))

/-- The step calls `Permute()`. -/
def Sys2Proof.Claims.permutes : Effect → Bool
  | .permute _ => true
  | .wait => false
  | .done _ => false
  | .noByte _ => false

/-- The masks and matches of the opcode map, as the spec prints them (30_encoding.md R72). -/
def Sys2Proof.Claims.rows : List (Word × Word) :=
  [(0xF800FFFF, 0x00000001), (0x000000FF, 0x00000002), (0x000000FF, 0x00000003), (0x000000FF, 0x00000004),
   (0x000000FF, 0x00000005), (0x000000FF, 0x00000006), (0xFFFF00FF, 0x00000007), (0xFFFFFFFF, 0x00000008),
   (0xFFFFFFFF, 0x00000009), (0xFFFFFFFF, 0x0000000A), (0xF00000FF, 0x0000000B)]

/-- The word matches some row. -/
def Sys2Proof.Claims.legalWord (w : Word) : Bool := Claims.rows.any fun r => w &&& r.1 == r.2

/-- `w[3:0]`. -/
def Sys2Proof.Claims.op (w : Word) : Nat := (w.extractLsb' 0 4).toNat

/-- The encoding clause of a command's rule: of the words with opcode `op`, those with `w & mask = pattern` are the command with
the operands `i` reads from their fields, and every other fails its check with ILLEGAL, whatever the context. -/
def Sys2Proof.Claims.Encoding (op : BitVec 4) (mask pattern : Word) (i : Word → Instr) : Prop :=
  ∀ w : Word, w.extractLsb' 0 4 = op →
    (w &&& mask = pattern → decode w = .ok (i w)) ∧
    (w &&& mask ≠ pattern → ∀ (strict : Bool) (c : Context), checkWord strict c w = .illegal)

/-! ### Encoding -/

/-- Decoding the encoding of any well-formed command gives it back, with every operand at every value its field admits
(30_encoding.md, formats D, P, C and N). -/
def Obligations.DecodeOfEncode : Prop :=
  ∀ i : Instr, WellFormed i → decode (encode i) = .ok i

/-- A word that decodes is the one word of a well-formed command: the decoder drops no bit. -/
def Obligations.EncodeOfDecode : Prop :=
  ∀ (w : Word) (i : Instr), decode w = .ok i → WellFormed i ∧ encode i = w

/-- R73 and R74: a word is legal exactly when it matches a row; every word with a reserved opcode, the all-zero word
among them, and every word with a 1 in a reserved bit matches none; and such a word, at the head of the queue of a core
that can issue, fails with ILLEGAL and does nothing else. -/
def Obligations.IllegalWordsFailWithIllegal : Prop :=
  (∀ w : Word, (∃ i, decode w = .ok i) ↔ Claims.legalWord w = true) ∧
  (∀ w : Word, (Claims.op w = 0 ∨ 12 ≤ Claims.op w) → Claims.legalWord w = false) ∧
  (∀ (w : Word) (r : Word × Word), r ∈ Claims.rows → w.extractLsb' 0 4 = r.2.extractLsb' 0 4 →
    w &&& r.1 ≠ r.2 → Claims.legalWord w = false) ∧
  (∀ (s : State) (w : Word) (rest : List Word), Claims.CoreAlone s → s.seq = .idle → s.err = false →
    s.cmdq = w :: rest → Claims.legalWord w = false →
    step s = .next (Claims.failed { s with cmdq := rest } .illegal (w.extractLsb' 0 4) w))

/-- Words of the spec's programs decode to the commands beside them (95_test_vectors.md). -/
def Obligations.SpecWordsDecode : Prop :=
  decode 0x02000001 = .ok (.init 512) ∧ decode 0x00000302 = .ok (.absorb 3) ∧
  decode 0x00002003 = .ok (.squeeze 32) ∧ decode 0x00000204 = .ok (.squeezeXor 2) ∧
  decode 0x00000705 = .ok (.encrypt 7) ∧ decode 0x00000706 = .ok (.decrypt 7) ∧
  decode 0x00000107 = .ok (.pad 1) ∧ decode 0x00000008 = .ok .rewind ∧ decode 0x00000009 = .ok .forget ∧
  decode 0x0000000A = .ok .ctxSave ∧ decode 0x0A00870B = .ok (.ctxLoad 135 512 .squeezing)

/-! ### The sequencer -/

/-- A step runs the decoded instruction. In the core's turn (one listed for it, or none listed at all) with the core able to
issue and the word at the head of `CMDQ` decoding to `i`, the step is `exec i` with that word gone from the queue; with
`i` under execution, the step is `exec i`. -/
def Obligations.StepRunsTheDecodedInstruction : Prop :=
  ∀ (s : State) (ts : List Agent) (i : Instr), (s.turns = .core :: ts ∨ s.turns = [] ∧ ts = []) → s.rst = false →
    (∀ w rest, s.seq = .idle → s.err = false → s.cmdq = w :: rest → decode w = .ok i →
      step s = exec i { s with turns := ts, cmdq := rest }) ∧
    (∀ k, s.seq = .run i k → step s = exec i { s with turns := ts })

/-- R84: `Check(w)` is the spec's list of tests on the bits of the word, in its order. -/
def Obligations.CheckAppliesTheTestsInOrder : Prop :=
  ∀ (strict : Bool) (c : Context) (w : Word),
    checkWord strict c w =
      if Claims.legalWord w = false then .illegal
      else if Claims.op w ≠ 1 ∧ Claims.op w ≠ 11 ∧ c.cfg = false then .nocfg
      else if strict = true ∧ ((Claims.op w = 2 ∧ c.phase = .squeezing) ∨
          (3 ≤ Claims.op w ∧ Claims.op w ≤ 6 ∧ c.phase = .absorbing)) then .phase
      else if (Claims.op w = 1 ∨ Claims.op w = 11) ∧
          ¬(field w 16 11 % 64 = 0 ∧ field w 16 11 ≤ 1536) then .param
      else if Claims.op w = 11 ∧ field w 8 8 ≥ (1600 - field w 16 11) / 8 then .param
      else if Claims.op w = 7 ∧ field w 8 8 > c.rate - c.pos.toNat then .param
      else .none

/-- R82: `n(w)`, the number of byte steps, by the word's opcode. -/
def Obligations.ByteStepCountsOfTheTable : Prop :=
  ∀ (w : Word) (i : Instr), decode w = .ok i →
    byteSteps i =
      if 2 ≤ Claims.op w ∧ Claims.op w ≤ 6 then field w 8 24
      else if Claims.op w = 7 then field w 8 8
      else if Claims.op w = 10 then 204
      else if Claims.op w = 11 then 200
      else 0

/-- R80 and R151: the issue step. Enabled exactly when `SEQ = Idle`, `ERR = 0` and `CMDQ` is non-empty, it takes the head
of the queue; a passed check starts the command of that word at `k = 0`, a failed one records its code, the word's
opcode field and the word, and touches nothing else; when it is not enabled the idle core's turn changes nothing. -/
def Obligations.IssueStepTakesTheHeadOfTheQueue : Prop :=
  (∀ (s : State) (w : Word) (rest : List Word), Claims.CoreAlone s → s.seq = .idle → s.err = false →
    s.cmdq = w :: rest →
    (checkWord s.strict s.ctx w = .none →
      ∃ i, decode w = .ok i ∧ step s = .next { s with cmdq := rest, seq := .run i 0 }) ∧
    (∀ e, e ≠ .none → checkWord s.strict s.ctx w = e →
      step s = .next (Claims.failed { s with cmdq := rest } e (w.extractLsb' 0 4) w))) ∧
  (∀ s : State, Claims.CoreAlone s → s.seq = .idle → (s.err = true ∨ s.cmdq = []) → step s = .next s)

/-- R55, R81: the core runs one command at a time, and a word that passed its check cannot fail later. While a command is under
execution its steps take no word from `CMDQ`, touch no field of the error record, no control field and nothing of the
host's side, and `SEQ` stays with that command, its count of byte steps never falling, until it is `Idle`. -/
def Obligations.RunningCommandsKeepControl : Prop :=
  ∀ (i : Instr) (k : Nat) (s t : State), s.seq = .run i k → exec i s = .next t →
    Claims.ControlUnchanged s t ∧ (t.seq = .run i k ∨ t.seq = .run i (k + 1) ∨ t.seq = .idle)

/-- R153: errors are precise. In the step that makes `ERR` 1 no command was running, the failing word leaves `CMDQ`, its check
is the one recorded, and nothing else changes (but the model's own count of turns). -/
def Obligations.ErrorsArePrecise : Prop :=
  ∀ s t : State, step s = .next t → s.err = false → t.err = true →
    s.seq = .idle ∧ ∃ w rest, s.cmdq = w :: rest ∧ checkWord s.strict s.ctx w ≠ .none ∧
      t = Claims.failed { s with cmdq := rest, turns := s.turns.tail } (checkWord s.strict s.ctx w)
        (w.extractLsb' 0 4) w

/-- R152: while an error is held the core's turn changes nothing, whatever is queued; and the host's steps stay enabled: it
pushes, pops, reads and writes registers, and flushes, the flush taking effect. -/
def Obligations.HeldErrorHaltsTheCore : Prop :=
  (∀ s : State, s.err = true → s.seq = .idle → coreTurn s = .next s) ∧
  (∀ (s : State) (v : Word) (b : Byte) (off : BitVec 8), s.err = true → s.seq = .idle → s.rst = false →
    (s.cmdq.length < s.params.cmdqDepth → hostAction (.pushCmd v) s = some { s with cmdq := s.cmdq ++ [v] }) ∧
    (s.din.length < s.params.dinDepth → hostAction (.pushDin b) s = some { s with din := s.din ++ [b] }) ∧
    (∀ rest, s.dout = b :: rest →
      hostAction .popDout s = some { s with dout := rest, popped := s.popped ++ [b] }) ∧
    hostAction (.regRead off) s = some { s with reads := s.reads ++ [s.regWord off] } ∧
    (∃ t, hostAction (.regWrite off v) s = some t) ∧
    ∃ t, hostAction (.regWrite 0x00 v) s = some t ∧ t.err = true ∧
      t.cmdq = (if v.getLsbD 8 then [] else s.cmdq) ∧ t.din = (if v.getLsbD 9 then [] else s.din) ∧
      t.dout = (if v.getLsbD 10 then [] else s.dout))

/-! ### The commands -/

/-- R93, R94: INIT. From any context, configured or not, its check is the capacity's alone, and its one step after issue
replaces the whole context; nothing else changes. -/
def Obligations.InitBuildsANewSponge : Prop :=
  Claims.Encoding 0x1 0xF800FFFF 0x00000001 (fun w => .init (w.extractLsb' 16 11).toNat) ∧
  ∀ (cap : Nat) (s : State), cap ≤ 2047 →
    (s.seq = .idle → cap % 64 = 0 ∧ cap ≤ 1536 →
      exec (.init cap) s = .next { s with seq := .run (.init cap) 0 }) ∧
    (s.seq = .idle → ¬(cap % 64 = 0 ∧ cap ≤ 1536) →
      exec (.init cap) s = .next (Claims.failed s .param 0x1 (encode (.init cap)))) ∧
    (s.seq = .run (.init cap) 0 →
      ∃ c : Context, exec (.init cap) s = .next { s with ctx := c, seq := .idle } ∧
        (∀ a, Memory.byteAt c.S a = 0x00) ∧ c.cap.toNat = cap ∧ c.pos = 0 ∧ c.phase = .absorbing ∧ c.cfg = true)

/-- R98: ABSORB, from its check to its finish step, for every form: an empty input queue waits; each byte step XORs the oldest
byte of `DIN` into `S[POS]` and advances; nothing else changes, the phase not even after a permutation. -/
def Obligations.AbsorbXorsInputIntoTheRate : Prop :=
  Claims.Encoding 0x2 0x000000FF 0x00000002 (fun w => .absorb (w.extractLsb' 8 24).toNat) ∧
  ∀ (len : Nat) (s : State), len ≤ 16777215 →
    (s.seq = .idle → s.ctx.cfg = false →
      exec (.absorb len) s = .next (Claims.failed s .nocfg 0x2 (encode (.absorb len)))) ∧
    (s.seq = .idle → s.ctx.cfg = true → s.strict = true ∧ s.ctx.phase = .squeezing →
      exec (.absorb len) s = .next (Claims.failed s .phase 0x2 (encode (.absorb len)))) ∧
    (s.seq = .idle → s.ctx.cfg = true → ¬(s.strict = true ∧ s.ctx.phase = .squeezing) →
      exec (.absorb len) s = .next { s with seq := .run (.absorb len) 0 }) ∧
    (∀ k, s.seq = .run (.absorb len) k → k < len → s.din = [] → exec (.absorb len) s = .next s) ∧
    (∀ k b rest, s.seq = .run (.absorb len) k → k < len → s.din = b :: rest → s.ctx.inWindow →
      Claims.AdvancesAtOnce s →
      exec (.absorb len) s = .next { s with
        din := rest, seq := .run (.absorb len) (k + 1),
        ctx := Context.advanced { s.ctx with
          S := Memory.setByte s.ctx.S s.ctx.pos.toNat (Memory.byteAt s.ctx.S s.ctx.pos.toNat ^^^ b) } }) ∧
    (s.seq = .run (.absorb len) len → exec (.absorb len) s = .next { s with seq := .idle })

/-- R100: SQUEEZE, from its check to its finish step: a full output queue waits; each byte step pushes `S[POS]` and advances;
`S` changes only through the advance. -/
def Obligations.SqueezeOutputsTheRate : Prop :=
  Claims.Encoding 0x3 0x000000FF 0x00000003 (fun w => .squeeze (w.extractLsb' 8 24).toNat) ∧
  ∀ (len : Nat) (s : State), len ≤ 16777215 →
    (s.seq = .idle → s.ctx.cfg = false →
      exec (.squeeze len) s = .next (Claims.failed s .nocfg 0x3 (encode (.squeeze len)))) ∧
    (s.seq = .idle → s.ctx.cfg = true → s.strict = true ∧ s.ctx.phase = .absorbing →
      exec (.squeeze len) s = .next (Claims.failed s .phase 0x3 (encode (.squeeze len)))) ∧
    (s.seq = .idle → s.ctx.cfg = true → ¬(s.strict = true ∧ s.ctx.phase = .absorbing) →
      exec (.squeeze len) s = .next { s with seq := .run (.squeeze len) 0 }) ∧
    (∀ k, s.seq = .run (.squeeze len) k → k < len → s.params.doutDepth ≤ s.dout.length →
      exec (.squeeze len) s = .next s) ∧
    (∀ k, s.seq = .run (.squeeze len) k → k < len → s.dout.length < s.params.doutDepth → s.ctx.inWindow →
      Claims.AdvancesAtOnce s →
      exec (.squeeze len) s = .next { s with
        dout := s.dout ++ [Memory.byteAt s.ctx.S s.ctx.pos.toNat], seq := .run (.squeeze len) (k + 1),
        ctx := Context.advanced s.ctx }) ∧
    (s.seq = .run (.squeeze len) len → exec (.squeeze len) s = .next { s with seq := .idle })

/-- R102: SQUEEZE_XOR, from its check to its finish step: it waits unless `DIN` has a byte and `DOUT` a slot, both at once;
each byte step pushes the input byte XORed with `S[POS]`, without writing `S`, and advances. -/
def Obligations.SqueezeXorMasksInputWithTheRate : Prop :=
  Claims.Encoding 0x4 0x000000FF 0x00000004 (fun w => .squeezeXor (w.extractLsb' 8 24).toNat) ∧
  ∀ (len : Nat) (s : State), len ≤ 16777215 →
    (s.seq = .idle → s.ctx.cfg = false →
      exec (.squeezeXor len) s = .next (Claims.failed s .nocfg 0x4 (encode (.squeezeXor len)))) ∧
    (s.seq = .idle → s.ctx.cfg = true → s.strict = true ∧ s.ctx.phase = .absorbing →
      exec (.squeezeXor len) s = .next (Claims.failed s .phase 0x4 (encode (.squeezeXor len)))) ∧
    (s.seq = .idle → s.ctx.cfg = true → ¬(s.strict = true ∧ s.ctx.phase = .absorbing) →
      exec (.squeezeXor len) s = .next { s with seq := .run (.squeezeXor len) 0 }) ∧
    (∀ k, s.seq = .run (.squeezeXor len) k → k < len →
      (s.din = [] ∨ s.params.doutDepth ≤ s.dout.length) → exec (.squeezeXor len) s = .next s) ∧
    (∀ k b rest, s.seq = .run (.squeezeXor len) k → k < len → s.din = b :: rest →
      s.dout.length < s.params.doutDepth → s.ctx.inWindow → Claims.AdvancesAtOnce s →
      exec (.squeezeXor len) s = .next { s with
        din := rest, dout := s.dout ++ [b ^^^ Memory.byteAt s.ctx.S s.ctx.pos.toNat],
        seq := .run (.squeezeXor len) (k + 1), ctx := Context.advanced s.ctx }) ∧
    (s.seq = .run (.squeezeXor len) len → exec (.squeezeXor len) s = .next { s with seq := .idle })

/-- R107: ENCRYPT, from its check to its finish step: each byte step outputs the plaintext byte XORed with `S[POS]`, leaves
that ciphertext byte in `S[POS]`, and advances. -/
def Obligations.EncryptLeavesTheCiphertextInTheState : Prop :=
  Claims.Encoding 0x5 0x000000FF 0x00000005 (fun w => .encrypt (w.extractLsb' 8 24).toNat) ∧
  ∀ (len : Nat) (s : State), len ≤ 16777215 →
    (s.seq = .idle → s.ctx.cfg = false →
      exec (.encrypt len) s = .next (Claims.failed s .nocfg 0x5 (encode (.encrypt len)))) ∧
    (s.seq = .idle → s.ctx.cfg = true → s.strict = true ∧ s.ctx.phase = .absorbing →
      exec (.encrypt len) s = .next (Claims.failed s .phase 0x5 (encode (.encrypt len)))) ∧
    (s.seq = .idle → s.ctx.cfg = true → ¬(s.strict = true ∧ s.ctx.phase = .absorbing) →
      exec (.encrypt len) s = .next { s with seq := .run (.encrypt len) 0 }) ∧
    (∀ k, s.seq = .run (.encrypt len) k → k < len →
      (s.din = [] ∨ s.params.doutDepth ≤ s.dout.length) → exec (.encrypt len) s = .next s) ∧
    (∀ k p rest, s.seq = .run (.encrypt len) k → k < len → s.din = p :: rest →
      s.dout.length < s.params.doutDepth → s.ctx.inWindow → Claims.AdvancesAtOnce s →
      exec (.encrypt len) s = .next { s with
        din := rest, dout := s.dout ++ [p ^^^ Memory.byteAt s.ctx.S s.ctx.pos.toNat],
        seq := .run (.encrypt len) (k + 1),
        ctx := Context.advanced { s.ctx with
          S := Memory.setByte s.ctx.S s.ctx.pos.toNat (p ^^^ Memory.byteAt s.ctx.S s.ctx.pos.toNat) } }) ∧
    (s.seq = .run (.encrypt len) len → exec (.encrypt len) s = .next { s with seq := .idle })

/-- R109: DECRYPT, from its check to its finish step: each byte step outputs the ciphertext byte `c` XORed with `S[POS]` and
leaves in `S[POS]` the state byte XORed with that plaintext byte, which is `c`; then it advances. -/
def Obligations.DecryptLeavesTheCiphertextInTheState : Prop :=
  Claims.Encoding 0x6 0x000000FF 0x00000006 (fun w => .decrypt (w.extractLsb' 8 24).toNat) ∧
  ∀ (len : Nat) (s : State), len ≤ 16777215 →
    (s.seq = .idle → s.ctx.cfg = false →
      exec (.decrypt len) s = .next (Claims.failed s .nocfg 0x6 (encode (.decrypt len)))) ∧
    (s.seq = .idle → s.ctx.cfg = true → s.strict = true ∧ s.ctx.phase = .absorbing →
      exec (.decrypt len) s = .next (Claims.failed s .phase 0x6 (encode (.decrypt len)))) ∧
    (s.seq = .idle → s.ctx.cfg = true → ¬(s.strict = true ∧ s.ctx.phase = .absorbing) →
      exec (.decrypt len) s = .next { s with seq := .run (.decrypt len) 0 }) ∧
    (∀ k, s.seq = .run (.decrypt len) k → k < len →
      (s.din = [] ∨ s.params.doutDepth ≤ s.dout.length) → exec (.decrypt len) s = .next s) ∧
    (∀ k c rest, s.seq = .run (.decrypt len) k → k < len → s.din = c :: rest →
      s.dout.length < s.params.doutDepth → s.ctx.inWindow → Claims.AdvancesAtOnce s →
      exec (.decrypt len) s = .next { s with
        din := rest, dout := s.dout ++ [c ^^^ Memory.byteAt s.ctx.S s.ctx.pos.toNat],
        seq := .run (.decrypt len) (k + 1),
        ctx := Context.advanced { s.ctx with S := Memory.setByte s.ctx.S s.ctx.pos.toNat c } }) ∧
    (s.seq = .run (.decrypt len) len → exec (.decrypt len) s = .next { s with seq := .idle })

/-- R114: PAD, from its check to its finish step: legal in either phase; suffix byte `k` goes to `S[POS + k]` with `POS` kept;
the finish step flips the high bit of `S[RATE-1]` unless the suffix is empty, permutes, and leaves `POS = 0` in the
squeezing phase. -/
def Obligations.PadAppendsTheSuffixAndPermutes : Prop :=
  Claims.Encoding 0x7 0xFFFF00FF 0x00000007 (fun w => .pad (w.extractLsb' 8 8).toNat) ∧
  ∀ (slen : Nat) (s : State), slen ≤ 255 →
    (s.seq = .idle → s.ctx.cfg = false →
      exec (.pad slen) s = .next (Claims.failed s .nocfg 0x7 (encode (.pad slen)))) ∧
    (s.seq = .idle → s.ctx.cfg = true → s.ctx.rate - s.ctx.pos.toNat < slen →
      exec (.pad slen) s = .next (Claims.failed s .param 0x7 (encode (.pad slen)))) ∧
    (s.seq = .idle → s.ctx.cfg = true → slen ≤ s.ctx.rate - s.ctx.pos.toNat →
      exec (.pad slen) s = .next { s with seq := .run (.pad slen) 0 }) ∧
    (∀ k, s.seq = .run (.pad slen) k → k < slen → s.din = [] → exec (.pad slen) s = .next s) ∧
    (∀ k b rest, s.seq = .run (.pad slen) k → k < slen → s.din = b :: rest →
      slen ≤ s.ctx.rate - s.ctx.pos.toNat →
      exec (.pad slen) s = .next { s with
        din := rest, seq := .run (.pad slen) (k + 1),
        ctx := { s.ctx with
          S := Memory.setByte s.ctx.S (s.ctx.pos.toNat + k)
            (Memory.byteAt s.ctx.S (s.ctx.pos.toNat + k) ^^^ b) } }) ∧
    (0 < slen → s.seq = .run (.pad slen) slen → s.params.permExternal = false →
      exec (.pad slen) s = .next { s with
        seq := .idle,
        ctx := { s.ctx with
          S := keccakF (Memory.setByte s.ctx.S (s.ctx.rate - 1)
            (Memory.byteAt s.ctx.S (s.ctx.rate - 1) ^^^ 0x80)),
          pos := 0, phase := .squeezing } }) ∧
    (slen = 0 → s.seq = .run (.pad slen) 0 → s.params.permExternal = false →
      exec (.pad slen) s = .next { s with
        seq := .idle, ctx := { s.ctx with S := keccakF s.ctx.S, pos := 0, phase := .squeezing } })

/-- R122: REWIND, from its check to its finish step: no phase check; the finish step sets `POS` and `PHASE` to 0 and neither
permutes nor clears the state. -/
def Obligations.RewindMovesOnlyTheCursorAndPhase : Prop :=
  Claims.Encoding 0x8 0xFFFFFFFF 0x00000008 (fun _ => .rewind) ∧
  ∀ s : State,
    (s.seq = .idle → s.ctx.cfg = false → exec .rewind s = .next (Claims.failed s .nocfg 0x8 0x00000008)) ∧
    (s.seq = .idle → s.ctx.cfg = true → exec .rewind s = .next { s with seq := .run .rewind 0 }) ∧
    (s.seq = .run .rewind 0 →
      exec .rewind s = .next { s with seq := .idle, ctx := { s.ctx with pos := 0, phase := .absorbing } })

/-- R124: FORGET, from its check to its finish step: all of `S` zero, `POS` and `PHASE` 0, `CAP` and `CFG` kept: the context
`INIT CAP` would give. -/
def Obligations.ForgetEqualsAFreshSponge : Prop :=
  Claims.Encoding 0x9 0xFFFFFFFF 0x00000009 (fun _ => .forget) ∧
  ∀ s : State,
    (s.seq = .idle → s.ctx.cfg = false → exec .forget s = .next (Claims.failed s .nocfg 0x9 0x00000009)) ∧
    (s.seq = .idle → s.ctx.cfg = true → exec .forget s = .next { s with seq := .run .forget 0 }) ∧
    (s.seq = .run .forget 0 →
      ∃ c : Context, exec .forget s = .next { s with seq := .idle, ctx := c } ∧
        (∀ a, Memory.byteAt c.S a = 0x00) ∧ c.cap = s.ctx.cap ∧ c.pos = 0 ∧ c.phase = .absorbing ∧
        c.cfg = s.ctx.cfg ∧
        (s.ctx.cfg = true →
          exec (.init s.ctx.cap.toNat) { s with seq := .run (.init s.ctx.cap.toNat) 0 } =
            .next { s with seq := .idle, ctx := c }))

/-- R126: CTX_SAVE, from its check to its finish step: a full output queue waits; byte step `k` pushes `S[k]`, or for
`k ≥ 200` byte `k - 200` of the metadata word, least significant byte first; the context is unchanged throughout. -/
def Obligations.CtxSavePushesTheContext : Prop :=
  Claims.Encoding 0xA 0xFFFFFFFF 0x0000000A (fun _ => .ctxSave) ∧
  ∀ s : State,
    (s.seq = .idle → s.ctx.cfg = false → exec .ctxSave s = .next (Claims.failed s .nocfg 0xA 0x0000000A)) ∧
    (s.seq = .idle → s.ctx.cfg = true → exec .ctxSave s = .next { s with seq := .run .ctxSave 0 }) ∧
    (∀ k, s.seq = .run .ctxSave k → k < 204 → s.params.doutDepth ≤ s.dout.length →
      exec .ctxSave s = .next s) ∧
    (∀ k, s.seq = .run .ctxSave k → k < 200 → s.dout.length < s.params.doutDepth →
      exec .ctxSave s = .next { s with
        dout := s.dout ++ [Memory.byteAt s.ctx.S k], seq := .run .ctxSave (k + 1) }) ∧
    (∀ k, s.seq = .run .ctxSave (200 + k) → k < 4 → s.dout.length < s.params.doutDepth →
      exec .ctxSave s = .next { s with
        dout := s.dout ++ [BitVec.extractLsb' (8 * k) 8
          (0x0000000B#32 ||| s.ctx.pos.setWidth 32 <<< 8 ||| s.ctx.cap.setWidth 32 <<< 16 |||
            (BitVec.ofBool s.ctx.phase.bit).setWidth 32 <<< 27)],
        seq := .run .ctxSave (200 + k + 1) }) ∧
    (s.seq = .run .ctxSave 204 → exec .ctxSave s = .next { s with seq := .idle })

/-- R128: CTX_LOAD, from its check to its finish step: no NOCFG and no phase check; PARAM for an illegal capacity or a position
outside the rate; byte step `k` stores the oldest byte of `DIN` in `S[k]`; the finish step loads `CAP`, `POS` and
`PHASE` from the word and sets `CFG`. -/
def Obligations.CtxLoadReplacesTheContext : Prop :=
  Claims.Encoding 0xB 0xF00000FF 0x0000000B (fun w => .ctxLoad (w.extractLsb' 8 8).toNat (w.extractLsb' 16 11).toNat
    (if w.getLsbD 27 then .squeezing else .absorbing)) ∧
  ∀ (pos cap : Nat) (ph : Phase) (s : State), pos ≤ 255 → cap ≤ 2047 →
    (s.seq = .idle → ¬(cap % 64 = 0 ∧ cap ≤ 1536) ∨ pos ≥ (1600 - cap) / 8 →
      exec (.ctxLoad pos cap ph) s = .next (Claims.failed s .param 0xB (encode (.ctxLoad pos cap ph)))) ∧
    (s.seq = .idle → cap % 64 = 0 ∧ cap ≤ 1536 → pos < (1600 - cap) / 8 →
      exec (.ctxLoad pos cap ph) s = .next { s with seq := .run (.ctxLoad pos cap ph) 0 }) ∧
    (∀ k, s.seq = .run (.ctxLoad pos cap ph) k → k < 200 → s.din = [] →
      exec (.ctxLoad pos cap ph) s = .next s) ∧
    (∀ k b rest, s.seq = .run (.ctxLoad pos cap ph) k → k < 200 → s.din = b :: rest →
      exec (.ctxLoad pos cap ph) s = .next { s with
        din := rest, seq := .run (.ctxLoad pos cap ph) (k + 1),
        ctx := { s.ctx with S := Memory.setByte s.ctx.S k b } }) ∧
    (s.seq = .run (.ctxLoad pos cap ph) 200 →
      ∃ c : Context, exec (.ctxLoad pos cap ph) s = .next { s with seq := .idle, ctx := c } ∧
        c.S = s.ctx.S ∧ c.cap.toNat = cap ∧ c.pos.toNat = pos ∧ c.phase = ph ∧ c.cfg = true)

/-! ### Frames -/

/-- The storing steps. A byte step of ABSORB, ENCRYPT or DECRYPT that does not end the rate window stores to `S[POS]`, one of PAD
to `S[POS + k]`, one of CTX_LOAD to `S[k]`, and to no other byte; the capacity, the phase, `CFG`, the port and every control
field are unchanged, and of ABSORB, PAD and CTX_LOAD `DOUT` too; PAD and CTX_LOAD keep `POS`. `DIN` and `SEQ` may change. -/
def Obligations.StoringStepsWriteOneByte : Prop :=
  ∀ (i : Instr) (n k addr : Nat) (s t : State), Memory.wf s.ctx.S → s.seq = .run i k → k < byteSteps i →
    ((i = .absorb n ∨ i = .encrypt n ∨ i = .decrypt n) ∧ s.ctx.pos.toNat + 1 ≠ s.ctx.rate ∧
        addr = s.ctx.pos.toNat ∨
      i = .pad n ∧ addr = s.ctx.pos.toNat + k ∨ (∃ p c ph, i = .ctxLoad p c ph) ∧ addr = k) →
    exec i s = .next t →
    (∀ a, a ≠ addr → Memory.byteAt t.ctx.S a = Memory.byteAt s.ctx.S a) ∧
      t.ctx.cap = s.ctx.cap ∧ t.ctx.phase = s.ctx.phase ∧ t.ctx.cfg = s.ctx.cfg ∧
      (i ≠ .encrypt n → i ≠ .decrypt n → t.dout = s.dout) ∧
      (i ≠ .absorb n → i ≠ .encrypt n → i ≠ .decrypt n → t.ctx.pos = s.ctx.pos) ∧
      t.perm = s.perm ∧ Claims.ControlUnchanged s t

/-- The steps that store nothing: the byte steps of SQUEEZE and SQUEEZE_XOR that do not end the rate window, those of
CTX_SAVE, the finish step of REWIND, and the finish steps of the data commands and CTX_SAVE: every byte of `S` reads as
before, the capacity and `CFG` are unchanged, and the phase too but for REWIND. -/
def Obligations.NonStoringStepsKeepTheBuffer : Prop :=
  ∀ (i : Instr) (n k : Nat) (s t : State), s.seq = .run i k →
    ((i = .squeeze n ∨ i = .squeezeXor n) ∧ k < n ∧ s.ctx.pos.toNat + 1 ≠ s.ctx.rate ∨
      i = .ctxSave ∨ i = .rewind ∨
      (i = .absorb n ∨ i = .squeeze n ∨ i = .squeezeXor n ∨ i = .encrypt n ∨ i = .decrypt n) ∧ k = n) →
    exec i s = .next t →
    (∀ a, Memory.byteAt t.ctx.S a = Memory.byteAt s.ctx.S a) ∧ t.ctx.cap = s.ctx.cap ∧
      t.ctx.cfg = s.ctx.cfg ∧ (i ≠ .rewind → t.ctx.phase = s.ctx.phase) ∧
      (i = .ctxSave → t.ctx = s.ctx ∧ t.din = s.din) ∧ t.perm = s.perm ∧ Claims.ControlUnchanged s t

/-- R90: data never meets the capacity part. No byte step of a data command or of PAD, short of a permutation, changes a byte of
`S[RATE]` to `S[199]`, from any state with the cursor in the window. -/
def Obligations.DataNeverTouchesTheCapacityPart : Prop :=
  ∀ (i : Instr) (k : Nat) (s t : State),
    (∃ n, i = .absorb n ∨ i = .squeeze n ∨ i = .squeezeXor n ∨ i = .encrypt n ∨ i = .decrypt n ∨ i = .pad n) →
    Inv s → s.seq = .run i k → k < byteSteps i →
    (s.ctx.pos.toNat + 1 ≠ s.ctx.rate ∨ ∃ n, i = .pad n) → exec i s = .next t →
    ∀ a, s.ctx.rate ≤ a → Memory.byteAt t.ctx.S a = Memory.byteAt s.ctx.S a

/-! ### Who writes the context -/

/-- R19, R94: `CAP` changes only in the finish step of INIT or CTX_LOAD, or by reset; and what INIT and CTX_LOAD write in a run
is a legal capacity. -/
def Obligations.OnlyInitAndLoadChangeTheCapacity : Prop :=
  ∀ s t : State, Inv s → step s = .next t → t.ctx.cap ≠ s.ctx.cap →
    (Claims.CoreTurn s ∧ legalCap t.ctx.cap.toNat = true ∧
      ((∃ c, s.seq = .run (.init c) 0) ∨ (∃ p c ph, s.seq = .run (.ctxLoad p c ph) 200))) ∨
    Claims.HostResets s

/-- R22, R23: `PHASE` becomes *squeezing* only by the finish step of PAD or CTX_LOAD; it becomes *absorbing* only by that of
REWIND, FORGET, INIT or CTX_LOAD, or by reset; `CFG` is set only by the finish step of INIT or CTX_LOAD, and cleared by
reset alone. -/
def Obligations.WhoWritesPhaseAndConfigured : Prop :=
  ∀ s t : State, step s = .next t →
    (s.ctx.phase = .absorbing → t.ctx.phase = .squeezing → Claims.CoreTurn s ∧
      ((∃ n k, s.seq = .run (.pad n) k ∧ n ≤ k ∧ (Inv s → k = n)) ∨
        (∃ p c k, s.seq = .run (.ctxLoad p c .squeezing) k ∧ 200 ≤ k ∧ (Inv s → k = 200)))) ∧
    (s.ctx.phase = .squeezing → t.ctx.phase = .absorbing →
      Claims.HostResets s ∨ Claims.CoreTurn s ∧
        ((∃ k, (s.seq = .run .rewind k ∨ s.seq = .run .forget k) ∧ (Inv s → k = 0)) ∨
          Claims.InitOrLoadFinishes s)) ∧
    (s.ctx.cfg = false → t.ctx.cfg = true → Claims.CoreTurn s ∧ Claims.InitOrLoadFinishes s) ∧
    (s.ctx.cfg = true → t.ctx.cfg = false → Claims.HostResets s)

/-! ### The register port and the host's steps -/

/-- R33, R37: STATUS and CONFIG, read while the core is not busy, show each field in its place. -/
def Obligations.StatusAndConfigShowEveryField : Prop :=
  ∀ (s : State) (off : BitVec 8), s.seq = .idle →
    let v := s.regReadWord off
    (off &&& 0xFC = 0x04 →
      v.getLsbD 0 = s.ctx.cfg ∧ v.getLsbD 1 = decide (s.ctx.phase = .squeezing) ∧ v.getLsbD 2 = false ∧
        v.getLsbD 3 = s.err ∧ v.getLsbD 4 = decide (s.cmdq = []) ∧ v.getLsbD 5 = decide (s.din = []) ∧
        v.getLsbD 6 = decide (s.dout = []) ∧ v.getLsbD 7 = (s.err && s.ie) ∧
        v.extractLsb' 8 8 = s.ctx.pos ∧
        (v.extractLsb' 16 8).toNat = (if s.ctx.cfg then s.ctx.rate else 0) ∧ v.extractLsb' 24 8 = 0) ∧
    (off &&& 0xFC = 0x08 →
      v.extractLsb' 0 11 = (if s.ctx.cfg then s.ctx.cap else 0) ∧ v.extractLsb' 11 5 = 0 ∧
        (v.extractLsb' 16 8).toNat = (if s.ctx.cfg then s.ctx.rate else 0) ∧ v.extractLsb' 24 8 = 0x01)

/-- R36: STATUS and CONFIG, read while the core is busy: BUSY, ERR, the queue bits, IRQ, REV and the reserved bits are exact;
the context fields are the model's free value, of which nothing is known. -/
def Obligations.BusyReadsAreExactOutsideTheContext : Prop :=
  ∀ (s : State) (off : BitVec 8) (i : Instr) (k : Nat), s.seq = .run i k →
    (off &&& 0xFC = 0x04 →
      let v := s.regReadWord off
      v.getLsbD 2 = true ∧ v.getLsbD 3 = s.err ∧ v.getLsbD 4 = decide (s.cmdq = []) ∧
        v.getLsbD 5 = decide (s.din = []) ∧ v.getLsbD 6 = decide (s.dout = []) ∧
        v.getLsbD 7 = (s.err && s.ie) ∧ v.extractLsb' 24 8 = 0) ∧
    (off &&& 0xFC = 0x08 →
      let v := s.regReadWord off
      v.extractLsb' 11 5 = 0 ∧ v.extractLsb' 24 8 = 0x01)

/-- R38, R39, R157: ERRSTAT and ERRCMD read the error record, in every state; a write of 1 to ERRSTAT bit 0 clears ERR, CODE, EOP
and ERRCMD in one step, and a write of 0 there has no effect. -/
def Obligations.ErrstatReadsAndClearsTheRecord : Prop :=
  (∀ (s : State) (off : BitVec 8), off &&& 0xFC = 0x0C →
    let v := s.regReadWord off
    v.getLsbD 0 = s.err ∧ v.extractLsb' 1 3 = 0 ∧ (v.extractLsb' 4 4).toNat ≤ 4 ∧
      v.extractLsb' 4 4 = (match s.code with
        | .none => 0 | .illegal => 1 | .param => 2 | .nocfg => 3 | .phase => 4) ∧
      v.extractLsb' 8 4 = s.eop ∧ v.extractLsb' 12 20 = 0) ∧
  (∀ (s : State) (off : BitVec 8), off &&& 0xFC = 0x10 → s.regReadWord off = s.errcmd) ∧
  (∀ (s : State) (off : BitVec 8) (v : Word) (hs : List HostStep) (ts : List Agent), off &&& 0xFC = 0x0C →
    s.rst = false → s.turns = .host :: ts → s.host = .regWrite off v :: hs →
    step s = .next (if v.getLsbD 0 then
      { s with turns := ts, host := hs, err := false, code := .none, eop := 0, errcmd := 0 }
      else { s with turns := ts, host := hs }))

/-- R28, R31, R32: CTRL reads STRICT and IE, all other bits 0; a write sets those two from its bits 0 and 1, ignores the reserved
bits, and flushes the queues named by bits 8 to 10 when `SEQ = Idle`, none while a command runs; no context field and
no error field changes. -/
def Obligations.CtrlSetsModesAndFlushes : Prop :=
  (∀ (s : State) (off : BitVec 8), off &&& 0xFC = 0x00 →
    let v := s.regReadWord off
    v.getLsbD 0 = s.strict ∧ v.getLsbD 1 = s.ie ∧ v.extractLsb' 2 30 = 0) ∧
  (∀ (s : State) (off : BitVec 8) (v : Word) (hs : List HostStep) (ts : List Agent), off &&& 0xFC = 0x00 →
    s.rst = false → s.turns = .host :: ts → s.host = .regWrite off v :: hs →
    (s.seq = .idle → step s = .next { s with
      turns := ts, host := hs, strict := v.getLsbD 0, ie := v.getLsbD 1,
      cmdq := (if v.getLsbD 8 then [] else s.cmdq), din := (if v.getLsbD 9 then [] else s.din),
      dout := (if v.getLsbD 10 then [] else s.dout) }) ∧
    (∀ i k, s.seq = .run i k → step s = .next { s with
      turns := ts, host := hs, strict := v.getLsbD 0, ie := v.getLsbD 1 }))

/-- R40, R53: no register read changes the hardware, the host receives the word and that is all; an offset from 0x14 to 0xFF
reads 0; and a write to one, or to the read-only STATUS, CONFIG and ERRCMD, is ignored. -/
def Obligations.OtherAccessesChangeNothing : Prop :=
  ∀ (s : State) (off : BitVec 8) (v : Word) (hs : List HostStep) (ts : List Agent), s.turns = .host :: ts →
    (s.host = .regRead off :: hs →
      ∃ t, step s = .next t ∧ t.reads = s.reads ++ [s.regReadWord off] ∧ t.host = hs ∧
        Claims.SameHardware s t) ∧
    (0x14 ≤ off.toNat → s.regReadWord off = 0) ∧
    (s.host = .regWrite off v :: hs →
      (0x14 ≤ off.toNat ∨ off &&& 0xFC = 0x04 ∨ off &&& 0xFC = 0x08 ∨ off &&& 0xFC = 0x10) →
      step s = .next { s with turns := ts, host := hs })

/-- R160: `irq = ERRSTAT.ERR & CTRL.IE`: STATUS.IRQ reads it; it is 0 after reset; it rises in the step that raises an error
when IE = 1; it falls when the error is cleared and when IE is written 0; and setting IE with an error held raises it;
and nothing else moves it but reset. -/
def Obligations.IrqFollowsErrorAndEnable : Prop :=
  (∀ s : State, s.irq = (s.err && s.ie) ∧ s.statusWord.getLsbD 7 = s.irq) ∧ State.reset.irq = false ∧
  (∀ s t : State, step s = .next t → s.err = false → t.err = true → s.ie = true → t.irq = true) ∧
  (∀ (s : State) (off : BitVec 8) (v : Word) (hs : List HostStep) (ts : List Agent), s.rst = false →
    s.turns = .host :: ts → s.host = .regWrite off v :: hs →
    ∃ t, step s = .next t ∧ (portOffset off = 0x00 → t.irq = (s.err && v.getLsbD 1)) ∧
      (portOffset off = 0x0C → v.getLsbD 0 = true → t.irq = false)) ∧
  (∀ s t : State, step s = .next t → s.irq = false → t.irq = true →
    (Claims.CoreTurn s ∧ s.ie = true ∧ s.seq = .idle ∧
        ∃ w rest, s.cmdq = w :: rest ∧ checkWord s.strict s.ctx w ≠ .none) ∨
      (s.err = true ∧ ∃ off v, Claims.HostWrites s off v ∧ portOffset off = 0x00 ∧ v.getLsbD 1 = true)) ∧
  (∀ s t : State, step s = .next t → s.irq = true → t.irq = false →
    (∃ off v, Claims.HostWrites s off v ∧
      (portOffset off = 0x0C ∧ v.getLsbD 0 = true ∨ portOffset off = 0x00 ∧ v.getLsbD 1 = false)) ∨
      Claims.HostResets s)

/-- R25, R96: a push is accepted exactly when its queue has room and goes to its end; a pop takes the oldest byte of `DOUT`;
a host step that is not enabled leaves everything as it is, the host waiting with it. -/
def Obligations.QueuesAreBoundedFirstInFirstOut : Prop :=
  ∀ (s : State) (v : Word) (b : Byte) (hs : List HostStep) (ts : List Agent), s.rst = false →
    s.turns = .host :: ts →
    (s.host = .pushCmd v :: hs →
      step s = .next (if s.cmdq.length < s.params.cmdqDepth then
        { s with turns := ts, host := hs, cmdq := s.cmdq ++ [v] } else { s with turns := ts })) ∧
    (s.host = .pushDin b :: hs →
      step s = .next (if s.din.length < s.params.dinDepth then
        { s with turns := ts, host := hs, din := s.din ++ [b] } else { s with turns := ts })) ∧
    (s.host = .popDout :: hs →
      step s = .next (match s.dout with
        | [] => { s with turns := ts }
        | o :: rest => { s with turns := ts, host := hs, dout := rest, popped := s.popped ++ [o] }))

/-- R162: the host's own steps raise no error and stop nothing: a turn of the host ends in a next state with `ERR` not raised,
from any state. Beside it, of the model's own fields (assumption logs 2 and 6): no step of any agent changes a design
parameter or takes back what the host has received. -/
def Obligations.HostStepsRaiseNoError : Prop :=
  (∀ (s : State) (ts : List Agent), s.turns = .host :: ts →
    ∃ t, step s = .next t ∧ (t.err = true → s.err = true)) ∧
  (∀ s t : State, step s = .next t →
    t.params = s.params ∧ (∃ l, t.popped = s.popped ++ l) ∧ (∃ l, t.reads = s.reads ++ l))

/-! ### Reset -/

/-- R171, R41: the reset action gives every piece of the hardware's state its reset value, from any state; no state survives. -/
def Obligations.ResetRestoresEveryField : Prop :=
  ∀ (s : State) (hs : List HostStep) (ts : List Agent), s.turns = .host :: ts → s.host = .reset :: hs →
    ∃ t, step s = .next t ∧ (∀ a, Memory.byteAt t.ctx.S a = 0x00) ∧ t.ctx.cap = 0 ∧ t.ctx.pos = 0 ∧
      t.ctx.phase = .absorbing ∧ t.ctx.cfg = false ∧ t.seq = .idle ∧ t.cmdq = [] ∧ t.din = [] ∧ t.dout = [] ∧
      t.ctrlWord = 0 ∧ t.errstatWord = 0 ∧ t.errcmd = 0 ∧ t.statusWord = 0x00000070 ∧
      t.configWord = 0x01000000 ∧ t.irq = false ∧ t.rst = false

/-- From R170, R171 and assumption log 10 (the step that asserts `rst` gives every piece its reset value at once): while `rst`
is asserted the core takes no step, pushes and pops are not accepted, register writes are ignored and every
register reads its reset value; asserting it abandons a running command and discards every queue. -/
def Obligations.AssertedResetHoldsEverything : Prop :=
  (∀ s : State, s.rst = true → coreTurn s = .next s) ∧
  (∀ (s : State) (v : Word) (b : Byte) (off : BitVec 8), s.rst = true →
    hostAction (.pushCmd v) s = none ∧ hostAction (.pushDin b) s = none ∧ hostAction .popDout s = none ∧
      hostAction (.regWrite off v) s = some s) ∧
  (∀ (s : State) (off : BitVec 8), Inv s → s.rst = true → s.regReadWord off = State.reset.regReadWord off) ∧
  (∀ s : State, ∃ t, hostAction (.setRst true) s = some t ∧ t.rst = true ∧ t.seq = .idle ∧ t.cmdq = [] ∧
    t.din = [] ∧ t.dout = [] ∧ t.ctx = State.reset.ctx)

/-! ### The buffer and the permutation -/

/-- R44: bit `j` of byte `S[8*(x+5*y)+k]` is bit `8*k+j` of lane `A[x][y]`, on the way into the permutation and on the way
out of it. -/
def Obligations.LanesAreLittleEndian : Prop :=
  ∀ x y k j : Nat, x < 5 → y < 5 → k < 8 → j < 8 →
    (∀ S : Memory, (lane (lanesOfBytes (Memory.toBytes S)) x y).getLsbD (8 * k + j) =
      (Memory.byteAt S (8 * (x + 5 * y) + k)).getLsbD j) ∧
    (∀ A : Lanes, (Memory.byteAt (Memory.ofBytes (bytesOfLanes A)) (8 * (x + 5 * y) + k)).getLsbD j =
      (lane A x y).getLsbD (8 * k + j))

/-- R137: the two forms of pi agree: `A'[y][(2*x + 3*y) mod 5] = A[x][y]`. -/
def Obligations.PiMovesLanesByItsFirstForm : Prop :=
  ∀ (A : Lanes) (x y : Nat), x < 5 → y < 5 → lane (pi A) y ((2 * x + 3 * y) % 5) = lane A x y

/-- R136, R140: the offsets of rho are those of their generating rule, started at `(x, y) = (1, 0)`, and the round constants those
of the LFSR with polynomial `x^8 + x^6 + x^5 + x^4 + 1`. -/
def Obligations.PermutationTablesFollowTheirRules : Prop :=
  (rhoOffsets.length = 25 ∧ rhoOffsets.getD 0 0 = 0 ∧
    ∀ t, t < 24 →
      let xy := (fun p : Nat × Nat => (p.2, (2 * p.1 + 3 * p.2) % 5))^[t] (1, 0)
      rhoOffsets.getD (xy.1 + 5 * xy.2) 0 = ((t + 1) * (t + 2) / 2) % 64) ∧
  roundConstants.length = 24 ∧
    ∀ ir, ir < 24 → ∀ b, b < 64 →
      (roundConstants.getD ir 0).getLsbD b =
        (List.range 7).any fun j =>
          decide (b = 2 ^ j - 1) &&
            ((fun v : Nat => if v < 128 then 2 * v else (2 * v) ^^^ 0x171)^[(j + 7 * ir) % 255] 1).testBit 0

/-- R141: `KeccakF` is a bijection on 200-byte strings: no two have the same image. -/
def Obligations.KeccakIsInjective : Prop :=
  ∀ bs bs' : List Byte, bs.length = 200 → bs'.length = 200 → keccakBytes bs = keccakBytes bs' → bs = bs'

/-- R142: bit `i` of the permutation bus is bit `i mod 8` of state byte `i div 8`, and the bus gives the buffer's bytes back. -/
def Obligations.BusCarriesTheStateBytes : Prop :=
  ∀ S : Memory,
    (∀ i, i < 1600 → (busOfBytes (Memory.toBytes S)).getLsbD i = (Memory.byteAt S (i / 8)).getLsbD (i % 8)) ∧
    bytesOfBus (busOfBytes (Memory.toBytes S)) = Memory.toBytes S

/-- R142, R143: a command that calls `Permute()` over the port: when its step has raised `perm_req` and is waiting, everything but
the port is as before the step, `SEQ` included. -/
def Obligations.PermutationRequestLeavesTheStepPending : Prop :=
  ∀ (s t : State) (i : Instr) (k : Nat), Inv s → s.seq = .run i k → exec i s = .next t → t.perm.req = true →
    t = { s with perm := t.perm } ∧ t.perm.ack = s.perm.ack

/-- R142: no command-level result differs between the two placements. Once the unit has acknowledged, whatever the host did in
between, the step ends as it would with the permutation internal, with `perm_req` dropped. -/
def Obligations.ExternalPermutationGivesTheInternalResult : Prop :=
  ∀ (s : State) (i : Instr) (k : Nat), Inv s → s.seq = .run i k → s.perm.req = true → s.perm.ack = true →
    ∃ t, exec i (Claims.internally s) = .next t ∧
      exec i s = .next { t with params := s.params, perm := { s.perm with req := false, ack := false } }

/-- R142, R143: over the port a command's step completes: in the core's first turn, or, when it calls `Permute()`, in the core's
turn after the unit's answer; either way with the result of the internal placement. A byte step that waits for a byte or a
slot counts as its internal step does, both leaving the state as it is. -/
def Obligations.ExternalStepsComplete : Prop :=
  ∀ (s : State) (i : Instr) (k : Nat), Inv s → s.seq = .run i k → s.rst = false → s.perm.req = false →
    s.params.permExternal = true → s.turns = [.core, .perm, .core] →
    ∃ t p, exec i (Claims.internally s) = .next t ∧
      (step s = .next { t with params := s.params, turns := [.perm, .core] } ∨
        Host.Core.run Sys2Proof.core 3 s = .next { t with params := s.params, turns := [], perm := p } ∧
          p.req = false ∧ p.ack = false)

/-- R42: the register port cannot reach `S`, and the bytes of `S` reach the host only in the output of the squeezing commands
and CTX_SAVE: for two states that differ only in `S`, every register reads the same, and a step of INIT, ABSORB, PAD,
REWIND, FORGET or CTX_LOAD leaves two states that again differ only in `S`. -/
def Obligations.BufferShowsOnlyInCommandOutput : Prop :=
  (∀ (s : State) (m : Memory) (off : BitVec 8), (s.withS m).regReadWord off = s.regReadWord off) ∧
  (∀ (i : Instr) (s t : State) (m : Memory), s.params.permExternal = false →
    (∃ n ph p, i = .init n ∨ i = .absorb n ∨ i = .pad n ∨ i = .rewind ∨ i = .forget ∨ i = .ctxLoad p n ph) →
    exec i s = .next t → ∃ m', exec i (s.withS m) = .next (t.withS m'))

/-! ### The invariant -/

/-- The state after reset meets the invariant. -/
def Obligations.ResetMeetsTheInvariant : Prop := Inv State.reset

/-- Every step keeps the invariant, whichever agent takes it. -/
def Obligations.StepKeepsTheInvariant : Prop :=
  ∀ s t : State, Inv s → step s = .next t → Inv t

/-- From the invariant no step stops: nothing faults and nothing is refused. -/
def Obligations.InvariantStepsNeverStop : Prop :=
  ∀ s : State, Inv s → ∃ t, step s = .next t

/-! ### Whole commands -/

/-- R98, R99: a whole ABSORB with its bytes in `DIN` and the permutation internal: it ends in `len + 1` core steps with the context
that absorbing the bytes one by one gives, those bytes gone from `DIN`, and nothing else changed. -/
def Obligations.AbsorbCommandCompletes : Prop :=
  ∀ (s : State) (d rest : List Byte), Claims.CoreAlone s → s.params.permExternal = false → s.ctx.inWindow →
    s.seq = .run (.absorb d.length) 0 → s.din = d ++ rest →
    Host.Core.run Sys2Proof.core (d.length + 1) s =
      .next { s with din := rest, ctx := Context.absorbAll s.ctx d, seq := .idle }

/-- R100: a whole SQUEEZE with room in `DOUT` for its output. -/
def Obligations.SqueezeCommandCompletes : Prop :=
  ∀ (s : State) (n : Nat), Claims.CoreAlone s → s.params.permExternal = false → s.ctx.inWindow →
    s.seq = .run (.squeeze n) 0 → s.dout.length + n ≤ s.params.doutDepth →
    Host.Core.run Sys2Proof.core (n + 1) s =
      .next { s with
        dout := s.dout ++ (Context.squeezeAll n s.ctx).1, ctx := (Context.squeezeAll n s.ctx).2,
        seq := .idle }

/-- R99: a data command of `n` bytes from cursor `P0`, any of the five: it leaves the cursor at `(P0 + n) mod RATE`, and exactly
`floor((P0 + n) / RATE)` of its steps call `Permute()`; the same of the contexts absorbing and squeezing go through. -/
def Obligations.CursorAndPermutationCount : Prop :=
  (∀ (c : Context) (d : List Byte), c.inWindow →
    (Context.absorbAll c d).pos.toNat = (c.pos.toNat + d.length) % c.rate ∧
    (Context.squeezeAll d.length c).2.pos.toNat = (c.pos.toNat + d.length) % c.rate ∧
    ((List.range d.length).filter fun j =>
      decide ((Context.absorbAll c (d.take j)).pos.toNat + 1 = c.rate)).length =
        (c.pos.toNat + d.length) / c.rate) ∧
  (∀ (s : State) (i : Instr) (n : Nat),
    i = .absorb n ∨ i = .squeeze n ∨ i = .squeezeXor n ∨ i = .encrypt n ∨ i = .decrypt n →
    Claims.CoreAlone s → s.params.permExternal = false → s.ctx.inWindow → s.seq = .run i 0 →
    (i = .squeeze n ∨ n ≤ s.din.length) → (i = .absorb n ∨ s.dout.length + n ≤ s.params.doutDepth) →
    ∃ f : Nat → State, (∀ j, j ≤ n + 1 → Host.Core.run Sys2Proof.core j s = .next (f j)) ∧
      (∀ j, j ≤ n → (f j).seq = .run i j) ∧ (f (n + 1)).seq = .idle ∧
      (f (n + 1)).ctx.pos.toNat = (s.ctx.pos.toNat + n) % s.ctx.rate ∧
      ((List.range (n + 1)).filter fun j => Claims.permutes (effectOf i j (f j))).length =
        (s.ctx.pos.toNat + n) / s.ctx.rate)

/-- R104: chunk independence of absorption. The parts of a byte string absorbed one command after another leave the same state
as one ABSORB of the whole, and both runs end. -/
def Obligations.AbsorbIsChunkIndependent : Prop :=
  ∀ (s : State) (parts : List (List Byte)) (rest : List Byte), Claims.ReadyAlone s → s.ctx.cfg = true →
    s.ctx.inWindow → ¬(s.strict = true ∧ s.ctx.phase = .squeezing) → s.cmdq = [] →
    s.din = parts.flatten ++ rest → parts.flatten.length ≤ 16777215 →
    ∃ t, Host.Core.run Sys2Proof.core (parts.flatten.length + 2)
        { s with cmdq := [encode (.absorb parts.flatten.length)] } = .next t ∧
      Host.Core.run Sys2Proof.core (parts.flatten.length + 2 * parts.length)
        { s with cmdq := parts.map fun p => encode (.absorb p.length) } = .next t

/-- R105: chunk independence of squeezing, for SQUEEZE in any number of parts, and for SQUEEZE_XOR, ENCRYPT and DECRYPT with
their input split the same way: the same output, the same context, and both runs end. -/
def Obligations.SqueezeIsChunkIndependent : Prop :=
  (∀ (s : State) (parts : List Nat), Claims.ReadyAlone s → s.ctx.cfg = true → s.ctx.inWindow →
    ¬(s.strict = true ∧ s.ctx.phase = .absorbing) → s.cmdq = [] →
    s.dout.length + parts.sum ≤ s.params.doutDepth → parts.sum ≤ 16777215 →
    ∃ t, Host.Core.run Sys2Proof.core (parts.sum + 2) { s with cmdq := [encode (.squeeze parts.sum)] } =
        .next t ∧
      Host.Core.run Sys2Proof.core (parts.sum + 2 * parts.length)
        { s with cmdq := parts.map fun n => encode (.squeeze n) } = .next t) ∧
  (∀ (c : Nat → Instr) (s : State) (parts : List (List Byte)) (rest : List Byte),
    c = .squeezeXor ∨ c = .encrypt ∨ c = .decrypt →
    Claims.ReadyAlone s → s.ctx.cfg = true → s.ctx.inWindow → ¬(s.strict = true ∧ s.ctx.phase = .absorbing) →
    s.cmdq = [] → s.din = parts.flatten ++ rest → s.dout.length + parts.flatten.length ≤ s.params.doutDepth →
    parts.flatten.length ≤ 16777215 →
    ∃ t, Host.Core.run Sys2Proof.core (parts.flatten.length + 2)
        { s with cmdq := [encode (c parts.flatten.length)] } = .next t ∧
      Host.Core.run Sys2Proof.core (parts.flatten.length + 2 * parts.length)
        { s with cmdq := parts.map fun p => encode (c p.length) } = .next t)

/-- R103: SQUEEZE_XOR leaves the context SQUEEZE of the same length would, and its output is the bytewise XOR of its input
with SQUEEZE's output. -/
def Obligations.SqueezeXorIsInputXorSqueeze : Prop :=
  ∀ (s : State) (d rest : List Byte), Claims.CoreAlone s → s.params.permExternal = false → s.ctx.inWindow →
    s.din = d ++ rest → s.dout.length + d.length ≤ s.params.doutDepth →
    ∃ (t : State) (o : List Byte), Host.Core.run Sys2Proof.core (d.length + 1) { s with seq := .run (.squeeze d.length) 0 } =
        .next { t with dout := s.dout ++ o } ∧ t.din = s.din ∧ o.length = d.length ∧
      Host.Core.run Sys2Proof.core (d.length + 1) { s with seq := .run (.squeezeXor d.length) 0 } =
        .next { t with dout := s.dout ++ List.zipWith (· ^^^ ·) d o, din := rest }

/-- R108: ENCRYPT of a byte string leaves exactly the context ABSORB of it would; the only difference is that it outputs a byte for
each; the bytes are only counted here. -/
def Obligations.EncryptLeavesTheContextOfAbsorb : Prop :=
  ∀ (s : State) (d rest : List Byte), Claims.CoreAlone s → s.params.permExternal = false → s.ctx.inWindow →
    s.din = d ++ rest → s.dout.length + d.length ≤ s.params.doutDepth →
    ∃ (t : State) (o : List Byte), Host.Core.run Sys2Proof.core (d.length + 1) { s with seq := .run (.absorb d.length) 0 } = .next t ∧
      o.length = d.length ∧
      Host.Core.run Sys2Proof.core (d.length + 1) { s with seq := .run (.encrypt d.length) 0 } =
        .next { t with dout := s.dout ++ o }

/-- R110: round trip. What ENCRYPT outputs from a context, DECRYPT from an equal context turns back into the plaintext, and both
end in the same context. -/
def Obligations.DecryptUndoesEncrypt : Prop :=
  ∀ (s : State) (p rest : List Byte), Claims.CoreAlone s → s.params.permExternal = false → s.ctx.inWindow →
    s.seq = .run (.encrypt p.length) 0 → s.din = p ++ rest → s.dout.length + p.length ≤ s.params.doutDepth →
    ∃ t c, Host.Core.run Sys2Proof.core (p.length + 1) s = .next t ∧ t.dout = s.dout ++ c ∧
      c.length = p.length ∧ t.din = rest ∧ t.seq = .idle ∧
      ∀ (s' : State) (rest' : List Byte), Claims.CoreAlone s' → s'.params.permExternal = false →
        s'.ctx = s.ctx → s'.seq = .run (.decrypt p.length) 0 → s'.din = c ++ rest' →
        s'.dout.length + p.length ≤ s'.params.doutDepth →
        ∃ t', Host.Core.run Sys2Proof.core (p.length + 1) s' = .next t' ∧ t'.dout = s'.dout ++ p ∧
          t'.ctx = t.ctx ∧ t'.din = rest' ∧ t'.seq = .idle

/-- From R126 to R128 and R130, which the spec itself derives: `copy()`, with `DOUT` empty and room in it for all of the
output, only the core moving. CTX_SAVE ends after 205 core steps with the context unchanged and 204 bytes pushed; the last four of them,
least significant byte first, are a word which any core, configured or not, with the first 200 in its `DIN`, takes as
the command that makes its context equal to the saved one. -/
def Obligations.SaveThenLoadCopiesTheContext : Prop :=
  ∀ s : State, Claims.CoreAlone s → Inv s → s.ctx.cfg = true → s.seq = .run .ctxSave 0 → s.dout = [] →
    204 ≤ s.params.doutDepth →
    ∃ t, Host.Core.run Sys2Proof.core 205 s = .next t ∧ t.ctx = s.ctx ∧ t.seq = .idle ∧
      t.dout.length = 204 ∧
      ∀ s' : State, Claims.CoreAlone s' → Memory.wf s'.ctx.S → s'.seq = .idle → s'.err = false →
        s'.cmdq = [t.dout.getD 203 0 ++ t.dout.getD 202 0 ++ t.dout.getD 201 0 ++ t.dout.getD 200 0] →
        s'.din = t.dout.take 200 →
        Host.Core.run Sys2Proof.core 202 s' = .next { s' with ctx := s.ctx, cmdq := [], din := [] }

/-- R97, R185: waiting, being stuck, and ending are three things. A command that lacks a byte, a slot or an acknowledgement
waits; it is stuck when no coming host step provides the byte or the slot, and hung when the unit never acknowledges, and
then stays so in every order of turns; it is not stuck while the next host step provides what it waits for; and no waiting,
stuck or hung state is a clean or a halted end. Every state that a run of a program comes to meets the invariant, `rst`
released. -/
def Obligations.StuckIsWaitingForEverAndNoEnd : Prop :=
  (∀ (s : State) (i : Instr) (k : Nat), s.rst = false → s.seq = .run i k → k < byteSteps i →
    (s.din = [] ∧ ((∃ n, i = .absorb n ∨ i = .pad n) ∨ ∃ p c ph, i = .ctxLoad p c ph) ∨
      s.params.doutDepth ≤ s.dout.length ∧ ((∃ n, i = .squeeze n) ∨ i = .ctxSave) ∨
      (s.din = [] ∨ s.params.doutDepth ≤ s.dout.length) ∧
        (∃ n, i = .squeezeXor n ∨ i = .encrypt n ∨ i = .decrypt n)) →
    CoreWaits s) ∧
  (∀ s : State, Inv s → s.perm.req = true → s.perm.ack = false → CoreWaits s) ∧
  (∀ (s : State) (i : Instr) (k : Nat), s.rst = false → s.seq = .run i k → k < byteSteps i →
    HostStep.reset ∉ s.host → HostStep.setRst true ∉ s.host →
    (s.din = [] ∧ (∀ b, HostStep.pushDin b ∉ s.host) ∧
        ((∃ n, i = .absorb n ∨ i = .pad n ∨ i = .squeezeXor n ∨ i = .encrypt n ∨ i = .decrypt n) ∨
          ∃ p c ph, i = .ctxLoad p c ph) ∨
      s.params.doutDepth ≤ s.dout.length ∧ HostStep.popDout ∉ s.host ∧
        ((∃ n, i = .squeeze n ∨ i = .squeezeXor n ∨ i = .encrypt n ∨ i = .decrypt n) ∨ i = .ctxSave)) →
    CoreStuck s) ∧
  (∀ s : State, Inv s → s.perm.req = true → s.perm.ack = false →
    HostStep.reset ∉ s.host → HostStep.setRst true ∉ s.host → HungOnPermutation s) ∧
  (∀ (s : State) (i : Instr) (k : Nat) (hs : List HostStep), Inv s → s.seq = .run i k → k < byteSteps i →
    (s.din = [] ∧ (∃ b, s.host = .pushDin b :: hs) ∧
        ((∃ n, i = .absorb n ∨ i = .pad n) ∨ ∃ p c ph, i = .ctxLoad p c ph) ∨
      s.params.doutDepth ≤ s.dout.length ∧ s.host = .popDout :: hs ∧ ((∃ n, i = .squeeze n) ∨ i = .ctxSave)) →
    ¬CoreStuck s) ∧
  (∀ s : State, CoreWaits s ∨ CoreStuck s ∨ HungOnPermutation s → ¬EndedCleanly s ∧ ¬EndedHalted s) ∧
  (∀ (p : Program) (launch s : State), p.Run launch s → Inv s ∧ s.rst = false)

/-- R76, R77: an assembler rejects a command whose operand does not fit its field, takes every other one to the word that decodes
to it, and expands each pseudo-instruction to the command and the bytes the table gives it, which are exactly the bytes
that command will take from `DIN`. -/
def Obligations.AssemblyEncodesCommandsAndData : Prop :=
  (∀ i : Instr, ¬WellFormed i → assembleLine (.command i) = none) ∧
  (∀ is : List Instr, (∀ i ∈ is, WellFormed i) →
    ∃ p, assemble (is.map .command) = some p ∧ p.data = [] ∧ p.words.map decode = is.map .ok) ∧
  (∀ (l : Line) (p : Program), (∀ i, l ≠ .command i) → (∀ v, l ≠ .word v) → (∀ bs, l ≠ .din bs) →
    assembleLine l = some p → ∃ w i, p.words = [w] ∧ decode w = .ok i ∧ p.data.length = byteSteps i) ∧
  (∀ bs : List Byte, bs.length ≤ 16777215 →
    assembleLine (.absorbData bs) = some { words := [encode (.absorb bs.length)], data := bs } ∧
    assembleLine (.squeezeXorData bs) = some { words := [encode (.squeezeXor bs.length)], data := bs } ∧
    assembleLine (.encryptData bs) = some { words := [encode (.encrypt bs.length)], data := bs } ∧
    assembleLine (.decryptData bs) = some { words := [encode (.decrypt bs.length)], data := bs }) ∧
  (∀ bs : List Byte, 16777215 < bs.length →
    assembleLine (.absorbData bs) = none ∧ assembleLine (.squeezeXorData bs) = none ∧
    assembleLine (.encryptData bs) = none ∧ assembleLine (.decryptData bs) = none) ∧
  (∀ b : Byte, assembleLine (.padByte b) = some { words := [encode (.pad 1)], data := [b] }) ∧
  assembleLine .padKeccak = assembleLine (.padByte 0x01) ∧ assembleLine .padSha3 = assembleLine (.padByte 0x06) ∧
  assembleLine .padRawShake = assembleLine (.padByte 0x07) ∧ assembleLine .padShake = assembleLine (.padByte 0x1F) ∧
  assembleLine .padWrapPlain = assembleLine (.padByte 0x02) ∧
  assembleLine .padWrapKey = assembleLine (.padByte 0x03) ∧
  assembleLine .padNaked = some { words := [encode (.pad 0)], data := [] } ∧
  (∀ (v : Word) (bs : List Byte), assembleLine (.word v) = some { words := [v], data := [] } ∧
    assembleLine (.din bs) = some { words := [], data := bs })
end

