-- ==== Sys2Proof/Laws/Decode.lean ====
section
/-! SUPPORT. How a word finds its row of the opcode map: the opcode field decides the row, so a row that matches is the
row the decoder takes. -/

namespace Sys2Proof

/-- Every mask includes the whole OP field (30_encoding.md R72). -/
theorem mask_opcode {r : OpRow} (hr : r ∈ opcodeMap) : r.mask.extractLsb' 0 4 = 0xF#4 := by
  revert r
  simp only [opcodeMap, List.forall_mem_cons]
  decide

/-- The opcode values of the rows differ (R72). -/
theorem pattern_opcodes_nodup : (opcodeMap.map fun r => r.pattern.extractLsb' 0 4).Nodup := by
  decide

theorem matches_iff (r : OpRow) (w : Word) : r.matches w = true ↔ w &&& r.mask = r.pattern := by
  simp [OpRow.matches]

/-- A word that matches a row has that row's opcode. -/
theorem matches_opcode {r : OpRow} (hr : r ∈ opcodeMap) {w : Word} (h : r.matches w = true) :
    w.extractLsb' 0 4 = r.pattern.extractLsb' 0 4 := by
  rw [← (matches_iff r w).mp h, BitVec.extractLsb'_and, mask_opcode hr]
  ext i hi
  have : i = 0 ∨ i = 1 ∨ i = 2 ∨ i = 3 := by omega
  rcases this with rfl | rfl | rfl | rfl <;> simp

/-- No word matches two rows. -/
theorem matches_unique {r r' : OpRow} (hr : r ∈ opcodeMap) (hr' : r' ∈ opcodeMap) {w : Word}
    (h : r.matches w = true) (h' : r'.matches w = true) : r = r' :=
  List.inj_on_of_nodup_map pattern_opcodes_nodup hr hr' ((matches_opcode hr h).symm.trans (matches_opcode hr' h'))

/-- A row that matches is the row the decoder takes. -/
theorem decode_of_matches {r : OpRow} (hr : r ∈ opcodeMap) {w : Word} (h : r.matches w = true) :
    decode w = .ok (r.operands w) := by
  unfold decode
  cases hf : opcodeMap.find? (fun r => r.matches w) with
  | none => exact absurd h (by simpa using List.find?_eq_none.mp hf r hr)
  | some r' =>
    have hm : r'.matches w = true := List.find?_some (p := fun r => OpRow.matches r w) hf
    rw [matches_unique hr (List.mem_of_find?_eq_some hf) h hm]

/-- What decodes matches a row and takes its operands from it. -/
theorem matches_of_decode {w : Word} {i : Instr} (h : decode w = .ok i) :
    ∃ r ∈ opcodeMap, r.matches w = true ∧ i = r.operands w := by
  unfold decode at h
  split at h
  · rename_i r hf
    exact ⟨r, List.mem_of_find?_eq_some hf, List.find?_some (p := fun r => OpRow.matches r w) hf,
      (Except.ok.inj h).symm⟩
  · cases h

/-- A word that matches no row is rejected. -/
theorem decode_error_iff (w : Word) :
    (∃ e, decode w = .error e) ↔ ∀ r ∈ opcodeMap, r.matches w = false := by
  constructor
  · rintro ⟨e, he⟩ r hr
    by_contra hc
    rw [decode_of_matches hr (by simpa using hc)] at he
    cases he
  · intro h
    unfold decode
    rw [List.find?_eq_none.mpr (by simpa using h)]
    exact ⟨_, rfl⟩

/-- A field of at most 32 bits is below `2 ^ len`. -/
theorem field_lt (w : Word) (lo len : Nat) : field w lo len < 2 ^ len := BitVec.isLt _

/-- A field put back into a bit vector of its width. -/
@[simp] theorem ofNat_field (w : Word) (lo len : Nat) :
    BitVec.ofNat len (field w lo len) = w.extractLsb' lo len :=
  (BitVec.ofNat_toNat ..).trans (BitVec.setWidth_eq _)

/-- Bit `j` of a placed field. -/
theorem getLsbD_place {n : Nat} (v : BitVec n) (lo j : Nat) :
    (place v lo).getLsbD j = (decide (j < 32) && decide (lo ≤ j) && v.getLsbD (j - lo)) := by
  rw [place, BitVec.getLsbD_shiftLeft, BitVec.getLsbD_setWidth]
  by_cases h1 : j < 32
  · by_cases h2 : lo ≤ j
    · simp [h1, h2, Nat.not_lt.mpr h2, show j - lo < 32 by omega]
    · simp [h2, Nat.lt_of_not_le h2]
  · simp [h1]

@[simp] theorem phaseOfBit_bit (p : Phase) : phaseOfBit p.bit = p := by cases p <;> rfl

@[simp] theorem bit_phaseOfBit (b : Bool) : (phaseOfBit b).bit = b := by cases b <;> rfl

end Sys2Proof
end

