-- ==== Sys2Proof/Laws/Memory.lean ====
section
/-! SUPPORT. What the operations over the state buffer do: a read after a write, and that each keeps the canonical
form. -/

namespace Sys2Proof.Machine

@[simp] theorem byteAt_nil (a : Nat) : Memory.byteAt [] a = 0 := rfl

theorem byteAt_cons (b : Nat) (v : Byte) (m : Memory) (a : Nat) :
    Memory.byteAt ((b, v) :: m) a = if a = b then v else Memory.byteAt m a := rfl

/-- Below every listed address nothing is listed. -/
theorem byteAt_of_lt (m : Memory) (a : Nat) (h : ∀ c ∈ m, a < c.1) : Memory.byteAt m a = 0 := by
  induction m with
  | nil => rfl
  | cons c m ih =>
    have hc := h c (List.mem_cons_self ..)
    rw [show c = (c.1, c.2) from rfl, byteAt_cons, if_neg (by omega)]
    exact ih fun d hd => h d (List.mem_cons_of_mem _ hd)

/-- A byte put before a list that starts above it. -/
theorem byteAt_cellFor_append (a : Nat) (v : Byte) (m : Memory) (h : ∀ c ∈ m, a < c.1) (x : Nat) :
    Memory.byteAt (cellFor a v ++ m) x = if x = a then v else Memory.byteAt m x := by
  unfold cellFor
  split
  · rename_i hv
    split
    · rename_i hx
      rw [hx, List.nil_append, byteAt_of_lt m a h, hv]
    · simp
  · rfl

theorem mem_cellFor {a : Nat} {v : Byte} {c : Host.Cell} (h : c ∈ cellFor a v) : c = (a, v) ∧ v ≠ 0 := by
  unfold cellFor at h
  split at h
  · cases h
  · exact ⟨List.mem_singleton.mp h, ‹_›⟩

/-- A canonical list is one cell below a canonical list. -/
theorem wf_cons {c : Host.Cell} {m : Memory} :
    Memory.wf (c :: m) ↔ (c.1 < stateBytes ∧ c.2 ≠ unlistedByte) ∧ (∀ d ∈ m, c.1 < d.1) ∧ Memory.wf m := by
  simp only [Memory.wf, List.pairwise_cons, List.forall_mem_cons]
  tauto

theorem wf_cellFor_append {a : Nat} {v : Byte} {m : Memory} (ha : a < stateBytes)
    (h : ∀ c ∈ m, a < c.1) (hm : Memory.wf m) : Memory.wf (cellFor a v ++ m) := by
  unfold cellFor
  split
  · exact hm
  · exact wf_cons.mpr ⟨⟨ha, ‹_›⟩, h, hm⟩

/-- Every entry of the written list is an old one or the new one. -/
theorem mem_setByte {m : Memory} {a : Nat} {v : Byte} {c : Host.Cell}
    (h : c ∈ Memory.setByte m a v) : c ∈ m ∨ c = (a, v) ∧ v ≠ 0 := by
  induction m with
  | nil => exact Or.inr (mem_cellFor h)
  | cons d m ih =>
    obtain ⟨b, u⟩ := d
    simp only [Memory.setByte] at h
    split at h
    · rcases List.mem_append.mp h with h | h
      · exact Or.inr (mem_cellFor h)
      · exact Or.inl h
    · split at h
      · rcases List.mem_append.mp h with h | h
        · exact Or.inr (mem_cellFor h)
        · exact Or.inl (List.mem_cons_of_mem _ h)
      · rcases List.mem_cons.mp h with h | h
        · exact Or.inl (h ▸ List.mem_cons_self ..)
        · exact (ih h).imp (List.mem_cons_of_mem _) id

/-- A write to an address of `S` keeps the canonical form. -/
theorem setByte_wf {m : Memory} (hm : Memory.wf m) {a : Nat} (ha : a < stateBytes) (v : Byte) :
    Memory.wf (Memory.setByte m a v) := by
  induction m with
  | nil => simpa [Memory.setByte] using wf_cellFor_append (m := []) (v := v) ha (by simp) hm
  | cons d m ih =>
    obtain ⟨b, u⟩ := d
    obtain ⟨hb, hlt, hm'⟩ := wf_cons.mp hm
    simp only [Memory.setByte]
    split
    · rename_i hab
      refine wf_cellFor_append ha (fun c hc => ?_) hm
      rcases List.mem_cons.mp hc with rfl | hc
      · exact hab
      · exact hab.trans (hlt c hc)
    · split
      · rename_i hab
        exact wf_cellFor_append ha (fun c hc => hab ▸ hlt c hc) hm'
      · refine wf_cons.mpr ⟨hb, fun c hc => ?_, ih hm'⟩
        rcases mem_setByte hc with hc | ⟨rfl, -⟩
        · exact hlt c hc
        · show b < a
          omega

/-- A read after a write: the byte written at its address, every other byte as before. -/
theorem byteAt_setByte {m : Memory} (hm : Memory.wf m) (a : Nat) (v : Byte) (x : Nat) :
    Memory.byteAt (Memory.setByte m a v) x = if x = a then v else Memory.byteAt m x := by
  induction m with
  | nil => simpa [Memory.setByte] using byteAt_cellFor_append a v [] (by simp) x
  | cons d m ih =>
    obtain ⟨b, u⟩ := d
    obtain ⟨-, hlt, hm'⟩ := wf_cons.mp hm
    simp only [Memory.setByte]
    split
    · rename_i hab
      refine byteAt_cellFor_append a v _ (fun c hc => ?_) x
      rcases List.mem_cons.mp hc with rfl | hc
      · exact hab
      · exact hab.trans (hlt c hc)
    · split
      · rename_i hab
        rw [byteAt_cellFor_append a v m (fun c hc => hab ▸ hlt c hc), byteAt_cons, ← hab]
        split <;> rfl
      · rename_i h1 h2
        rw [byteAt_cons, byteAt_cons, ih hm']
        split
        · rw [if_neg (by omega)]
        · rfl

/-- Entries of a buffer built from address `a` on lie in the built range. -/
theorem mem_ofBytesFrom {bs : List Byte} {a : Nat} {c : Host.Cell}
    (h : c ∈ Memory.ofBytesFrom a bs) : a ≤ c.1 ∧ c.1 < a + bs.length := by
  induction bs generalizing a with
  | nil => cases h
  | cons v bs ih =>
    rcases List.mem_append.mp h with h | h
    · obtain ⟨rfl, -⟩ := mem_cellFor h
      simp
    · have := ih h
      simp only [List.length_cons]
      omega

theorem ofBytesFrom_wf {bs : List Byte} {a : Nat} (h : a + bs.length ≤ stateBytes) :
    Memory.wf (Memory.ofBytesFrom a bs) := by
  induction bs generalizing a with
  | nil => exact ⟨List.Pairwise.nil, by simp [Memory.ofBytesFrom]⟩
  | cons v bs ih =>
    simp only [List.length_cons] at h
    refine wf_cellFor_append (by omega) (fun c hc => ?_) (ih (by omega))
    have := mem_ofBytesFrom hc
    omega

/-- A buffer built from at most 200 bytes is in canonical form. -/
theorem ofBytes_wf {bs : List Byte} (h : bs.length ≤ stateBytes) : Memory.wf (Memory.ofBytes bs) :=
  ofBytesFrom_wf (by omega)

theorem byteAt_ofBytesFrom (bs : List Byte) (a x : Nat) :
    Memory.byteAt (Memory.ofBytesFrom a bs) (a + x) = bs.getD x 0 := by
  induction bs generalizing a x with
  | nil => rfl
  | cons v bs ih =>
    rw [Memory.ofBytesFrom, byteAt_cellFor_append a v _ (fun c hc => by have := mem_ofBytesFrom hc; omega)]
    cases x with
    | zero => simp
    | succ x =>
      rw [if_neg (by omega), show a + (x + 1) = (a + 1) + x by omega, ih]
      simp

/-- Byte `x` of a buffer built from its bytes. -/
@[simp] theorem byteAt_ofBytes (bs : List Byte) (x : Nat) :
    Memory.byteAt (Memory.ofBytes bs) x = bs.getD x 0 := by
  simpa [Memory.ofBytes] using byteAt_ofBytesFrom bs 0 x

@[simp] theorem length_toBytes (m : Memory) : (Memory.toBytes m).length = stateBytes := by
  simp [Memory.toBytes]

theorem getD_toBytes (m : Memory) {x : Nat} (hx : x < stateBytes) :
    (Memory.toBytes m).getD x 0 = Memory.byteAt m x := by
  simp [Memory.toBytes, hx]

@[simp] theorem length_bytesOfLanes (A : Lanes) : (bytesOfLanes A).length = stateBytes := by
  simp [bytesOfLanes]

@[simp] theorem length_keccakBytes (bs : List Byte) : (keccakBytes bs).length = stateBytes :=
  length_bytesOfLanes _

@[simp] theorem length_bytesOfBus (v : BitVec 1600) : (bytesOfBus v).length = stateBytes := by
  simp [bytesOfBus]

/-- The permuted buffer is in canonical form. -/
theorem keccakF_wf (m : Memory) : Memory.wf (keccakF m) :=
  ofBytes_wf (by simp)

/-- A buffer taken from the permutation bus is in canonical form. -/
theorem ofBus_wf (v : BitVec 1600) : Memory.wf (Memory.ofBytes (bytesOfBus v)) :=
  ofBytes_wf (by simp)

/-- A cleared buffer is in canonical form. -/
theorem zero_wf : Memory.wf Memory.zero := ⟨List.Pairwise.nil, by simp [Memory.zero]⟩

end Sys2Proof.Machine
end

