-- ==== Sys2Proof/Laws/State.lean ====
section
/-! SUPPORT. What each named update of the state does to each field: one lemma per field per update, so that no proof
unfolds a record update. -/

namespace Sys2Proof.Machine

/-! ### `State.withCtx` -/

@[simp] theorem withCtx_ctx (s : State) (c : Context) : (s.withCtx c).ctx = c := rfl
@[simp] theorem withCtx_seq (s : State) (c : Context) : (s.withCtx c).seq = s.seq := rfl
@[simp] theorem withCtx_cmdq (s : State) (c : Context) : (s.withCtx c).cmdq = s.cmdq := rfl
@[simp] theorem withCtx_din (s : State) (c : Context) : (s.withCtx c).din = s.din := rfl
@[simp] theorem withCtx_dout (s : State) (c : Context) : (s.withCtx c).dout = s.dout := rfl
@[simp] theorem withCtx_strict (s : State) (c : Context) : (s.withCtx c).strict = s.strict := rfl
@[simp] theorem withCtx_ie (s : State) (c : Context) : (s.withCtx c).ie = s.ie := rfl
@[simp] theorem withCtx_err (s : State) (c : Context) : (s.withCtx c).err = s.err := rfl
@[simp] theorem withCtx_code (s : State) (c : Context) : (s.withCtx c).code = s.code := rfl
@[simp] theorem withCtx_eop (s : State) (c : Context) : (s.withCtx c).eop = s.eop := rfl
@[simp] theorem withCtx_errcmd (s : State) (c : Context) : (s.withCtx c).errcmd = s.errcmd := rfl
@[simp] theorem withCtx_rst (s : State) (c : Context) : (s.withCtx c).rst = s.rst := rfl
@[simp] theorem withCtx_perm (s : State) (c : Context) : (s.withCtx c).perm = s.perm := rfl
@[simp] theorem withCtx_params (s : State) (c : Context) : (s.withCtx c).params = s.params := rfl
@[simp] theorem withCtx_host (s : State) (c : Context) : (s.withCtx c).host = s.host := rfl
@[simp] theorem withCtx_turns (s : State) (c : Context) : (s.withCtx c).turns = s.turns := rfl
@[simp] theorem withCtx_popped (s : State) (c : Context) : (s.withCtx c).popped = s.popped := rfl
@[simp] theorem withCtx_reads (s : State) (c : Context) : (s.withCtx c).reads = s.reads := rfl
@[simp] theorem withCtx_freeCount (s : State) (c : Context) : (s.withCtx c).freeCount = s.freeCount := rfl

/-! ### `State.withSeq` -/

@[simp] theorem withSeq_ctx (s : State) (q : Seq) : (s.withSeq q).ctx = s.ctx := rfl
@[simp] theorem withSeq_seq (s : State) (q : Seq) : (s.withSeq q).seq = q := rfl
@[simp] theorem withSeq_cmdq (s : State) (q : Seq) : (s.withSeq q).cmdq = s.cmdq := rfl
@[simp] theorem withSeq_din (s : State) (q : Seq) : (s.withSeq q).din = s.din := rfl
@[simp] theorem withSeq_dout (s : State) (q : Seq) : (s.withSeq q).dout = s.dout := rfl
@[simp] theorem withSeq_strict (s : State) (q : Seq) : (s.withSeq q).strict = s.strict := rfl
@[simp] theorem withSeq_ie (s : State) (q : Seq) : (s.withSeq q).ie = s.ie := rfl
@[simp] theorem withSeq_err (s : State) (q : Seq) : (s.withSeq q).err = s.err := rfl
@[simp] theorem withSeq_code (s : State) (q : Seq) : (s.withSeq q).code = s.code := rfl
@[simp] theorem withSeq_eop (s : State) (q : Seq) : (s.withSeq q).eop = s.eop := rfl
@[simp] theorem withSeq_errcmd (s : State) (q : Seq) : (s.withSeq q).errcmd = s.errcmd := rfl
@[simp] theorem withSeq_rst (s : State) (q : Seq) : (s.withSeq q).rst = s.rst := rfl
@[simp] theorem withSeq_perm (s : State) (q : Seq) : (s.withSeq q).perm = s.perm := rfl
@[simp] theorem withSeq_params (s : State) (q : Seq) : (s.withSeq q).params = s.params := rfl
@[simp] theorem withSeq_host (s : State) (q : Seq) : (s.withSeq q).host = s.host := rfl
@[simp] theorem withSeq_turns (s : State) (q : Seq) : (s.withSeq q).turns = s.turns := rfl
@[simp] theorem withSeq_popped (s : State) (q : Seq) : (s.withSeq q).popped = s.popped := rfl
@[simp] theorem withSeq_reads (s : State) (q : Seq) : (s.withSeq q).reads = s.reads := rfl
@[simp] theorem withSeq_freeCount (s : State) (q : Seq) : (s.withSeq q).freeCount = s.freeCount := rfl

/-! ### `State.withS` -/

@[simp] theorem withS_ctx (s : State) (m : Memory) : (s.withS m).ctx = { s.ctx with S := m } := rfl
@[simp] theorem withS_seq (s : State) (m : Memory) : (s.withS m).seq = s.seq := rfl
@[simp] theorem withS_cmdq (s : State) (m : Memory) : (s.withS m).cmdq = s.cmdq := rfl
@[simp] theorem withS_din (s : State) (m : Memory) : (s.withS m).din = s.din := rfl
@[simp] theorem withS_dout (s : State) (m : Memory) : (s.withS m).dout = s.dout := rfl
@[simp] theorem withS_strict (s : State) (m : Memory) : (s.withS m).strict = s.strict := rfl
@[simp] theorem withS_ie (s : State) (m : Memory) : (s.withS m).ie = s.ie := rfl
@[simp] theorem withS_err (s : State) (m : Memory) : (s.withS m).err = s.err := rfl
@[simp] theorem withS_code (s : State) (m : Memory) : (s.withS m).code = s.code := rfl
@[simp] theorem withS_eop (s : State) (m : Memory) : (s.withS m).eop = s.eop := rfl
@[simp] theorem withS_errcmd (s : State) (m : Memory) : (s.withS m).errcmd = s.errcmd := rfl
@[simp] theorem withS_rst (s : State) (m : Memory) : (s.withS m).rst = s.rst := rfl
@[simp] theorem withS_perm (s : State) (m : Memory) : (s.withS m).perm = s.perm := rfl
@[simp] theorem withS_params (s : State) (m : Memory) : (s.withS m).params = s.params := rfl
@[simp] theorem withS_host (s : State) (m : Memory) : (s.withS m).host = s.host := rfl
@[simp] theorem withS_turns (s : State) (m : Memory) : (s.withS m).turns = s.turns := rfl
@[simp] theorem withS_popped (s : State) (m : Memory) : (s.withS m).popped = s.popped := rfl
@[simp] theorem withS_reads (s : State) (m : Memory) : (s.withS m).reads = s.reads := rfl
@[simp] theorem withS_freeCount (s : State) (m : Memory) : (s.withS m).freeCount = s.freeCount := rfl

/-! ### `State.setStateByte` -/

@[simp] theorem setStateByte_ctx (s : State) (a : Nat) (v : Byte) : (s.setStateByte a v).ctx = { s.ctx with S := Memory.setByte s.ctx.S a v } := rfl
@[simp] theorem setStateByte_seq (s : State) (a : Nat) (v : Byte) : (s.setStateByte a v).seq = s.seq := rfl
@[simp] theorem setStateByte_cmdq (s : State) (a : Nat) (v : Byte) : (s.setStateByte a v).cmdq = s.cmdq := rfl
@[simp] theorem setStateByte_din (s : State) (a : Nat) (v : Byte) : (s.setStateByte a v).din = s.din := rfl
@[simp] theorem setStateByte_dout (s : State) (a : Nat) (v : Byte) : (s.setStateByte a v).dout = s.dout := rfl
@[simp] theorem setStateByte_strict (s : State) (a : Nat) (v : Byte) : (s.setStateByte a v).strict = s.strict := rfl
@[simp] theorem setStateByte_ie (s : State) (a : Nat) (v : Byte) : (s.setStateByte a v).ie = s.ie := rfl
@[simp] theorem setStateByte_err (s : State) (a : Nat) (v : Byte) : (s.setStateByte a v).err = s.err := rfl
@[simp] theorem setStateByte_code (s : State) (a : Nat) (v : Byte) : (s.setStateByte a v).code = s.code := rfl
@[simp] theorem setStateByte_eop (s : State) (a : Nat) (v : Byte) : (s.setStateByte a v).eop = s.eop := rfl
@[simp] theorem setStateByte_errcmd (s : State) (a : Nat) (v : Byte) : (s.setStateByte a v).errcmd = s.errcmd := rfl
@[simp] theorem setStateByte_rst (s : State) (a : Nat) (v : Byte) : (s.setStateByte a v).rst = s.rst := rfl
@[simp] theorem setStateByte_perm (s : State) (a : Nat) (v : Byte) : (s.setStateByte a v).perm = s.perm := rfl
@[simp] theorem setStateByte_params (s : State) (a : Nat) (v : Byte) : (s.setStateByte a v).params = s.params := rfl
@[simp] theorem setStateByte_host (s : State) (a : Nat) (v : Byte) : (s.setStateByte a v).host = s.host := rfl
@[simp] theorem setStateByte_turns (s : State) (a : Nat) (v : Byte) : (s.setStateByte a v).turns = s.turns := rfl
@[simp] theorem setStateByte_popped (s : State) (a : Nat) (v : Byte) : (s.setStateByte a v).popped = s.popped := rfl
@[simp] theorem setStateByte_reads (s : State) (a : Nat) (v : Byte) : (s.setStateByte a v).reads = s.reads := rfl
@[simp] theorem setStateByte_freeCount (s : State) (a : Nat) (v : Byte) : (s.setStateByte a v).freeCount = s.freeCount := rfl

/-! ### `State.pushDout` -/

@[simp] theorem pushDout_ctx (s : State) (b : Byte) : (s.pushDout b).ctx = s.ctx := rfl
@[simp] theorem pushDout_seq (s : State) (b : Byte) : (s.pushDout b).seq = s.seq := rfl
@[simp] theorem pushDout_cmdq (s : State) (b : Byte) : (s.pushDout b).cmdq = s.cmdq := rfl
@[simp] theorem pushDout_din (s : State) (b : Byte) : (s.pushDout b).din = s.din := rfl
@[simp] theorem pushDout_dout (s : State) (b : Byte) : (s.pushDout b).dout = s.dout ++ [b] := rfl
@[simp] theorem pushDout_strict (s : State) (b : Byte) : (s.pushDout b).strict = s.strict := rfl
@[simp] theorem pushDout_ie (s : State) (b : Byte) : (s.pushDout b).ie = s.ie := rfl
@[simp] theorem pushDout_err (s : State) (b : Byte) : (s.pushDout b).err = s.err := rfl
@[simp] theorem pushDout_code (s : State) (b : Byte) : (s.pushDout b).code = s.code := rfl
@[simp] theorem pushDout_eop (s : State) (b : Byte) : (s.pushDout b).eop = s.eop := rfl
@[simp] theorem pushDout_errcmd (s : State) (b : Byte) : (s.pushDout b).errcmd = s.errcmd := rfl
@[simp] theorem pushDout_rst (s : State) (b : Byte) : (s.pushDout b).rst = s.rst := rfl
@[simp] theorem pushDout_perm (s : State) (b : Byte) : (s.pushDout b).perm = s.perm := rfl
@[simp] theorem pushDout_params (s : State) (b : Byte) : (s.pushDout b).params = s.params := rfl
@[simp] theorem pushDout_host (s : State) (b : Byte) : (s.pushDout b).host = s.host := rfl
@[simp] theorem pushDout_turns (s : State) (b : Byte) : (s.pushDout b).turns = s.turns := rfl
@[simp] theorem pushDout_popped (s : State) (b : Byte) : (s.pushDout b).popped = s.popped := rfl
@[simp] theorem pushDout_reads (s : State) (b : Byte) : (s.pushDout b).reads = s.reads := rfl
@[simp] theorem pushDout_freeCount (s : State) (b : Byte) : (s.pushDout b).freeCount = s.freeCount := rfl

/-! ### `raiseError` -/

@[simp] theorem raiseError_ctx (s : State) (e : ErrCode) (w : Word) : (raiseError e w s).ctx = s.ctx := rfl
@[simp] theorem raiseError_seq (s : State) (e : ErrCode) (w : Word) : (raiseError e w s).seq = s.seq := rfl
@[simp] theorem raiseError_cmdq (s : State) (e : ErrCode) (w : Word) : (raiseError e w s).cmdq = s.cmdq := rfl
@[simp] theorem raiseError_din (s : State) (e : ErrCode) (w : Word) : (raiseError e w s).din = s.din := rfl
@[simp] theorem raiseError_dout (s : State) (e : ErrCode) (w : Word) : (raiseError e w s).dout = s.dout := rfl
@[simp] theorem raiseError_strict (s : State) (e : ErrCode) (w : Word) : (raiseError e w s).strict = s.strict := rfl
@[simp] theorem raiseError_ie (s : State) (e : ErrCode) (w : Word) : (raiseError e w s).ie = s.ie := rfl
@[simp] theorem raiseError_err (s : State) (e : ErrCode) (w : Word) : (raiseError e w s).err = true := rfl
@[simp] theorem raiseError_code (s : State) (e : ErrCode) (w : Word) : (raiseError e w s).code = e := rfl
@[simp] theorem raiseError_eop (s : State) (e : ErrCode) (w : Word) : (raiseError e w s).eop = w.extractLsb' 0 4 := rfl
@[simp] theorem raiseError_errcmd (s : State) (e : ErrCode) (w : Word) : (raiseError e w s).errcmd = w := rfl
@[simp] theorem raiseError_rst (s : State) (e : ErrCode) (w : Word) : (raiseError e w s).rst = s.rst := rfl
@[simp] theorem raiseError_perm (s : State) (e : ErrCode) (w : Word) : (raiseError e w s).perm = s.perm := rfl
@[simp] theorem raiseError_params (s : State) (e : ErrCode) (w : Word) : (raiseError e w s).params = s.params := rfl
@[simp] theorem raiseError_host (s : State) (e : ErrCode) (w : Word) : (raiseError e w s).host = s.host := rfl
@[simp] theorem raiseError_turns (s : State) (e : ErrCode) (w : Word) : (raiseError e w s).turns = s.turns := rfl
@[simp] theorem raiseError_popped (s : State) (e : ErrCode) (w : Word) : (raiseError e w s).popped = s.popped := rfl
@[simp] theorem raiseError_reads (s : State) (e : ErrCode) (w : Word) : (raiseError e w s).reads = s.reads := rfl
@[simp] theorem raiseError_freeCount (s : State) (e : ErrCode) (w : Word) : (raiseError e w s).freeCount = s.freeCount := rfl

/-! ### `clearError` -/

@[simp] theorem clearError_ctx (s : State) : (clearError s).ctx = s.ctx := rfl
@[simp] theorem clearError_seq (s : State) : (clearError s).seq = s.seq := rfl
@[simp] theorem clearError_cmdq (s : State) : (clearError s).cmdq = s.cmdq := rfl
@[simp] theorem clearError_din (s : State) : (clearError s).din = s.din := rfl
@[simp] theorem clearError_dout (s : State) : (clearError s).dout = s.dout := rfl
@[simp] theorem clearError_strict (s : State) : (clearError s).strict = s.strict := rfl
@[simp] theorem clearError_ie (s : State) : (clearError s).ie = s.ie := rfl
@[simp] theorem clearError_err (s : State) : (clearError s).err = false := rfl
@[simp] theorem clearError_code (s : State) : (clearError s).code = .none := rfl
@[simp] theorem clearError_eop (s : State) : (clearError s).eop = 0 := rfl
@[simp] theorem clearError_errcmd (s : State) : (clearError s).errcmd = 0 := rfl
@[simp] theorem clearError_rst (s : State) : (clearError s).rst = s.rst := rfl
@[simp] theorem clearError_perm (s : State) : (clearError s).perm = s.perm := rfl
@[simp] theorem clearError_params (s : State) : (clearError s).params = s.params := rfl
@[simp] theorem clearError_host (s : State) : (clearError s).host = s.host := rfl
@[simp] theorem clearError_turns (s : State) : (clearError s).turns = s.turns := rfl
@[simp] theorem clearError_popped (s : State) : (clearError s).popped = s.popped := rfl
@[simp] theorem clearError_reads (s : State) : (clearError s).reads = s.reads := rfl
@[simp] theorem clearError_freeCount (s : State) : (clearError s).freeCount = s.freeCount := rfl

/-! ### `resetCore` -/

@[simp] theorem resetCore_ctx (s : State) : (resetCore s).ctx = State.reset.ctx := rfl
@[simp] theorem resetCore_seq (s : State) : (resetCore s).seq = State.reset.seq := rfl
@[simp] theorem resetCore_cmdq (s : State) : (resetCore s).cmdq = State.reset.cmdq := rfl
@[simp] theorem resetCore_din (s : State) : (resetCore s).din = State.reset.din := rfl
@[simp] theorem resetCore_dout (s : State) : (resetCore s).dout = State.reset.dout := rfl
@[simp] theorem resetCore_strict (s : State) : (resetCore s).strict = State.reset.strict := rfl
@[simp] theorem resetCore_ie (s : State) : (resetCore s).ie = State.reset.ie := rfl
@[simp] theorem resetCore_err (s : State) : (resetCore s).err = State.reset.err := rfl
@[simp] theorem resetCore_code (s : State) : (resetCore s).code = State.reset.code := rfl
@[simp] theorem resetCore_eop (s : State) : (resetCore s).eop = State.reset.eop := rfl
@[simp] theorem resetCore_errcmd (s : State) : (resetCore s).errcmd = State.reset.errcmd := rfl
@[simp] theorem resetCore_rst (s : State) : (resetCore s).rst = State.reset.rst := rfl
@[simp] theorem resetCore_perm (s : State) : (resetCore s).perm = State.reset.perm := rfl
@[simp] theorem resetCore_params (s : State) : (resetCore s).params = s.params := rfl
@[simp] theorem resetCore_host (s : State) : (resetCore s).host = s.host := rfl
@[simp] theorem resetCore_turns (s : State) : (resetCore s).turns = s.turns := rfl
@[simp] theorem resetCore_popped (s : State) : (resetCore s).popped = s.popped := rfl
@[simp] theorem resetCore_reads (s : State) : (resetCore s).reads = s.reads := rfl
@[simp] theorem resetCore_freeCount (s : State) : (resetCore s).freeCount = s.freeCount := rfl

end Sys2Proof.Machine
end

