-- ==== Sys2Proof/Laws/Ops.lean ====
section
/-! SUPPORT. One lemma for each shared operation saying everything it can do, and `exec` in terms of them. -/

namespace Sys2Proof.Machine

/-! ### The operations a byte step is made of -/

theorem popDin_nil {s : State} (h : s.din = []) (f : Byte → State → Effect) : popDin s f = .wait := by
  simp [popDin, h]

theorem popDin_cons {s : State} {b : Byte} {rest : List Byte} (h : s.din = b :: rest)
    (f : Byte → State → Effect) : popDin s f = f b { s with din := rest } := by
  simp [popDin, h]

/-- `popDin` waits on an empty queue, else goes on with its oldest byte. -/
theorem popDin_cases (s : State) (f : Byte → State → Effect) :
    (s.din = [] ∧ popDin s f = .wait) ∨
      ∃ b rest, s.din = b :: rest ∧ popDin s f = f b { s with din := rest } := by
  cases h : s.din with
  | nil => exact .inl ⟨rfl, popDin_nil h f⟩
  | cons b rest => exact .inr ⟨b, rest, rfl, popDin_cons h f⟩

theorem doutReady_iff (s : State) : s.doutReady = true ↔ s.dout.length < s.params.doutDepth := by
  simp [State.doutReady]

theorem whenDoutReady_of_room {s : State} (h : s.dout.length < s.params.doutDepth) (e : Effect) :
    whenDoutReady s e = e := by
  simp [whenDoutReady, doutReady_iff, h]

theorem whenDoutReady_of_full {s : State} (h : s.params.doutDepth ≤ s.dout.length) (e : Effect) :
    whenDoutReady s e = .wait := by
  simp [whenDoutReady, doutReady_iff, Nat.not_lt.mpr h]

theorem whenDoutReady_cases (s : State) (e : Effect) :
    whenDoutReady s e = .wait ∨ (s.dout.length < s.params.doutDepth ∧ whenDoutReady s e = e) := by
  by_cases h : s.dout.length < s.params.doutDepth
  · exact .inr ⟨h, whenDoutReady_of_room h e⟩
  · exact .inl (whenDoutReady_of_full (Nat.not_lt.mp h) e)

theorem withStateByte_of_lt {s : State} {a : Nat} (h : a < 200) (f : Byte → Effect) :
    withStateByte s a f = f (Memory.byteAt s.ctx.S a) := if_pos h

theorem withStateByte_of_ge {s : State} {a : Nat} (h : 200 ≤ a) (f : Byte → Effect) :
    withStateByte s a f = .noByte a := if_neg (Nat.not_lt.mpr h)

theorem advance_inside {s : State} (h : s.ctx.pos.toNat + 1 ≠ s.ctx.rate) :
    advance s = .done (s.withCtx { s.ctx with pos := BitVec.ofNat 8 (s.ctx.pos.toNat + 1) }) := if_neg h

theorem advance_boundary {s : State} (h : s.ctx.pos.toNat + 1 = s.ctx.rate) :
    advance s = .permute (s.withCtx { s.ctx with pos := 0 }) := if_pos h

/-! ### The permutation -/

theorem permuteStep_internal {s : State} (h : s.params.permExternal = false) (t : State) :
    permuteStep s t = t.withS (keccakF t.ctx.S) := by
  simp [permuteStep, h]

/-- A permuting step over the port: the request, the wait, or the whole step. -/
theorem permuteStep_external {s : State} (h : s.params.permExternal = true) (t : State) :
    (s.perm.req = false ∧ permuteStep s t =
        { s with perm := { s.perm with req := true, din := busOfBytes (Memory.toBytes t.ctx.S) } }) ∨
      (s.perm.req = true ∧ s.perm.ack = false ∧ permuteStep s t = s) ∨
      (s.perm.req = true ∧ s.perm.ack = true ∧ permuteStep s t =
        { t.withS (Memory.ofBytes (bytesOfBus s.perm.dout)) with
          perm := { s.perm with req := false, ack := false } }) := by
  cases hr : s.perm.req <;> cases ha : s.perm.ack <;> simp [permuteStep, h, hr, ha]

/-! ### Commands -/

theorem runCommand_idle {s : State} (h : s.seq = .idle) (i : Instr) (byte : Nat → State → Effect)
    (finish : State → Effect) : runCommand i byte finish s = .next (issue i s) := by
  simp [runCommand, h]

theorem runCommand_run {s : State} {j : Instr} {k : Nat} (h : s.seq = .run j k) (i : Instr)
    (byte : Nat → State → Effect) (finish : State → Effect) :
    runCommand i byte finish s =
      commit s (nextSeq i k) (if k < byteSteps i then byte k s else finish s) := by
  simp only [runCommand, h, nextSeq]
  split <;> rfl

/-- From `Idle` every command's step is its issue step. -/
theorem exec_idle {s : State} (h : s.seq = .idle) (i : Instr) : exec i s = .next (issue i s) := by
  cases i <;> exact runCommand_idle h ..

/-- In `Run(w, k)` every command's step is its byte step or its finish step. -/
theorem exec_run {s : State} {j : Instr} {k : Nat} (h : s.seq = .run j k) (i : Instr) :
    exec i s = commit s (nextSeq i k) (effectOf i k s) := by
  cases i <;> exact runCommand_run h ..

/-- The issue step starts the command or raises the error of its check. -/
theorem issue_cases (i : Instr) (s : State) :
    (check s.strict s.ctx i = .none ∧ issue i s = s.withSeq (.run i 0)) ∨
      (check s.strict s.ctx i ≠ .none ∧
        issue i s = raiseError (check s.strict s.ctx i) (encode i) s) := by
  unfold issue
  split
  · exact .inl ⟨‹_›, rfl⟩
  · exact .inr ⟨‹_›, rfl⟩

/-- A check that passes has passed each of its tests. -/
theorem check_none_iff (strict : Bool) (c : Context) (i : Instr) :
    check strict c i = .none ↔
      (needsCfg i = true → c.cfg = true) ∧ ¬(strict = true ∧ phaseBad i c.phase = true) ∧
        paramsOk c i = true := by
  cases hn : needsCfg i <;> cases hc : c.cfg <;> cases strict <;> cases hp : phaseBad i c.phase <;>
    cases ho : paramsOk c i <;> simp [check, hn, hc, hp, ho]

/-! ### Rates -/

theorem rateOf_le (cap : Nat) : rateOf cap ≤ 200 := by
  unfold rateOf; omega

theorem rate_le (c : Context) : c.rate ≤ 200 := rateOf_le _

theorem legalCap_iff (c : Nat) : legalCap c = true ↔ c % 64 = 0 ∧ c ≤ 1536 := by
  simp [legalCap]

/-- A legal capacity leaves a rate of at least 8 bytes (00_scope.md R8). -/
theorem rateOf_of_legal {cap : Nat} (h : legalCap cap = true) : 8 ≤ rateOf cap := by
  have := (legalCap_iff cap).mp h
  unfold rateOf
  omega

/-- Inside the rate window the byte at the cursor exists. -/
theorem pos_lt_200 {c : Context} (h : c.inWindow) : c.pos.toNat < 200 :=
  Nat.lt_of_lt_of_le h.2 (rate_le c)

end Sys2Proof.Machine
end

