-- ==== Sys2Proof/Laws/Effects.lean ====
section
/-! SUPPORT. What a byte step or finish step of any command can do, said once: what it leaves unchanged, how it treats the
context, and when it calls for the permutation. -/

namespace Sys2Proof.Machine

/-- The step ends in `t`, or in `t` with the permutation still to be made. -/
def Effect.Reaches (e : Effect) (t : State) : Prop := e = .done t ∨ e = .permute t

/-- Every field but the context, `DIN` and `DOUT` is that of `s`. -/
structure KeepsControl (s t : State) : Prop where
  seq : t.seq = s.seq
  cmdq : t.cmdq = s.cmdq
  strict : t.strict = s.strict
  ie : t.ie = s.ie
  err : t.err = s.err
  code : t.code = s.code
  eop : t.eop = s.eop
  errcmd : t.errcmd = s.errcmd
  rst : t.rst = s.rst
  perm : t.perm = s.perm
  params : t.params = s.params
  host : t.host = s.host
  turns : t.turns = s.turns
  popped : t.popped = s.popped
  reads : t.reads = s.reads
  freeCount : t.freeCount = s.freeCount

theorem KeepsControl.refl (s : State) : KeepsControl s s := by constructor <;> rfl

theorem KeepsControl.trans {s t u : State} (h : KeepsControl s t) (h' : KeepsControl t u) : KeepsControl s u := by
  constructor <;> simp [h.1, h.2, h.3, h.4, h.5, h.6, h.7, h.8, h.9, h.10, h.11, h.12, h.13, h.14, h.15, h.16,
    h'.1, h'.2, h'.3, h'.4, h'.5, h'.6, h'.7, h'.8, h'.9, h'.10, h'.11, h'.12, h'.13, h'.14, h'.15, h'.16]

@[simp] theorem reaches_wait (t : State) : ¬Effect.Reaches .wait t := by simp [Effect.Reaches]
@[simp] theorem reaches_noByte (a : Nat) (t : State) : ¬Effect.Reaches (.noByte a) t := by simp [Effect.Reaches]
@[simp] theorem reaches_done (u t : State) : Effect.Reaches (.done u) t ↔ u = t := by simp [Effect.Reaches]
@[simp] theorem reaches_permute (u t : State) : Effect.Reaches (.permute u) t ↔ u = t := by
  simp [Effect.Reaches]

/-- `Advance()` moves the cursor to 0 at the end of the rate window and by one inside it. -/
theorem reaches_advance {s t : State} (h : (advance s).Reaches t) :
    t = s.withCtx { s.ctx with
      pos := (if s.ctx.pos.toNat + 1 = s.ctx.rate then 0 else BitVec.ofNat 8 (s.ctx.pos.toNat + 1)) } := by
  unfold advance at h
  split at h
  · rw [if_pos ‹_›]; exact (reaches_permute ..).mp h |>.symm
  · rw [if_neg ‹_›]; exact (reaches_done ..).mp h |>.symm

theorem reaches_popDin {s t : State} {f : Byte → State → Effect} (h : (popDin s f).Reaches t) :
    ∃ b rest, s.din = b :: rest ∧ (f b { s with din := rest }).Reaches t := by
  rcases popDin_cases s f with ⟨-, he⟩ | ⟨b, rest, hd, he⟩
  · simp [he] at h
  · exact ⟨b, rest, hd, he ▸ h⟩

theorem reaches_whenDoutReady {s t : State} {e : Effect} (h : (whenDoutReady s e).Reaches t) :
    s.dout.length < s.params.doutDepth ∧ e.Reaches t := by
  rcases whenDoutReady_cases s e with he | ⟨hr, he⟩
  · simp [he] at h
  · exact ⟨hr, he ▸ h⟩

theorem reaches_withStateByte {s t : State} {a : Nat} {f : Byte → Effect}
    (h : (withStateByte s a f).Reaches t) : a < 200 ∧ (f (Memory.byteAt s.ctx.S a)).Reaches t := by
  unfold withStateByte at h
  split at h
  · exact ⟨‹_›, h⟩
  · simp at h

/-- The context a byte step of a command moves to, `b` being the oldest byte of `DIN`, before any permutation. -/
def byteContext (i : Instr) (k : Nat) (b : Byte) (c : Context) : Context :=
  let p := if c.pos.toNat + 1 = c.rate then 0 else BitVec.ofNat 8 (c.pos.toNat + 1)
  match i with
  | .absorb _ => { c with S := Memory.setByte c.S c.pos.toNat (c.current ^^^ b), pos := p }
  | .squeeze _ => { c with pos := p }
  | .squeezeXor _ => { c with pos := p }
  | .encrypt _ => { c with S := Memory.setByte c.S c.pos.toNat (b ^^^ c.current), pos := p }
  | .decrypt _ => { c with S := Memory.setByte c.S c.pos.toNat (c.current ^^^ (b ^^^ c.current)), pos := p }
  | .pad _ => { c with S := Memory.setByte c.S (c.pos.toNat + k) (Memory.byteAt c.S (c.pos.toNat + k) ^^^ b) }
  | .ctxLoad _ _ _ => { c with S := Memory.setByte c.S k b }
  | .ctxSave => c
  | .init _ => c
  | .rewind => c
  | .forget => c

/-- Which commands' byte steps take a byte from `DIN` (40_sequencer.md R95). -/
def takesDin : Instr → Bool
  | .absorb _ => true
  | .squeezeXor _ => true
  | .encrypt _ => true
  | .decrypt _ => true
  | .pad _ => true
  | .ctxLoad _ _ _ => true
  | .squeeze _ => false
  | .ctxSave => false
  | .init _ => false
  | .rewind => false
  | .forget => false

/-- Which commands' byte steps push a byte to `DOUT` (R95). -/
def pushesDout : Instr → Bool
  | .squeeze _ => true
  | .squeezeXor _ => true
  | .encrypt _ => true
  | .decrypt _ => true
  | .ctxSave => true
  | .absorb _ => false
  | .pad _ => false
  | .ctxLoad _ _ _ => false
  | .init _ => false
  | .rewind => false
  | .forget => false

/-- The address of `S` a byte step reaches (R42). -/
def reachedByte (i : Instr) (k : Nat) (c : Context) : Nat :=
  match i with
  | .pad _ => c.pos.toNat + k
  | .ctxLoad _ _ _ => k
  | .ctxSave => 0
  | .absorb _ => c.pos.toNat
  | .squeeze _ => c.pos.toNat
  | .squeezeXor _ => c.pos.toNat
  | .encrypt _ => c.pos.toNat
  | .decrypt _ => c.pos.toNat
  | .init _ => 0
  | .rewind => 0
  | .forget => 0

/-- Everything a byte step can do. -/
theorem reaches_byteEffect {i : Instr} {k : Nat} {s t : State} (h : (byteEffect i k s).Reaches t) :
    KeepsControl s t ∧ reachedByte i k s.ctx < 200 ∧
      (∃ b, (takesDin i = true → s.din = b :: t.din) ∧ (takesDin i = false → t.din = s.din) ∧
        t.ctx = byteContext i k b s.ctx) ∧
      (if pushesDout i = true then s.dout.length < s.params.doutDepth ∧ ∃ o, t.dout = s.dout ++ [o]
        else t.dout = s.dout) := by
  cases i with
  | absorb n =>
    simp only [byteEffect, absorbByte] at h
    obtain ⟨b, rest, hd, h⟩ := reaches_popDin h
    obtain ⟨ha, h⟩ := reaches_withStateByte h
    rw [reaches_advance h]
    exact ⟨by constructor <;> rfl, ha, ⟨b, fun _ => hd, by simp [takesDin], rfl⟩, by simp [pushesDout]⟩
  | squeeze n =>
    simp only [byteEffect, squeezeByte] at h
    obtain ⟨hr, h⟩ := reaches_whenDoutReady h
    obtain ⟨ha, h⟩ := reaches_withStateByte h
    rw [reaches_advance h]
    exact ⟨by constructor <;> rfl, ha, ⟨0, by simp [takesDin], fun _ => rfl, rfl⟩,
      by simpa [pushesDout] using hr⟩
  | squeezeXor n =>
    simp only [byteEffect, squeezeXorByte] at h
    obtain ⟨hr, h⟩ := reaches_whenDoutReady h
    obtain ⟨b, rest, hd, h⟩ := reaches_popDin h
    obtain ⟨ha, h⟩ := reaches_withStateByte h
    rw [reaches_advance h]
    exact ⟨by constructor <;> rfl, ha, ⟨b, fun _ => hd, by simp [takesDin], rfl⟩,
      by simpa [pushesDout] using hr⟩
  | encrypt n =>
    simp only [byteEffect, encryptByte] at h
    obtain ⟨hr, h⟩ := reaches_whenDoutReady h
    obtain ⟨b, rest, hd, h⟩ := reaches_popDin h
    obtain ⟨ha, h⟩ := reaches_withStateByte h
    rw [reaches_advance h]
    exact ⟨by constructor <;> rfl, ha, ⟨b, fun _ => hd, by simp [takesDin], rfl⟩,
      by simpa [pushesDout] using hr⟩
  | decrypt n =>
    simp only [byteEffect, decryptByte] at h
    obtain ⟨hr, h⟩ := reaches_whenDoutReady h
    obtain ⟨b, rest, hd, h⟩ := reaches_popDin h
    obtain ⟨ha, h⟩ := reaches_withStateByte h
    rw [reaches_advance h]
    exact ⟨by constructor <;> rfl, ha, ⟨b, fun _ => hd, by simp [takesDin], rfl⟩,
      by simpa [pushesDout] using hr⟩
  | pad n =>
    simp only [byteEffect, padByte] at h
    obtain ⟨b, rest, hd, h⟩ := reaches_popDin h
    obtain ⟨ha, h⟩ := reaches_withStateByte h
    rw [← (reaches_done ..).mp h]
    exact ⟨by constructor <;> rfl, ha, ⟨b, fun _ => hd, by simp [takesDin], rfl⟩, by simp [pushesDout]⟩
  | ctxSave =>
    simp only [byteEffect, ctxSaveByte] at h
    obtain ⟨hr, h⟩ := reaches_whenDoutReady h
    rw [← (reaches_done ..).mp h]
    exact ⟨by constructor <;> rfl, by simp [reachedByte], ⟨0, by simp [takesDin], fun _ => rfl, rfl⟩,
      by simpa [pushesDout] using hr⟩
  | ctxLoad p c ph =>
    simp only [byteEffect, ctxLoadByte] at h
    obtain ⟨b, rest, hd, h⟩ := reaches_popDin h
    obtain ⟨ha, h⟩ := reaches_withStateByte h
    rw [← (reaches_done ..).mp h]
    exact ⟨by constructor <;> rfl, ha, ⟨b, fun _ => hd, by simp [takesDin], rfl⟩, by simp [pushesDout]⟩
  | init c => simp [byteEffect, noByteStep] at h
  | rewind => simp [byteEffect, noByteStep] at h
  | forget => simp [byteEffect, noByteStep] at h

/-- The context a command's finish step moves to, before any permutation. -/
def finishContext (i : Instr) (c : Context) : Context :=
  match i with
  | .init cap => { S := Memory.zero, cap := BitVec.ofNat 11 cap, pos := 0, phase := .absorbing, cfg := true }
  | .pad slen => { c with
      S := if slen = 0 then c.S
        else Memory.setByte c.S (c.rate - 1) (Memory.byteAt c.S (c.rate - 1) ^^^ 0x80),
      pos := 0, phase := .squeezing }
  | .rewind => { c with pos := 0, phase := .absorbing }
  | .forget => { c with S := Memory.zero, pos := 0, phase := .absorbing }
  | .ctxLoad pos cap ph =>
      { c with cap := BitVec.ofNat 11 cap, pos := BitVec.ofNat 8 pos, phase := ph, cfg := true }
  | .ctxSave => c
  | .absorb _ => c
  | .squeeze _ => c
  | .squeezeXor _ => c
  | .encrypt _ => c
  | .decrypt _ => c

/-- Everything a finish step can do: it is always enabled (40_sequencer.md R83), and only PAD's calls for the permutation
(R89). -/
theorem finishEffect_eq (i : Instr) (s : State) :
    finishEffect i s = (match i with
      | .pad _ => .permute (s.withCtx (finishContext i s.ctx))
      | _ => .done (s.withCtx (finishContext i s.ctx))) := by
  cases i with
  | pad n =>
    by_cases h : n = 0
    · simp only [finishEffect, padFinish, padFlip, finishContext, h, if_true]
    · simp only [finishEffect, padFinish, padFlip, finishContext, h, if_false]; rfl
  | _ => rfl

theorem reaches_finishEffect {i : Instr} {s t : State} (h : (finishEffect i s).Reaches t) :
    t = s.withCtx (finishContext i s.ctx) := by
  rw [finishEffect_eq] at h
  cases i <;> simpa [eq_comm] using h

/-- A byte step or finish step leaves every field but the context, `DIN` and `DOUT`. -/
theorem reaches_keepsControl {i : Instr} {k : Nat} {s t : State} (h : (effectOf i k s).Reaches t) :
    KeepsControl s t := by
  unfold effectOf at h
  split at h
  · exact (reaches_byteEffect h).1
  · rw [reaches_finishEffect h]
    constructor <;> rfl

/-- A permuting step stays the same permuting step when bytes are added behind `DIN`'s, bytes leave `DOUT`, and fields no
command reads change. -/
theorem permute_congr {i : Instr} {k : Nat} {s s' t : State} (h : effectOf i k s = .permute t)
    (hctx : s'.ctx = s.ctx) (hdin : ∃ l, s'.din = s.din ++ l) (hdout : s'.dout.length ≤ s.dout.length)
    (hdepth : s'.params.doutDepth = s.params.doutDepth) :
    ∃ t', effectOf i k s' = .permute t' ∧ t'.ctx = t.ctx := by
  obtain ⟨l, hl⟩ := hdin
  have adv : ∀ u u' : State, u'.ctx = u.ctx → advance u = .permute t →
      ∃ t', advance u' = .permute t' ∧ t'.ctx = t.ctx := by
    intro u u' hu ha
    unfold advance at ha ⊢
    rw [hu]
    split at ha
    · rw [if_pos ‹_›]
      cases ha
      exact ⟨_, rfl, rfl⟩
    · cases ha
  have pop : ∀ (u u' : State) (f : Byte → State → Effect), (∃ l, u'.din = u.din ++ l) →
      popDin u f = .permute t → ∃ b rest rest', f b { u with din := rest } = .permute t ∧
        popDin u' f = f b { u' with din := rest' } := by
    rintro u u' f ⟨l, hl⟩ h
    unfold popDin at h
    split at h
    · cases h
    · rename_i b rest hd
      exact ⟨b, rest, rest ++ l, h, popDin_cons (by rw [hl, hd]; rfl) f⟩
  have room : ∀ e, whenDoutReady s e = .permute t →
      e = .permute t ∧ ∀ e', whenDoutReady s' e' = e' := by
    intro e h
    rcases whenDoutReady_cases s e with he | ⟨hr, he⟩
    · rw [he] at h; cases h
    · exact ⟨he ▸ h, fun e' => whenDoutReady_of_room (by omega) e'⟩
  have byte : ∀ (u : State) (a : Nat) (f : Byte → Effect), withStateByte u a f = .permute t →
      a < 200 ∧ f (Memory.byteAt u.ctx.S a) = .permute t := by
    intro u a f h
    unfold withStateByte at h
    split at h
    · exact ⟨‹_›, h⟩
    · cases h
  unfold effectOf at h ⊢
  split at h
  · rename_i hk
    rw [if_pos hk]
    cases i <;> simp only [byteEffect, noByteStep, reduceCtorEq] at h ⊢ <;>
      simp only [absorbByte, squeezeByte, squeezeXorByte, encryptByte, decryptByte, padByte, ctxSaveByte,
        ctxLoadByte] at h ⊢
    case absorb n =>
      obtain ⟨b, rest, rest', h, he⟩ := pop s s' _ ⟨l, hl⟩ h
      obtain ⟨ha, h⟩ := byte _ _ _ h
      rw [he, withStateByte_of_lt (by simpa [hctx] using ha)]
      exact adv _ _ (by simp [hctx]) h
    case squeeze n =>
      obtain ⟨h, hr⟩ := room _ h
      obtain ⟨ha, h⟩ := byte _ _ _ h
      rw [hr, withStateByte_of_lt (by simpa [hctx] using ha)]
      exact adv _ _ (by simp [hctx]) h
    case ctxSave =>
      cases (room _ h).1
    case pad n =>
      obtain ⟨b, rest, rest', h, he⟩ := pop s s' _ ⟨l, hl⟩ h
      cases (byte _ _ _ h).2
    case ctxLoad p c ph =>
      obtain ⟨b, rest, rest', h, he⟩ := pop s s' _ ⟨l, hl⟩ h
      cases (byte _ _ _ h).2
    all_goals
      obtain ⟨h, hr⟩ := room _ h
      obtain ⟨b, rest, rest', h, he⟩ := pop s s' _ ⟨l, hl⟩ h
      obtain ⟨ha, h⟩ := byte _ _ _ h
      rw [hr, he, withStateByte_of_lt (by simpa [hctx] using ha)]
      exact adv _ _ (by simp [hctx]) h
  · rename_i hk
    rw [if_neg hk]
    rw [finishEffect_eq] at h ⊢
    rw [hctx]
    cases i <;> simp only [reduceCtorEq] at h ⊢
    cases h
    exact ⟨_, rfl, rfl⟩

end Sys2Proof.Machine
end

