-- ==== Sys2Proof/Laws/PerInstr.lean ====
section
/-! SUPPORT. Statements about every command as syntax, one lemma per constructor. -/

namespace Sys2Proof.Laws

/-- The opcode field of each command (30_encoding.md R72). -/
def opcodeNibble : Instr → BitVec 4
  | .init _ => 0x1
  | .absorb _ => 0x2
  | .squeeze _ => 0x3
  | .squeezeXor _ => 0x4
  | .encrypt _ => 0x5
  | .decrypt _ => 0x6
  | .pad _ => 0x7
  | .rewind => 0x8
  | .forget => 0x9
  | .ctxSave => 0xA
  | .ctxLoad _ _ _ => 0xB

namespace OpcodeByte

/-- Bits 3:0 of the encoding are the opcode and bits 7:4 are 0, whatever the operands (30_encoding.md R62, R63). -/
def Statement (i : Instr) : Prop := (encode i).extractLsb' 0 8 = 0x0#4 ++ opcodeNibble i

/-- A field placed at bit 8 or above leaves the low byte of `x`. -/
theorem lowByte_place_or {n : Nat} (v : BitVec n) (lo : Nat) (h : 8 ≤ lo) (x : Word) :
    (place v lo ||| x).extractLsb' 0 8 = x.extractLsb' 0 8 := by
  apply BitVec.eq_of_getLsbD_eq
  intro j hj
  have hlo : ¬lo ≤ j := by omega
  simp [getLsbD_place, hj, hlo]

theorem init (cap : Nat) : Statement (.init cap) := 
  (lowByte_place_or (BitVec.ofNat 11 cap) 16 (by decide) _).trans (by simp [opcodeNibble])
theorem absorb (len : Nat) : Statement (.absorb len) := 
  (lowByte_place_or (BitVec.ofNat 24 len) 8 (by decide) _).trans (by simp [opcodeNibble])
theorem squeeze (len : Nat) : Statement (.squeeze len) := 
  (lowByte_place_or (BitVec.ofNat 24 len) 8 (by decide) _).trans (by simp [opcodeNibble])
theorem squeezeXor (len : Nat) : Statement (.squeezeXor len) := 
  (lowByte_place_or (BitVec.ofNat 24 len) 8 (by decide) _).trans (by simp [opcodeNibble])
theorem encrypt (len : Nat) : Statement (.encrypt len) := 
  (lowByte_place_or (BitVec.ofNat 24 len) 8 (by decide) _).trans (by simp [opcodeNibble])
theorem decrypt (len : Nat) : Statement (.decrypt len) := 
  (lowByte_place_or (BitVec.ofNat 24 len) 8 (by decide) _).trans (by simp [opcodeNibble])
theorem pad (slen : Nat) : Statement (.pad slen) := 
  (lowByte_place_or (BitVec.ofNat 8 slen) 8 (by decide) _).trans (by simp [opcodeNibble])
theorem rewind : Statement .rewind := rfl
theorem forget : Statement .forget := rfl
theorem ctxSave : Statement .ctxSave := rfl
theorem ctxLoad (pos cap : Nat) (ph : Phase) : Statement (.ctxLoad pos cap ph) := by
  simp only [Statement, encode]
  rw [BitVec.or_assoc, BitVec.or_assoc, lowByte_place_or _ 27 (by decide), lowByte_place_or _ 16 (by decide),
    lowByte_place_or _ 8 (by decide)]
  simp [opcodeNibble]

end OpcodeByte

namespace ByteStepBound

/-- A well-formed command has at most 16 777 215 byte steps (30_encoding.md R66, 40_sequencer.md R91). -/
def Statement (i : Instr) : Prop := WellFormed i → Machine.byteSteps i ≤ 16777215

theorem init (cap : Nat) : Statement (.init cap) := fun _ => Nat.zero_le _
theorem absorb (len : Nat) : Statement (.absorb len) := of_decide_eq_true
theorem squeeze (len : Nat) : Statement (.squeeze len) := of_decide_eq_true
theorem squeezeXor (len : Nat) : Statement (.squeezeXor len) := of_decide_eq_true
theorem encrypt (len : Nat) : Statement (.encrypt len) := of_decide_eq_true
theorem decrypt (len : Nat) : Statement (.decrypt len) := of_decide_eq_true
theorem pad (slen : Nat) : Statement (.pad slen) := fun h => Nat.le_trans (of_decide_eq_true h) (by decide)
theorem rewind : Statement .rewind := fun _ => Nat.zero_le _
theorem forget : Statement .forget := fun _ => Nat.zero_le _
theorem ctxSave : Statement .ctxSave := fun _ => by decide
theorem ctxLoad (pos cap : Nat) (ph : Phase) : Statement (.ctxLoad pos cap ph) := fun _ => by
  show 200 ≤ 16777215
  decide

end ByteStepBound

end Sys2Proof.Laws
end

