-- ==== Sys2Proof/Laws/Step.lean ====
section
/-! SUPPORT. Everything a turn can do, said once: whose turn it is, what the core's turn comes to, and what the byte steps
and finish steps make of the context. -/

namespace Sys2Proof.Machine

/-! ### Turns -/

theorem step_of_noTurns {s : State} (h : s.turns = []) : step s = coreTurn s := by
  simp [step, takeTurn, h]

theorem step_of_core {s : State} {ts : List Agent} (h : s.turns = .core :: ts) :
    step s = coreTurn { s with turns := ts } := by
  simp [step, takeTurn, h]

theorem step_of_host {s : State} {ts : List Agent} (h : s.turns = .host :: ts) :
    step s = .next (hostTurn { s with turns := ts }) := by
  simp [step, takeTurn, h]

theorem step_of_perm {s : State} {ts : List Agent} (h : s.turns = .perm :: ts) :
    step s = .next (permTurn { s with turns := ts }) := by
  simp [step, takeTurn, h]

/-- A step is a turn of one agent, its turn spent. -/
theorem step_cases (s : State) :
    step s = coreTurn { s with turns := s.turns.tail } ∨
      (∃ ts, s.turns = .host :: ts ∧ step s = .next (hostTurn { s with turns := ts })) ∨
      (∃ ts, s.turns = .perm :: ts ∧ step s = .next (permTurn { s with turns := ts })) := by
  cases h : s.turns with
  | nil => left; rw [step_of_noTurns h, List.tail_nil, ← h]
  | cons a ts =>
    cases a with
    | core => exact .inl (step_of_core h)
    | host => exact .inr (.inl ⟨ts, rfl, step_of_host h⟩)
    | perm => exact .inr (.inr ⟨ts, rfl, step_of_perm h⟩)

/-- The host's turn on the first of its coming steps. -/
theorem hostTurn_cons {s : State} {a : HostStep} {hs : List HostStep} (h : s.host = a :: hs) :
    hostTurn s = (hostAction a { s with host := hs }).getD s := by
  simp only [hostTurn, h]
  cases hostAction a { s with host := hs } <;> rfl

/-! ### The core's turn -/

/-- Everything the core's turn can be: nothing to do; the issue step of the word at the head of `CMDQ`, legal or not; or
the next step of the command under execution. -/
theorem coreTurn_cases (s : State) :
    (coreTurn s = .next s ∧ (s.rst = true ∨ s.seq = .idle ∧ (s.err = true ∨ s.cmdq = []))) ∨
      (∃ w rest, s.rst = false ∧ s.seq = .idle ∧ s.err = false ∧ s.cmdq = w :: rest ∧
        (((∃ r, decode w = .error r) ∧
            coreTurn s = .next (raiseError .illegal w { s with cmdq := rest })) ∨
          ∃ i, decode w = .ok i ∧ coreTurn s = .next (issue i { s with cmdq := rest }))) ∨
      (∃ i k, s.rst = false ∧ s.seq = .run i k ∧ coreTurn s = commit s (nextSeq i k) (effectOf i k s)) := by
  cases hr : s.rst with
  | true => exact .inl ⟨by simp [coreTurn, nextWork, hr], .inl rfl⟩
  | false =>
    cases hs : s.seq with
    | run i k =>
      refine .inr (.inr ⟨i, k, rfl, rfl, ?_⟩)
      rw [← exec_run hs i]
      simp [coreTurn, nextWork, hr, hs]
    | idle =>
      cases he : s.err with
      | true => exact .inl ⟨by simp [coreTurn, nextWork, fetch, hr, hs, he], .inr ⟨rfl, .inl rfl⟩⟩
      | false =>
        cases hc : s.cmdq with
        | nil => exact .inl ⟨by simp [coreTurn, nextWork, fetch, hr, hs, he, hc], .inr ⟨rfl, .inr rfl⟩⟩
        | cons w rest =>
          refine .inr (.inl ⟨w, rest, rfl, rfl, rfl, rfl, ?_⟩)
          cases hd : decode w with
          | error r => exact .inl ⟨⟨r, rfl⟩, by simp [coreTurn, nextWork, fetch, hr, hs, he, hc, hd]⟩
          | ok i =>
            refine .inr ⟨i, rfl, ?_⟩
            simpa [coreTurn, nextWork, fetch, hr, hs, he, hc, hd] using
              exec_idle (s := { s with cmdq := rest }) hs i

/-- Everything taking an effect can come to. -/
theorem commit_cases {s t : State} {q : Seq} {e : Effect} (h : commit s q e = .next t) :
    (e = .wait ∧ t = s) ∨ (∃ u, e = .done u ∧ t = u.withSeq q) ∨
      (∃ u, e = .permute u ∧ t = permuteStep s (u.withSeq q)) := by
  cases e with
  | wait => cases h; exact .inl ⟨rfl, rfl⟩
  | done u => cases h; exact .inr (.inl ⟨u, rfl, rfl⟩)
  | permute u => cases h; exact .inr (.inr ⟨u, rfl, rfl⟩)
  | noByte a => cases h

/-- `SEQ` after a step of a command: the next byte step's index, or `Idle` after the finish step. -/
theorem nextSeq_cases (i : Instr) (k : Nat) :
    (nextSeq i k = .run i (k + 1) ∧ k < byteSteps i) ∨ (nextSeq i k = .idle ∧ byteSteps i ≤ k) := by
  unfold nextSeq
  split
  · exact .inl ⟨rfl, ‹_›⟩
  · exact .inr ⟨rfl, Nat.le_of_not_lt ‹_›⟩

/-! ### What a byte step makes of the context -/

@[simp] theorem byteContext_cap (i : Instr) (k : Nat) (b : Byte) (c : Context) :
    (byteContext i k b c).cap = c.cap := by cases i <;> rfl
@[simp] theorem byteContext_cfg (i : Instr) (k : Nat) (b : Byte) (c : Context) :
    (byteContext i k b c).cfg = c.cfg := by cases i <;> rfl
@[simp] theorem byteContext_phase (i : Instr) (k : Nat) (b : Byte) (c : Context) :
    (byteContext i k b c).phase = c.phase := by cases i <;> rfl
@[simp] theorem byteContext_rate (i : Instr) (k : Nat) (b : Byte) (c : Context) :
    (byteContext i k b c).rate = c.rate := by cases i <;> rfl

/-- The increment of the cursor does not wrap and stays in the window (40_sequencer.md R91). -/
theorem succ_pos_lt_rate {c : Context} (h : c.pos.toNat < c.rate) (h' : c.pos.toNat + 1 ≠ c.rate) :
    (BitVec.ofNat 8 (c.pos.toNat + 1)).toNat = c.pos.toNat + 1 ∧ c.pos.toNat + 1 < c.rate := by
  have := rate_le c
  rw [BitVec.toNat_ofNat, Nat.mod_eq_of_lt (by omega)]
  omega

/-- A byte step keeps the cursor in the window (10_state.md R21). -/
theorem byteContext_pos_lt {i : Instr} {k : Nat} {b : Byte} {c : Context} (h : c.inWindow) :
    (byteContext i k b c).pos.toNat < c.rate := by
  have h8 : 8 ≤ c.rate := rateOf_of_legal h.1
  have key : (if c.pos.toNat + 1 = c.rate then (0 : BitVec 8) else BitVec.ofNat 8 (c.pos.toNat + 1)).toNat <
      c.rate := by
    split
    · exact Nat.lt_of_lt_of_le (by decide) h8
    · have := succ_pos_lt_rate h.2 ‹_›
      omega
  cases i <;> first | exact key | exact h.2

/-- A byte step keeps the canonical form of `S`. -/
theorem byteContext_wf {i : Instr} {k : Nat} {b : Byte} {c : Context} (h : Memory.wf c.S)
    (hb : reachedByte i k c < 200) : Memory.wf (byteContext i k b c).S := by
  cases i <;> first | exact h | exact setByte_wf h hb _

/-! ### Canonical buffers -/

/-- In a canonical buffer an address is listed exactly when it does not read as 0. -/
theorem byteAt_of_mem {m : Memory} (hm : Memory.wf m) {c : Host.Cell} (h : c ∈ m) :
    Memory.byteAt m c.1 = c.2 := by
  induction m with
  | nil => cases h
  | cons d m ih =>
    obtain ⟨-, hlt, hm'⟩ := wf_cons.mp hm
    rw [show d = (d.1, d.2) from rfl, byteAt_cons]
    rcases List.mem_cons.mp h with rfl | h
    · rw [if_pos rfl]
    · rw [if_neg (by have := hlt c h; omega)]
      exact ih hm' h

/-- Equal bytes are equal canonical buffers. -/
theorem eq_of_byteAt {m m' : Memory} (hm : Memory.wf m) (hm' : Memory.wf m')
    (h : ∀ a, Memory.byteAt m a = Memory.byteAt m' a) : m = m' := by
  induction m generalizing m' with
  | nil =>
    cases m' with
    | nil => rfl
    | cons d m' =>
      have := h d.1
      rw [byteAt_of_mem hm' (List.mem_cons_self ..)] at this
      exact absurd this.symm ((wf_cons.mp hm').1.2)
  | cons c m ih =>
    obtain ⟨hc, hlt, hmt⟩ := wf_cons.mp hm
    cases m' with
    | nil =>
      have := h c.1
      rw [byteAt_of_mem hm (List.mem_cons_self ..)] at this
      exact absurd this hc.2
    | cons d m' =>
      obtain ⟨hd, hlt', hmt'⟩ := wf_cons.mp hm'
      have hle : ¬c.1 < d.1 := fun hl => by
        have := h c.1
        rw [byteAt_of_mem hm (List.mem_cons_self ..), byteAt_of_lt (d :: m') c.1] at this
        · exact hc.2 this
        · intro e he
          rcases List.mem_cons.mp he with rfl | he
          · exact hl
          · have := hlt' e he; omega
      have hge : ¬d.1 < c.1 := fun hl => by
        have := h d.1
        rw [byteAt_of_mem hm' (List.mem_cons_self ..), byteAt_of_lt (c :: m) d.1] at this
        · exact hd.2 this.symm
        · intro e he
          rcases List.mem_cons.mp he with rfl | he
          · exact hl
          · have := hlt e he; omega
      have ha : c.1 = d.1 := by omega
      have hv : c.2 = d.2 := by
        have := h c.1
        rwa [byteAt_of_mem hm (List.mem_cons_self ..), ha,
          byteAt_of_mem hm' (List.mem_cons_self ..)] at this
      have hcd : c = d := Prod.ext ha hv
      subst hcd
      congr 1
      refine ih hmt hmt' fun a => ?_
      by_cases hx : a = c.1
      · rw [byteAt_of_lt m a (by subst hx; exact hlt), byteAt_of_lt m' a (by subst hx; exact hlt')]
      · have := h a
        rwa [show c = (c.1, c.2) from rfl, byteAt_cons, byteAt_cons, if_neg hx, if_neg hx] at this

end Sys2Proof.Machine
end

