-- ==== Sys2Proof/Tests/Slice0.lean ====
section
/-! SUPPORT. The model's own tests: ill-formed terms refused, words of the spec decoded, one step of each command with the
results the spec states, and for every obligation with hypotheses a state that meets them. -/

open Sys2Proof Sys2Proof.Machine

namespace Sys2Proof.Tests

/-! ### Well-formedness: each check refuses an ill-formed term (30_encoding.md R76) -/

theorem test_illformed_cap : ¬WellFormed (.init 2048) := by decide
theorem test_illformed_absorb : ¬WellFormed (.absorb 16777216) := by decide
theorem test_illformed_squeeze : ¬WellFormed (.squeeze 16777216) := by decide
theorem test_illformed_squeezeXor : ¬WellFormed (.squeezeXor 16777216) := by decide
theorem test_illformed_encrypt : ¬WellFormed (.encrypt 16777216) := by decide
theorem test_illformed_decrypt : ¬WellFormed (.decrypt 16777216) := by decide
theorem test_illformed_pad : ¬WellFormed (.pad 256) := by decide
theorem test_illformed_load_pos : ¬WellFormed (.ctxLoad 256 0 .absorbing) := by decide
theorem test_illformed_load_cap : ¬WellFormed (.ctxLoad 0 2048 .absorbing) := by decide

/-! ### Decoding: words written out bit by bit from the formats of 30_encoding.md (R64, R65, R68, R71) -/

/-- `00000 CCCCCCCCCCC 00000000 0000 0001` with CAP = 512. -/
theorem test_decode_init : decode 0b00000010000000000000000000000001#32 = .ok (.init 512) := by decide
/-- LEN = 3, OP = 0x2. -/
theorem test_decode_absorb : decode 0b00000000000000000000001100000010#32 = .ok (.absorb 3) := by decide
/-- LEN = 32, OP = 0x3. -/
theorem test_decode_squeeze : decode 0b00000000000000000010000000000011#32 = .ok (.squeeze 32) := by decide
/-- LEN = 2, OP = 0x4. -/
theorem test_decode_squeezeXor : decode 0b00000000000000000000001000000100#32 = .ok (.squeezeXor 2) := by decide
/-- LEN with its highest bit, OP = 0x5. -/
theorem test_decode_encrypt : decode 0b10000000000000000000000000000101#32 = .ok (.encrypt 8388608) := by decide
/-- LEN = 7, OP = 0x6. -/
theorem test_decode_decrypt : decode 0b00000000000000000000011100000110#32 = .ok (.decrypt 7) := by decide
/-- SLEN = 255, OP = 0x7. -/
theorem test_decode_pad : decode 0b00000000000000001111111100000111#32 = .ok (.pad 255) := by decide
theorem test_decode_rewind : decode 0b00000000000000000000000000001000#32 = .ok .rewind := by decide
theorem test_decode_forget : decode 0b00000000000000000000000000001001#32 = .ok .forget := by decide
theorem test_decode_ctxSave : decode 0b00000000000000000000000000001010#32 = .ok .ctxSave := by decide
/-- `0000 P CCCCCCCCCCC pppppppp 0000 1011` with PH = 1, CAP = 512, POS = 135 (95_test_vectors.md T34). -/
theorem test_decode_ctxLoad : decode 0b00001010000000001000011100001011#32 = .ok (.ctxLoad 135 512 .squeezing) := by
  decide

/-- The all-zero word and the reserved opcode 0xC (R73). -/
theorem test_decode_reserved_opcodes :
    decode 0x00000000 = .error .reservedOpcode ∧ decode 0x0000000C = .error .reservedOpcode := by decide
/-- A reserved bit of PAD, of INIT, of CTX_LOAD and of ABSORB (R74; T26, T36, T39). -/
theorem test_decode_reserved_bits :
    decode 0x00010107 = .error .reservedBits ∧ decode 0x08000001 = .error .reservedBits ∧
      decode 0x1200000B = .error .reservedBits ∧ decode 0x000000F2 = .error .reservedBits := by decide
/-- Encoding gives the words of 95_test_vectors.md (T25, T33, T34). -/
theorem test_encode : encode (.absorb 1) = 0x00000102 ∧ encode (.ctxLoad 3 1536 .squeezing) = 0x0E00030B ∧
    encode (.ctxLoad 135 512 .squeezing) = 0x0A00870B := by decide
theorem test_table_word : decodeTableWord 32 0x02000001 = some (.init 512) ∧ decodeTableWord 32 0 = none := by
  decide

/-! ### States the tests and witnesses use -/

/-- A machine at rest with `DOUT_DEPTH = d`, the other depths 4, the permutation internal. -/
def quiet (d : Nat) : State := { State.reset with params := ⟨4, 4, d, false⟩ }

/-- A sponge of capacity 1536, rate 8, with a few bytes in `S`. -/
def sponge (pos : BitVec 8) (ph : Phase) : Context :=
  { S := [(0, 0xA7), (1, 0xFF), (2, 0xC6), (7, 0x11)], cap := 1536, pos := pos, phase := ph, cfg := true }

/-- The core with that sponge, idle. -/
def ready (pos : BitVec 8) (ph : Phase) (strict : Bool) : State :=
  { quiet 4 with ctx := sponge pos ph, strict := strict }

/-- The core with that sponge, `i` under execution. -/
def running (i : Instr) (k : Nat) (pos : BitVec 8) (ph : Phase) (din : List Byte) : State :=
  { ready pos ph false with seq := .run i k, din := din }

/-- `DOUT` full. -/
def full (i : Instr) (k : Nat) : State := { running i k 0 .squeezing [1] with dout := [1, 2, 3, 4] }

/-- A host step is next. -/
def hostNext (s : State) (a : HostStep) : State := { s with turns := [.host], host := [a] }

/-- The state a step or an `exec` ends in. -/
def result (o : Host.Outcome State Fault Refusal) : State :=
  match o with
  | .next t => t
  | .fault _ => State.reset
  | .refused _ => State.reset

/-! ### One step of each command, the expected values those of the spec -/

/-- R93: `INIT 512` leaves STATUS = 0x00880071. -/
theorem test_init_status :
    (result (exec (.init 512) { quiet 4 with seq := .run (.init 512) 0 })).statusWord = 0x00880071 := by decide
/-- T2: `INIT 8` fails with PARAM (90_conflicts.md C1). -/
theorem test_init_param : (result (exec (.init 8) (quiet 4))).errstatWord = 0x00000121 := by decide
/-- R98: `61` into a zero byte, `POS` 0 to 1. -/
theorem test_absorb_byte :
    let t := result (exec (.absorb 3) (running (.absorb 3) 0 3 .absorbing [0x61, 0x62]))
    Memory.byteAt t.ctx.S 3 = 0x61 ∧ t.ctx.pos = 4 ∧ t.din = [0x62] := by decide
/-- T42: `ABSORB 0` with nothing configured fails with NOCFG, STATUS = 0x00000078. -/
theorem test_absorb_nocfg :
    let t := result (exec (.absorb 0) (quiet 4))
    t.errstatWord = 0x00000231 ∧ t.statusWord = 0x00000078 := by decide
/-- V1: the first output byte is `S[0]`, `a7`. -/
theorem test_squeeze_byte :
    let t := result (exec (.squeeze 4) (running (.squeeze 4) 0 0 .squeezing []))
    t.dout = [0xA7] ∧ t.ctx.pos = 1 := by decide
/-- T38: SQUEEZE before a pad with STRICT = 1. -/
theorem test_squeeze_phase :
    (result (exec (.squeeze 1) (ready 0 .absorbing true))).errstatWord = 0x00000341 := by decide
/-- T16: `ff` against `S[1] = ff` outputs `00`, and `S` stays. -/
theorem test_squeezeXor_byte :
    let t := result (exec (.squeezeXor 2) (running (.squeezeXor 2) 1 1 .squeezing [0xFF]))
    t.dout = [0x00] ∧ t.ctx.S = (sponge 1 .squeezing).S ∧ t.ctx.pos = 2 := by decide
/-- T17: `ff` against `S[1] = ff` outputs `00` and leaves `00`. -/
theorem test_encrypt_byte :
    let t := result (exec (.encrypt 2) (running (.encrypt 2) 1 1 .squeezing [0xFF]))
    t.dout = [0x00] ∧ Memory.byteAt t.ctx.S 1 = 0x00 ∧ Memory.byteAt t.ctx.S 2 = 0xC6 := by decide
/-- T18: `00` against `S[1] = ff` outputs `ff` and leaves `00`, the ciphertext. -/
theorem test_decrypt_byte :
    let t := result (exec (.decrypt 2) (running (.decrypt 2) 1 1 .squeezing [0x00]))
    t.dout = [0xFF] ∧ Memory.byteAt t.ctx.S 1 = 0x00 := by decide
/-- T22: `PAD 4` at `POS = 5` with RATE 8 fails with PARAM and pops nothing. -/
theorem test_pad_param :
    let t := result (exec (.pad 4) { ready 5 .absorbing false with din := [1, 2, 3, 4] })
    t.errstatWord = 0x00000721 ∧ t.errcmd = 0x00000407 ∧ t.din = [1, 2, 3, 4] ∧ t.statusWord = 0x00080559 := by
  decide
/-- T21, T23: the flip lands on the last suffix byte, `03 ^ 80 = 83`. -/
theorem test_pad_flip :
    Memory.byteAt (padFlip 3 { quiet 4 with ctx := { sponge 5 .absorbing with S := [(7, 0x03)] } }).ctx.S 7 = 0x83 := by
  decide
/-- T28: REWIND keeps `S` and resets the cursor and the phase. -/
theorem test_rewind :
    (result (exec .rewind (running .rewind 0 3 .squeezing []))).ctx = sponge 0 .absorbing := by decide
/-- T30: FORGET clears `S`, `POS`, `PHASE`; CAP stays 1536. -/
theorem test_forget :
    (result (exec .forget (running .forget 0 3 .squeezing []))).ctx =
      { S := [], cap := 1536, pos := 0, phase := .absorbing, cfg := true } := by decide
/-- T31: FORGET with nothing configured. -/
theorem test_forget_nocfg : (result (exec .forget (quiet 4))).errstatWord = 0x00000931 := by decide
/-- T33: the metadata bytes `0b 03 00 0e` of POS 3, CAP 1536, PH 1. -/
theorem test_ctxSave_metadata :
    (List.range 4).map (fun j => savedByte (sponge 3 .squeezing) (200 + j)) = [0x0B, 0x03, 0x00, 0x0E] := by decide
/-- T34: `CTX_LOAD 135, 512, 1` ends with STATUS = 0x00888773. -/
theorem test_ctxLoad_status :
    (result (exec (.ctxLoad 135 512 .squeezing)
      { quiet 4 with seq := .run (.ctxLoad 135 512 .squeezing) 200 })).statusWord = 0x00888773 := by decide
/-- T35: `CTX_LOAD 136, 512, 0` fails with PARAM. -/
theorem test_ctxLoad_param :
    (result (exec (.ctxLoad 136 512 .absorbing) (quiet 4))).errstatWord = 0x00000B21 := by decide
/-- T39: ILLEGAL before NOCFG. -/
theorem test_illegal_first :
    let t := result (step (State.reset.withFetchWord 32 0x000000F2))
    t.errstatWord = 0x00000211 ∧ t.errcmd = 0x000000F2 ∧ t.statusWord = 0x00000078 := by decide
/-- The first step after reset with a word placed runs it. -/
theorem test_withFetchWord :
    (result (step (State.reset.withFetchWord 32 0x02000001))).seq = .run (.init 512) 0 := by decide
/-- T44: the registers after reset. -/
theorem test_reset_registers :
    State.reset.regReadWord 0x00 = 0 ∧ State.reset.regReadWord 0x04 = 0x00000070 ∧
      State.reset.regReadWord 0x08 = 0x01000000 ∧ State.reset.regReadWord 0x0C = 0 ∧
      State.reset.regReadWord 0x10 = 0 ∧ State.reset.regReadWord 0x14 = 0 := by decide
/-- T46: CTRL = 0xFFFFFFFF while idle reads back 0x00000003 and empties the queues. -/
theorem test_ctrl_write :
    let t := regWrite 0x00 0xFFFFFFFF { quiet 4 with cmdq := [8], din := [1], dout := [2] }
    t.ctrlWord = 3 ∧ t.cmdq = [] ∧ t.din = [] ∧ t.dout = [] := by decide
/-- T45: IE with the error of T42 held raises `irq`, and clearing ERRSTAT drops it. -/
theorem test_irq :
    let t := regWrite 0x00 0x00000002 (result (exec (.absorb 0) (quiet 4)))
    t.statusWord = 0x000000F8 ∧ (regWrite 0x0C 1 t).statusWord = 0x00000070 := by decide

/-- P1: the assembly of SHA3-256("abc"), and a line whose operand does not fit. -/
theorem test_assemble :
    assemble [.command (.init 512), .absorbData [0x61, 0x62, 0x63], .padSha3, .command (.squeeze 32)] =
      some { words := [0x02000001, 0x00000302, 0x00000107, 0x00002003], data := [0x61, 0x62, 0x63, 0x06] } ∧
    assemble [.command (.pad 256)] = none := by decide

/-- T40, R144: the first lane of `KeccakF` of the all-zero state. -/
theorem test_keccak_zero : lane (keccakLanes (lanesOfBytes (Memory.toBytes []))) 0 0 = 0xF1258F7940E1DDE7 := by
  decide +kernel

/-! ### Witnesses: for every obligation with hypotheses, states and operands that meet them, clause by clause -/

theorem witness_DecodeOfEncode :
    WellFormed (.init 2047) ∧ WellFormed (.absorb 16777215) ∧ WellFormed (.squeeze 0) ∧
      WellFormed (.squeezeXor 16777215) ∧ WellFormed (.encrypt 1) ∧ WellFormed (.decrypt 16777215) ∧
      WellFormed (.pad 255) ∧ WellFormed .rewind ∧ WellFormed .forget ∧ WellFormed .ctxSave ∧
      WellFormed (.ctxLoad 255 2047 .squeezing) := by decide

theorem witness_EncodeOfDecode : decode 0x0FFFFF0B = .ok (.ctxLoad 255 2047 .squeezing) := by decide

theorem witness_IllegalWordsFailWithIllegal :
    (Claims.op 0x00000000 = 0 ∧ 12 ≤ Claims.op 0x0000000C ∧ 12 ≤ Claims.op 0xFFFFFFFF) ∧
    (((0xFFFF00FF : Word), (0x00000007 : Word)) ∈ Claims.rows ∧
      (0x00010107 : Word).extractLsb' 0 4 = (0x00000007 : Word).extractLsb' 0 4 ∧
      (0x00010107 : Word) &&& 0xFFFF00FF ≠ 0x00000007) ∧
    (let s : State := { quiet 4 with cmdq := [0x0000000C] };
      Claims.CoreAlone s ∧ s.seq = .idle ∧ s.err = false ∧ s.cmdq = 0x0000000C :: [] ∧
        Claims.legalWord 0x0000000C = false) := by decide

theorem witness_StepRunsTheDecodedInstruction :
    (let s : State := { quiet 4 with cmdq := [0x02000001] };
      (s.turns = [] ∧ ([] : List Agent) = []) ∧ s.rst = false ∧ s.seq = .idle ∧ s.err = false ∧
        s.cmdq = 0x02000001 :: [] ∧ decode 0x02000001 = .ok (.init 512)) ∧
    (let s : State := { running (.absorb 1) 0 0 .absorbing [1] with turns := [.core, .host] };
      s.turns = .core :: [.host] ∧ s.rst = false ∧ s.seq = .run (.absorb 1) 0) := by decide

theorem witness_ByteStepCountsOfTheTable :
    decode 0xFFFFFF02 = .ok (.absorb 16777215) ∧ decode 0x0000FF07 = .ok (.pad 255) ∧
      decode 0x00000008 = .ok .rewind := by decide

theorem witness_IssueStepTakesTheHeadOfTheQueue :
    (let s : State := { quiet 4 with cmdq := [0x06000001] };
      Claims.CoreAlone s ∧ s.seq = .idle ∧ s.err = false ∧ s.cmdq = 0x06000001 :: [] ∧
        checkWord s.strict s.ctx 0x06000001 = .none) ∧
    (let s : State := { quiet 4 with cmdq := [0x00080001] };
      Claims.CoreAlone s ∧ s.seq = .idle ∧ s.err = false ∧ s.cmdq = 0x00080001 :: [] ∧
        ErrCode.param ≠ .none ∧ checkWord s.strict s.ctx 0x00080001 = .param) ∧
    (Claims.CoreAlone (quiet 4) ∧ (quiet 4).seq = .idle ∧ (quiet 4).cmdq = []) := by decide

theorem witness_RunningCommandsKeepControl :
    (running (.absorb 1) 0 0 .absorbing [1]).seq = .run (.absorb 1) 0 ∧
      ∃ t, exec (.absorb 1) (running (.absorb 1) 0 0 .absorbing [1]) = .next t := ⟨rfl, _, rfl⟩

theorem witness_ErrorsArePrecise :
    ∃ t, step { quiet 4 with cmdq := [0x00000002, 0x02000001] } = .next t ∧ t.err = true :=
  ⟨_, rfl, rfl⟩

theorem witness_HeldErrorHaltsTheCore :
    let s := clearError { quiet 4 with cmdq := [8], din := [1], dout := [2] }
    let s := raiseError .nocfg 9 s
    s.err = true ∧ s.seq = .idle ∧ s.rst = false ∧ s.cmdq.length < s.params.cmdqDepth ∧
      s.din.length < s.params.dinDepth ∧ s.dout = 2 :: [] := by decide

theorem witness_InitBuildsANewSponge :
    (1536 ≤ 2047 ∧ (quiet 4).seq = .idle ∧ 1536 % 64 = 0 ∧ 1536 ≤ 1536) ∧
    (2047 ≤ 2047 ∧ ¬(2047 % 64 = 0 ∧ 2047 ≤ 1536)) ∧
    (running (.init 0) 0 5 .squeezing []).seq = .run (.init 0) 0 := by decide

theorem witness_AbsorbXorsInputIntoTheRate :
    ((quiet 4).seq = .idle ∧ (quiet 4).ctx.cfg = false) ∧
    (let s := ready 0 .squeezing true;
      s.seq = .idle ∧ s.ctx.cfg = true ∧ s.strict = true ∧ s.ctx.phase = .squeezing) ∧
    (let s := ready 7 .absorbing true;
      s.seq = .idle ∧ s.ctx.cfg = true ∧ ¬(s.strict = true ∧ s.ctx.phase = .squeezing)) ∧
    (let s := running (.absorb 2) 1 7 .absorbing [];
      s.seq = .run (.absorb 2) 1 ∧ 1 < 2 ∧ s.din = []) ∧
    (let s := running (.absorb 2) 1 7 .absorbing [5];
      s.seq = .run (.absorb 2) 1 ∧ 1 < 2 ∧ s.din = 5 :: [] ∧ s.ctx.inWindow ∧ Claims.AdvancesAtOnce s) ∧
    (running (.absorb 2) 2 0 .absorbing []).seq = .run (.absorb 2) 2 := by decide

theorem witness_SqueezeOutputsTheRate :
    ((quiet 4).seq = .idle ∧ (quiet 4).ctx.cfg = false) ∧
    (let s := ready 0 .absorbing true;
      s.seq = .idle ∧ s.ctx.cfg = true ∧ s.strict = true ∧ s.ctx.phase = .absorbing) ∧
    (let s := ready 7 .absorbing false;
      s.seq = .idle ∧ s.ctx.cfg = true ∧ ¬(s.strict = true ∧ s.ctx.phase = .absorbing)) ∧
    (let s := full (.squeeze 2) 1;
      s.seq = .run (.squeeze 2) 1 ∧ 1 < 2 ∧ s.params.doutDepth ≤ s.dout.length) ∧
    (let s := running (.squeeze 2) 1 7 .squeezing [];
      s.seq = .run (.squeeze 2) 1 ∧ 1 < 2 ∧ s.dout.length < s.params.doutDepth ∧ s.ctx.inWindow ∧
        Claims.AdvancesAtOnce s) ∧
    (running (.squeeze 2) 2 0 .squeezing []).seq = .run (.squeeze 2) 2 := by decide

/-- The checks and the waits of SQUEEZE_XOR, ENCRYPT and DECRYPT have one form. -/
theorem witness_DuplexCommands : ∀ i ∈ [Instr.squeezeXor 2, .encrypt 2, .decrypt 2],
    ((quiet 4).seq = .idle ∧ (quiet 4).ctx.cfg = false) ∧
    (let s := ready 0 .absorbing true;
      s.seq = .idle ∧ s.ctx.cfg = true ∧ s.strict = true ∧ s.ctx.phase = .absorbing) ∧
    (let s := ready 7 .squeezing true;
      s.seq = .idle ∧ s.ctx.cfg = true ∧ ¬(s.strict = true ∧ s.ctx.phase = .absorbing)) ∧
    (let s := running i 1 7 .squeezing [];
      s.seq = .run i 1 ∧ 1 < 2 ∧ s.din = []) ∧
    (let s := full i 1;
      s.seq = .run i 1 ∧ 1 < 2 ∧ s.params.doutDepth ≤ s.dout.length) ∧
    (let s := running i 1 7 .squeezing [5];
      s.seq = .run i 1 ∧ 1 < 2 ∧ s.din = 5 :: [] ∧ s.dout.length < s.params.doutDepth ∧ s.ctx.inWindow ∧
        Claims.AdvancesAtOnce s) ∧
    (running i 2 0 .squeezing []).seq = .run i 2 := by decide

theorem witness_SqueezeXorMasksInputWithTheRate :
    let s := running (.squeezeXor 2) 0 7 .squeezing [5]
    2 ≤ 16777215 ∧ s.seq = .run (.squeezeXor 2) 0 ∧ s.din = 5 :: [] ∧ s.dout.length < s.params.doutDepth ∧
      s.ctx.inWindow ∧ Claims.AdvancesAtOnce s := by decide

theorem witness_EncryptLeavesTheCiphertextInTheState :
    let s := running (.encrypt 2) 0 7 .squeezing [5]
    2 ≤ 16777215 ∧ s.seq = .run (.encrypt 2) 0 ∧ s.din = 5 :: [] ∧ s.dout.length < s.params.doutDepth ∧
      s.ctx.inWindow ∧ Claims.AdvancesAtOnce s := by decide

theorem witness_DecryptLeavesTheCiphertextInTheState :
    let s := running (.decrypt 2) 0 7 .squeezing [5]
    2 ≤ 16777215 ∧ s.seq = .run (.decrypt 2) 0 ∧ s.din = 5 :: [] ∧ s.dout.length < s.params.doutDepth ∧
      s.ctx.inWindow ∧ Claims.AdvancesAtOnce s := by decide

theorem witness_PadAppendsTheSuffixAndPermutes :
    ((quiet 4).seq = .idle ∧ (quiet 4).ctx.cfg = false) ∧
    (let s := ready 7 .squeezing true;
      s.seq = .idle ∧ s.ctx.cfg = true ∧ s.ctx.rate - s.ctx.pos.toNat < 2 ∧
        1 ≤ s.ctx.rate - s.ctx.pos.toNat) ∧
    (let s := running (.pad 3) 2 5 .absorbing [];
      s.seq = .run (.pad 3) 2 ∧ 2 < 3 ∧ s.din = []) ∧
    (let s := running (.pad 3) 2 5 .absorbing [3];
      s.seq = .run (.pad 3) 2 ∧ 2 < 3 ∧ s.din = 3 :: [] ∧ 3 ≤ s.ctx.rate - s.ctx.pos.toNat) ∧
    (let s := running (.pad 3) 3 5 .absorbing [];
      0 < 3 ∧ s.seq = .run (.pad 3) 3 ∧ s.params.permExternal = false) ∧
    (let s := running (.pad 0) 0 5 .absorbing [];
      s.seq = .run (.pad 0) 0 ∧ s.params.permExternal = false) := by decide

theorem witness_ContextCommands : ∀ i ∈ [Instr.rewind, .forget, .ctxSave],
    ((quiet 4).seq = .idle ∧ (quiet 4).ctx.cfg = false) ∧
    ((ready 7 .squeezing true).seq = .idle ∧ (ready 7 .squeezing true).ctx.cfg = true) ∧
    (running i 0 7 .squeezing []).seq = .run i 0 := by decide

theorem witness_RewindMovesOnlyTheCursorAndPhase :
    (running .rewind 0 7 .squeezing []).seq = .run .rewind 0 := by decide

theorem witness_ForgetEqualsAFreshSponge :
    (running .forget 0 7 .squeezing []).seq = .run .forget 0 ∧
      (running .forget 0 7 .squeezing []).ctx.cfg = true := by decide

theorem witness_CtxSavePushesTheContext :
    (let s := full .ctxSave 203;
      s.seq = .run .ctxSave 203 ∧ 203 < 204 ∧ s.params.doutDepth ≤ s.dout.length) ∧
    (let s := running .ctxSave 199 3 .squeezing [];
      s.seq = .run .ctxSave 199 ∧ 199 < 200 ∧ s.dout.length < s.params.doutDepth) ∧
    (let s := running .ctxSave 203 3 .squeezing [];
      s.seq = .run .ctxSave (200 + 3) ∧ 3 < 4 ∧ s.dout.length < s.params.doutDepth) ∧
    (running .ctxSave 204 3 .squeezing []).seq = .run .ctxSave 204 := by decide

theorem witness_CtxLoadReplacesTheContext :
    (136 ≤ 255 ∧ 512 ≤ 2047 ∧ (quiet 4).seq = .idle ∧ 136 ≥ (1600 - 512) / 8) ∧
    ((0 : Nat) ≤ 255 ∧ 100 ≤ 2047 ∧ ¬(100 % 64 = 0 ∧ 100 ≤ 1536)) ∧
    (512 % 64 = 0 ∧ 512 ≤ 1536 ∧ 135 < (1600 - 512) / 8) ∧
    (let s := running (.ctxLoad 135 512 .squeezing) 199 0 .absorbing [];
      s.seq = .run (.ctxLoad 135 512 .squeezing) 199 ∧ 199 < 200 ∧ s.din = []) ∧
    (let s := running (.ctxLoad 135 512 .squeezing) 199 0 .absorbing [9];
      s.seq = .run (.ctxLoad 135 512 .squeezing) 199 ∧ 199 < 200 ∧ s.din = 9 :: []) ∧
    (running (.ctxLoad 135 512 .squeezing) 200 0 .absorbing []).seq =
      .run (.ctxLoad 135 512 .squeezing) 200 := by decide

theorem wf_sponge (pos : BitVec 8) (ph : Phase) : Memory.wf (sponge pos ph).S := by
  show Memory.wf (sponge 0 .absorbing).S
  decide

theorem witness_StoringStepsWriteOneByte :
    (∀ i ∈ [Instr.absorb 1, .encrypt 1, .decrypt 1],
      let s := running i 0 6 .squeezing [5]
      Memory.wf s.ctx.S ∧ s.seq = .run i 0 ∧ 0 < byteSteps i ∧ s.ctx.pos.toNat + 1 ≠ s.ctx.rate ∧
        ∃ t, exec i s = .next t) ∧
    (∀ i ∈ [Instr.pad 1, .ctxLoad 0 0 .absorbing],
      let s := running i 0 7 .squeezing [5]
      Memory.wf s.ctx.S ∧ s.seq = .run i 0 ∧ 0 < byteSteps i ∧ ∃ t, exec i s = .next t) := by
  constructor
  · intro i hi
    simp only [List.mem_cons, List.not_mem_nil, or_false] at hi
    rcases hi with rfl | rfl | rfl <;> exact ⟨wf_sponge _ _, rfl, by decide, by decide, _, rfl⟩
  · intro i hi
    simp only [List.mem_cons, List.not_mem_nil, or_false] at hi
    rcases hi with rfl | rfl <;> exact ⟨wf_sponge _ _, rfl, by decide, _, rfl⟩

theorem witness_NonStoringStepsKeepTheBuffer :
    (∀ i ∈ [Instr.squeeze 1, .squeezeXor 1, .ctxSave, .rewind],
      let s := running i 0 6 .squeezing [5]
      s.seq = .run i 0 ∧ s.ctx.pos.toNat + 1 ≠ s.ctx.rate ∧ ∃ t, exec i s = .next t) ∧
    (∀ i ∈ [Instr.absorb 1, .squeeze 1, .squeezeXor 1, .encrypt 1, .decrypt 1],
      let s := running i 1 6 .squeezing [5]
      s.seq = .run i 1 ∧ ∃ t, exec i s = .next t) := by
  constructor
  · intro i hi
    simp only [List.mem_cons, List.not_mem_nil, or_false] at hi
    rcases hi with rfl | rfl | rfl | rfl <;> exact ⟨rfl, by decide, _, rfl⟩
  · intro i hi
    simp only [List.mem_cons, List.not_mem_nil, or_false] at hi
    rcases hi with rfl | rfl | rfl | rfl | rfl <;> exact ⟨rfl, _, rfl⟩

/-- A state with a configured sponge, no error held and the port quiet meets the invariant. -/
theorem inv_of_parts {s : State} (hm : Memory.wf s.ctx.S) (hx : s.ctx.inWindow)
    (hd : 1 ≤ s.params.cmdqDepth ∧ 1 ≤ s.params.dinDepth ∧ 1 ≤ s.params.doutDepth)
    (hq : s.cmdq.length ≤ s.params.cmdqDepth ∧ s.din.length ≤ s.params.dinDepth ∧
      s.dout.length ≤ s.params.doutDepth)
    (he : s.err = false ∧ s.code = .none ∧ s.eop = 0 ∧ s.errcmd = 0) (hr : s.rst = false)
    (hp : s.perm.req = false ∧ s.perm.ack = false)
    (hrun : ∀ i k, s.seq = .run i k →
      WellFormed i ∧ k ≤ byteSteps i ∧ (needsCfg i = true → s.ctx.cfg = true) ∧ paramsOk s.ctx i = true) :
    Inv s where
  memory := hm
  context := fun _ => hx
  depths := hd
  queues := hq
  noError := fun _ => he.2
  halted := fun h => by rw [he.1] at h; cases h
  running := hrun
  inReset := fun h => by rw [hr] at h; cases h
  port := fun h => by rw [hp.1] at h; cases h
  acked := fun h => by rw [hp.2] at h; cases h

/-- A command under execution on the test sponge, with few input bytes, meets the invariant. -/
theorem inv_running {i : Instr} {k : Nat} {pos : BitVec 8} {ph : Phase} {din : List Byte}
    (hpos : pos.toNat < 8) (hdin : din.length ≤ 4)
    (hi : WellFormed i ∧ k ≤ byteSteps i ∧ paramsOk (sponge pos ph) i = true) :
    Inv (running i k pos ph din) :=
  inv_of_parts (wf_sponge pos ph) ⟨by show legalCap (1536 : BitVec 11).toNat = true; decide, by
      show pos.toNat < rateOf (1536 : BitVec 11).toNat
      rw [show rateOf (1536 : BitVec 11).toNat = 8 by decide]
      exact hpos⟩
    ⟨by show 1 ≤ 4; decide, by show 1 ≤ 4; decide, by show 1 ≤ 4; decide⟩
    ⟨Nat.zero_le _, hdin, Nat.zero_le _⟩ ⟨rfl, rfl, rfl, rfl⟩ rfl ⟨rfl, rfl⟩
    (fun j l h => by
      have h : Seq.run i k = .run j l := h
      cases h
      exact ⟨hi.1, hi.2.1, fun _ => rfl, hi.2.2⟩)

theorem witness_DataNeverTouchesTheCapacityPart :
    (let s := running (.encrypt 1) 0 6 .squeezing [5];
      Inv s ∧ s.seq = .run (.encrypt 1) 0 ∧ 0 < byteSteps (.encrypt 1) ∧ s.ctx.pos.toNat + 1 ≠ s.ctx.rate ∧
        ∃ t, exec (.encrypt 1) s = .next t) ∧
    (let s := running (.pad 1) 0 7 .squeezing [5];
      Inv s ∧ s.seq = .run (.pad 1) 0 ∧ 0 < byteSteps (.pad 1) ∧ ∃ t, exec (.pad 1) s = .next t) :=
  ⟨⟨inv_running (by decide) (by decide) (by decide), rfl, by decide, by decide, _, rfl⟩,
    inv_running (by decide) (by decide) (by decide), rfl, by decide, _, rfl⟩

theorem witness_OnlyInitAndLoadChangeTheCapacity :
    Inv (running (.init 512) 0 3 .squeezing []) ∧
      ∃ t, step (running (.init 512) 0 3 .squeezing []) = .next t ∧
        t.ctx.cap ≠ (running (.init 512) 0 3 .squeezing []).ctx.cap :=
  ⟨inv_running (by decide) (by decide) (by decide), _, rfl, by decide⟩

theorem witness_OnlyInitAndLoadChangeTheCapacity_reset :
    let s := hostNext (running .rewind 0 3 .squeezing []) .reset
    Inv s ∧ ∃ t, step s = .next t ∧ t.ctx.cap ≠ s.ctx.cap :=
  ⟨inv_of_parts (wf_sponge _ _) (by decide) (by decide) (by decide) ⟨rfl, rfl, rfl, rfl⟩ rfl ⟨rfl, rfl⟩
    (fun i k h => by cases h; decide), _, rfl, by decide⟩

theorem witness_WhoWritesPhaseAndConfigured :
    (let s := running (.ctxLoad 0 0 .squeezing) 200 3 .absorbing [];
      ∃ t, step s = .next t ∧ s.ctx.phase = .absorbing ∧ t.ctx.phase = .squeezing) ∧
    (let s := running .rewind 0 3 .squeezing [];
      ∃ t, step s = .next t ∧ s.ctx.phase = .squeezing ∧ t.ctx.phase = .absorbing) ∧
    (let s : State := { quiet 4 with seq := .run (.init 512) 0 };
      ∃ t, step s = .next t ∧ s.ctx.cfg = false ∧ t.ctx.cfg = true) ∧
    (let s : State := { quiet 4 with seq := .run (.ctxLoad 0 0 .absorbing) 200 };
      ∃ t, step s = .next t ∧ s.ctx.cfg = false ∧ t.ctx.cfg = true) ∧
    (let s := hostNext (running .rewind 0 3 .squeezing []) .reset;
      ∃ t, step s = .next t ∧ s.ctx.phase = .squeezing ∧ t.ctx.phase = .absorbing ∧ s.ctx.cfg = true ∧
        t.ctx.cfg = false) :=
  ⟨⟨_, rfl, rfl, rfl⟩, ⟨_, rfl, rfl, rfl⟩, ⟨_, rfl, rfl, rfl⟩, ⟨_, rfl, rfl, rfl⟩, ⟨_, rfl, rfl, rfl, rfl, rfl⟩⟩

theorem witness_StatusAndConfigShowEveryField :
    (ready 3 .squeezing true).seq = .idle ∧ (0x04 : BitVec 8) &&& 0xFC = 0x04 ∧ (0x0B : BitVec 8) &&& 0xFC = 0x08 := by
  decide

theorem witness_BusyReadsAreExactOutsideTheContext :
    (running .rewind 0 3 .squeezing []).seq = .run .rewind 0 ∧ (0x07 : BitVec 8) &&& 0xFC = 0x04 ∧
      (0x08 : BitVec 8) &&& 0xFC = 0x08 := by decide

theorem witness_ErrstatReadsAndClearsTheRecord :
    let s := hostNext (raiseError .phase 0x103 (quiet 4)) (.regWrite 0x0C 1)
    s.rst = false ∧ s.turns = .host :: [] ∧ s.host = .regWrite 0x0C 1 :: [] ∧ (0x0C : BitVec 8) &&& 0xFC = 0x0C := by
  decide

theorem witness_CtrlSetsModesAndFlushes :
    (let s := hostNext (ready 3 .squeezing true) (.regWrite 0x00 0x703);
      s.rst = false ∧ s.turns = .host :: [] ∧ s.host = .regWrite 0x00 0x703 :: [] ∧ s.seq = .idle) ∧
    (let s := hostNext (running .rewind 0 3 .squeezing []) (.regWrite 0x00 0x703);
      s.rst = false ∧ s.turns = .host :: [] ∧ s.host = .regWrite 0x00 0x703 :: [] ∧ s.seq = .run .rewind 0) := by
  decide

theorem witness_OtherAccessesChangeNothing :
    (let s := hostNext (ready 3 .squeezing true) (.regRead 0xFF);
      s.turns = .host :: [] ∧ s.host = .regRead 0xFF :: [] ∧ 0x14 ≤ (0xFF : BitVec 8).toNat) ∧
    (let s := hostNext (ready 3 .squeezing true) (.regWrite 0x14 1);
      s.turns = .host :: [] ∧ s.host = .regWrite 0x14 1 :: [] ∧ 0x14 ≤ (0x14 : BitVec 8).toNat) ∧
    (let s := hostNext (ready 3 .squeezing true) (.regWrite 0x10 1);
      s.turns = .host :: [] ∧ s.host = .regWrite 0x10 1 :: [] ∧ (0x10 : BitVec 8) &&& 0xFC = 0x10) := by decide

theorem witness_IrqFollowsErrorAndEnable :
    (let s : State := { quiet 4 with ie := true, cmdq := [0] };
      ∃ t, step s = .next t ∧ s.irq = false ∧ t.irq = true) ∧
    (let s := hostNext (raiseError .illegal 0 (quiet 4)) (.regWrite 0x00 2);
      ∃ t, step s = .next t ∧ s.irq = false ∧ t.irq = true) ∧
    (let s := hostNext (raiseError .illegal 0 { quiet 4 with ie := true }) (.regWrite 0x0C 1);
      ∃ t, step s = .next t ∧ s.irq = true ∧ t.irq = false) ∧
    (let s := hostNext (raiseError .illegal 0 (quiet 4)) (.regWrite 0x02 2);
      s.rst = false ∧ s.turns = .host :: [] ∧ s.host = .regWrite 0x02 2 :: [] ∧ portOffset 0x02 = 0x00 ∧
        portOffset 0x0F = 0x0C) :=
  ⟨⟨_, rfl, rfl, rfl⟩, ⟨_, rfl, rfl, rfl⟩, ⟨_, rfl, rfl, rfl⟩, by decide⟩

theorem witness_QueuesAreBoundedFirstInFirstOut :
    (let s := hostNext (quiet 4) (.pushCmd 8);
      s.rst = false ∧ s.turns = .host :: [] ∧ s.host = .pushCmd 8 :: []) ∧
    (let s := hostNext (running (.absorb 1) 0 0 .absorbing [1, 2, 3, 4]) (.pushDin 8);
      s.rst = false ∧ s.turns = .host :: [] ∧ s.host = .pushDin 8 :: []) ∧
    (let s := hostNext (full (.squeeze 1) 0) .popDout;
      s.rst = false ∧ s.turns = .host :: [] ∧ s.host = .popDout :: []) := by decide

theorem witness_HostStepsRaiseNoError :
    (hostNext (quiet 4) .popDout).turns = .host :: [] ∧ ∃ t, step (hostNext (quiet 4) .popDout) = .next t :=
  ⟨rfl, _, rfl⟩

theorem witness_ResetRestoresEveryField :
    let s := hostNext (full (.squeeze 2) 1) .reset
    s.turns = .host :: [] ∧ s.host = .reset :: [] := by decide

/-- The core with `rst` asserted. -/
def held : State := { resetCore (ready 3 .squeezing true) with rst := true }

theorem witness_AssertedResetHoldsEverything : Inv held ∧ held.rst = true :=
  ⟨{ memory := by decide
     context := fun h => by cases h
     depths := by decide
     queues := by decide
     noError := fun _ => by decide
     halted := fun h => by cases h
     running := fun _ _ h => by cases h
     inReset := fun _ => rfl
     port := fun h => by cases h
     acked := fun h => by cases h }, rfl⟩

theorem witness_LanesAreLittleEndian : (4 < 5 ∧ 4 < 5) ∧ 7 < 8 := by decide

theorem witness_PiMovesLanesByItsFirstForm : (0 < 5 ∧ 4 < 5) ∧ 23 < 24 ∧ 63 < 64 := by decide

theorem witness_KeccakIsInjective : ∃ bs bs' : List Byte, bs.length = 200 ∧ bs'.length = 200 ∧
    keccakBytes bs = keccakBytes bs' :=
  ⟨List.replicate 200 0, List.replicate 200 0, List.length_replicate, List.length_replicate, rfl⟩

/-- A naked pad over the external port, not yet requested. -/
def outside : State := { running (.pad 0) 0 3 .absorbing [] with params := ⟨4, 4, 4, true⟩, turns := [.core, .perm, .core] }

/-- The same, requested. -/
def requested : State :=
  { outside with perm := { PermPort.reset with req := true, din := busOfBytes (Memory.toBytes outside.ctx.S) } }

/-- The same, acknowledged. -/
def acknowledged : State :=
  { outside with perm := {
      req := true, din := busOfBytes (Memory.toBytes outside.ctx.S), ack := true,
      dout := keccakBus (busOfBytes (Memory.toBytes outside.ctx.S)) } }

theorem running_outside : ∀ i k, outside.seq = .run i k →
    WellFormed i ∧ k ≤ byteSteps i ∧ (needsCfg i = true → outside.ctx.cfg = true) ∧
      paramsOk outside.ctx i = true := by
  intro i k h
  cases h
  decide

theorem inv_outside : Inv outside :=
  inv_of_parts (wf_sponge _ _) (by decide) (by decide) (by decide) ⟨rfl, rfl, rfl, rfl⟩ rfl ⟨rfl, rfl⟩ running_outside

theorem inv_requested : Inv requested :=
  { inv_outside with
    inReset := fun h => by cases h
    port := fun _ => ⟨rfl, .pad 0, 0, _, rfl, rfl, rfl⟩
    acked := fun h => by cases h }

theorem inv_acknowledged : Inv acknowledged :=
  { inv_outside with
    inReset := fun h => by cases h
    port := fun _ => ⟨rfl, .pad 0, 0, _, rfl, rfl, rfl⟩
    acked := fun _ => ⟨rfl, rfl⟩ }

theorem witness_PermutationRequestLeavesTheStepPending :
    Inv outside ∧ outside.seq = .run (.pad 0) 0 ∧ ∃ t, exec (.pad 0) outside = .next t ∧ t.perm.req = true :=
  ⟨inv_outside, rfl, _, rfl, rfl⟩

theorem witness_ExternalPermutationGivesTheInternalResult :
    Inv acknowledged ∧ acknowledged.seq = .run (.pad 0) 0 ∧ acknowledged.perm.req = true ∧
      acknowledged.perm.ack = true := ⟨inv_acknowledged, rfl, rfl, rfl⟩

theorem witness_ExternalStepsComplete :
    Inv outside ∧ outside.seq = .run (.pad 0) 0 ∧ outside.rst = false ∧ outside.perm.req = false ∧
      outside.params.permExternal = true ∧ outside.turns = [.core, .perm, .core] :=
  ⟨inv_outside, rfl, rfl, rfl, rfl, rfl⟩

theorem witness_BufferShowsOnlyInCommandOutput :
    ∀ i ∈ [Instr.init 512, .absorb 1, .pad 1, .rewind, .forget, .ctxLoad 0 0 .absorbing],
      (running i 0 3 .absorbing [5]).params.permExternal = false ∧
        ∃ t, exec i (running i 0 3 .absorbing [5]) = .next t := by
  intro i hi
  simp only [List.mem_cons, List.not_mem_nil, or_false] at hi
  rcases hi with rfl | rfl | rfl | rfl | rfl | rfl <;> exact ⟨rfl, _, rfl⟩

theorem witness_StepKeepsTheInvariant :
    Inv (running (.absorb 1) 0 3 .absorbing [5]) ∧
      ∃ t, step (running (.absorb 1) 0 3 .absorbing [5]) = .next t :=
  ⟨inv_running (by decide) (by decide) (by decide), _, rfl⟩

theorem witness_InvariantStepsNeverStop : Inv (running (.decrypt 1) 0 7 .squeezing [5]) :=
  inv_running (by decide) (by decide) (by decide)

theorem witness_AbsorbCommandCompletes :
    let s := running (.absorb 2) 0 7 .absorbing [1, 2, 3]
    Claims.CoreAlone s ∧ s.params.permExternal = false ∧ s.ctx.inWindow ∧
      s.seq = .run (.absorb [1, 2].length) 0 ∧ s.din = [1, 2] ++ [3] := by decide

theorem witness_SqueezeCommandCompletes :
    let s := running (.squeeze 4) 0 7 .squeezing []
    Claims.CoreAlone s ∧ s.params.permExternal = false ∧ s.ctx.inWindow ∧ s.seq = .run (.squeeze 4) 0 ∧
      s.dout.length + 4 ≤ s.params.doutDepth := by decide

theorem witness_CursorAndPermutationCount :
    (sponge 7 .absorbing).inWindow ∧
    (∀ i ∈ [Instr.absorb 2, .squeeze 2, .squeezeXor 2, .encrypt 2, .decrypt 2],
      let s := running i 0 7 .squeezing [1, 2]
      Claims.CoreAlone s ∧ s.params.permExternal = false ∧ s.ctx.inWindow ∧ s.seq = .run i 0 ∧ 2 ≤ s.din.length ∧
        s.dout.length + 2 ≤ s.params.doutDepth) := by decide

theorem witness_AbsorbIsChunkIndependent :
    let s : State := { ready 7 .absorbing true with din := [1, 2, 3] }
    let parts : List (List Byte) := [[1], [], [2]]
    Claims.ReadyAlone s ∧ s.ctx.cfg = true ∧ s.ctx.inWindow ∧ ¬(s.strict = true ∧ s.ctx.phase = .squeezing) ∧
      s.cmdq = [] ∧ s.din = parts.flatten ++ [3] ∧ parts.flatten.length ≤ 16777215 := by decide

theorem witness_SqueezeIsChunkIndependent :
    let s := ready 7 .squeezing true
    Claims.ReadyAlone s ∧ s.ctx.cfg = true ∧ s.ctx.inWindow ∧ ¬(s.strict = true ∧ s.ctx.phase = .absorbing) ∧
      s.cmdq = [] ∧ s.dout.length + [1, 0, 3].sum ≤ s.params.doutDepth ∧ [1, 0, 3].sum ≤ 16777215 := by decide

theorem witness_SqueezeIsChunkIndependent_input :
    let s : State := { ready 7 .squeezing true with din := [1, 2, 3] }
    let parts : List (List Byte) := [[1], [], [2]]
    Claims.ReadyAlone s ∧ s.ctx.cfg = true ∧ s.ctx.inWindow ∧ ¬(s.strict = true ∧ s.ctx.phase = .absorbing) ∧
      s.cmdq = [] ∧ s.din = parts.flatten ++ [3] ∧ s.dout.length + parts.flatten.length ≤ s.params.doutDepth ∧
      parts.flatten.length ≤ 16777215 := by decide

theorem witness_SqueezeXorIsInputXorSqueeze :
    let s : State := { ready 7 .squeezing true with din := [1, 2, 3] }
    Claims.CoreAlone s ∧ s.params.permExternal = false ∧ s.ctx.inWindow ∧ s.din = [1, 2] ++ [3] ∧
      s.dout.length + [1, 2].length ≤ s.params.doutDepth := by decide

theorem witness_EncryptLeavesTheContextOfAbsorb :
    let s : State := { ready 7 .squeezing true with din := [1, 2] }
    Claims.CoreAlone s ∧ s.params.permExternal = false ∧ s.ctx.inWindow ∧ s.din = [1, 2] ++ [] ∧
      s.dout.length + [1, 2].length ≤ s.params.doutDepth := by decide

theorem witness_DecryptUndoesEncrypt :
    (let s := running (.encrypt 2) 0 7 .squeezing [1, 2];
      Claims.CoreAlone s ∧ s.params.permExternal = false ∧ s.ctx.inWindow ∧ s.seq = .run (.encrypt [1, 2].length) 0 ∧
        s.din = [1, 2] ++ [] ∧ s.dout.length + [1, 2].length ≤ s.params.doutDepth) ∧
    ∀ c : List Byte,
      let s' := running (.decrypt 2) 0 7 .squeezing c
      Claims.CoreAlone s' ∧ s'.params.permExternal = false ∧
        s'.ctx = (running (.encrypt 2) 0 7 .squeezing [1, 2]).ctx ∧ s'.seq = .run (.decrypt 2) 0 ∧ s'.din = c ++ [] ∧
        s'.dout.length + 2 ≤ s'.params.doutDepth :=
  ⟨by decide, fun c => ⟨⟨rfl, rfl⟩, rfl, rfl, rfl, (List.append_nil c).symm, by show 0 + 2 ≤ 4; decide⟩⟩

/-- A core saving its context, with room for all 204 bytes. -/
def saving : State := { running .ctxSave 0 7 .squeezing [] with params := ⟨4, 4, 204, false⟩ }

theorem witness_SaveThenLoadCopiesTheContext :
    (Claims.CoreAlone saving ∧ Inv saving ∧ saving.ctx.cfg = true ∧ saving.seq = .run .ctxSave 0 ∧
      saving.dout = [] ∧ 204 ≤ saving.params.doutDepth) ∧
    ∀ (w : Word) (d : List Byte), let s' : State := { quiet 4 with cmdq := [w], din := d }
      Claims.CoreAlone s' ∧ Memory.wf s'.ctx.S ∧ s'.seq = .idle ∧ s'.err = false ∧ s'.cmdq = [w] ∧ s'.din = d :=
  ⟨⟨by decide,
      inv_of_parts (wf_sponge _ _) (by decide) (by decide) (by decide) ⟨rfl, rfl, rfl, rfl⟩ rfl ⟨rfl, rfl⟩
        (fun i k h => by cases h; decide),
      rfl, rfl, rfl, by decide⟩,
    fun _ _ => ⟨⟨rfl, rfl⟩, zero_wf, rfl, rfl, rfl, rfl⟩⟩

/-- A byte or a slot comes from the host, or none does. -/
def served (s : State) (hs : List HostStep) : State := { s with host := hs }

theorem witness_StuckIsWaitingForEverAndNoEnd_waits :
    (let s := running (.absorb 1) 0 0 .absorbing [];
      s.rst = false ∧ s.seq = .run (.absorb 1) 0 ∧ 0 < byteSteps (.absorb 1) ∧ s.din = []) ∧
    (let s := full .ctxSave 0;
      s.rst = false ∧ s.seq = .run .ctxSave 0 ∧ 0 < byteSteps .ctxSave ∧ s.params.doutDepth ≤ s.dout.length) ∧
    (let s := full (.decrypt 1) 0;
      s.rst = false ∧ s.seq = .run (.decrypt 1) 0 ∧ 0 < byteSteps (.decrypt 1) ∧
        s.params.doutDepth ≤ s.dout.length) ∧
    (Inv requested ∧ requested.perm.req = true ∧ requested.perm.ack = false) ∧
    CoreWaits (running (.absorb 1) 0 0 .absorbing []) :=
  ⟨by decide, by decide, by decide, ⟨inv_requested, rfl, rfl⟩, rfl, by simp [running], rfl⟩

theorem witness_StuckIsWaitingForEverAndNoEnd_stuck :
    (let s := served (running (.absorb 1) 0 0 .absorbing []) [.popDout, .pushCmd 8];
      s.rst = false ∧ s.seq = .run (.absorb 1) 0 ∧ 0 < byteSteps (.absorb 1) ∧ HostStep.reset ∉ s.host ∧
        HostStep.setRst true ∉ s.host ∧ s.din = [] ∧ s.host.filterMap HostStep.pushedByte = []) ∧
    (let s := served (full .ctxSave 0) [.pushDin 1];
      s.rst = false ∧ s.seq = .run .ctxSave 0 ∧ 0 < byteSteps .ctxSave ∧ HostStep.reset ∉ s.host ∧
        HostStep.setRst true ∉ s.host ∧ s.params.doutDepth ≤ s.dout.length ∧ HostStep.popDout ∉ s.host) ∧
    (HostStep.reset ∉ requested.host ∧ HostStep.setRst true ∉ requested.host) := by
  refine ⟨by decide, by decide, ?_, ?_⟩ <;> exact List.not_mem_nil

theorem witness_StuckIsWaitingForEverAndNoEnd_served :
    (let s := served (running (.absorb 1) 0 7 .absorbing []) [.pushDin 5];
      Inv s ∧ s.seq = .run (.absorb 1) 0 ∧ 0 < byteSteps (.absorb 1) ∧ s.din = [] ∧ s.host = .pushDin 5 :: []) ∧
    (let s := served (full (.squeeze 1) 0) [.popDout];
      Inv s ∧ s.seq = .run (.squeeze 1) 0 ∧ 0 < byteSteps (.squeeze 1) ∧ s.params.doutDepth ≤ s.dout.length ∧
        s.host = .popDout :: []) := by
  refine ⟨⟨?_, rfl, by decide, rfl, rfl⟩, ?_, rfl, by decide, by decide, rfl⟩ <;>
    exact inv_of_parts (wf_sponge _ _) (by decide) (by decide) (by decide) ⟨rfl, rfl, rfl, rfl⟩ rfl ⟨rfl, rfl⟩
      (fun i k h => by cases h; decide)

/-- One word and one byte pushed and the word issued, from a launch state with `STRICT` set. -/
theorem witness_StuckIsWaitingForEverAndNoEnd_run :
    ∃ t, Program.Run ⟨[0x02000001], [0x61]⟩ { quiet 4 with strict := true } t ∧ t.seq = .run (.init 512) 0 :=
  ⟨_, ⟨⟨true, false, ⟨4, 4, 4, false⟩, by decide, by decide, by decide, rfl⟩,
    [.pushCmd 0x02000001, .pushDin 0x61], [.host, .host, .core], 3,
    ⟨by decide, rfl, rfl⟩, rfl⟩, rfl⟩

theorem witness_AssemblyEncodesCommandsAndData :
    ¬WellFormed (.pad 256) ∧ (∀ i ∈ [Instr.pad 255, .ctxSave], WellFormed i) ∧
      (∃ p, assembleLine (.encryptData [1, 2, 3]) = some p) ∧ (∀ i, Line.padSha3 ≠ .command i) ∧
      (List.replicate 16777215 (0 : Byte)).length ≤ 16777215 ∧
      16777215 < (List.replicate 16777216 (0 : Byte)).length :=
  ⟨by decide, by decide, ⟨_, rfl⟩, fun _ => by simp, by rw [List.length_replicate], by rw [List.length_replicate]; decide⟩

end Sys2Proof.Tests
end

section
/-! PROOFS. The host's steps, said once each: when a step is enabled and what it then does (40_sequencer.md R96). -/

namespace Sys2Proof.Machine

/-- A push onto `CMDQ` is enabled while the queue has room (10_state.md R25). -/
theorem hostAction_pushCmd_eq_some {s t : State} {v : Word} :
    hostAction (.pushCmd v) s = some t ↔
      (s.rst = false ∧ s.cmdq.length < s.params.cmdqDepth) ∧ { s with cmdq := s.cmdq ++ [v] } = t := by
  simp [hostAction]

/-- A push onto `DIN` is enabled while the queue has room. -/
theorem hostAction_pushDin_eq_some {s t : State} {b : Byte} :
    hostAction (.pushDin b) s = some t ↔
      (s.rst = false ∧ s.din.length < s.params.dinDepth) ∧ { s with din := s.din ++ [b] } = t := by
  simp [hostAction]

/-- A pop is enabled while `DOUT` holds a byte, and takes the oldest. -/
theorem hostAction_popDout_eq_some {s t : State} :
    hostAction .popDout s = some t ↔ ∃ b rest, s.dout = b :: rest ∧ s.rst = false ∧
      { s with dout := rest, popped := s.popped ++ [b] } = t := by
  cases hd : s.dout <;> simp [hostAction, hd]

/-- A CTRL write while a command runs sets the two modes alone (10_state.md R32). -/
theorem writeCtrl_run {s : State} {i : Instr} {k : Nat} (hs : s.seq = .run i k) (v : Word) :
    writeCtrl v s = { s with strict := v.getLsbD 0, ie := v.getLsbD 1 } := by
  simp [writeCtrl, flush, State.busy, hs]

/-- A CTRL write to an idle core sets the two modes and flushes the queues it names (10_state.md R31). -/
theorem writeCtrl_idle {s : State} (hs : s.seq = .idle) (v : Word) :
    writeCtrl v s = { s with
      strict := v.getLsbD 0, ie := v.getLsbD 1, cmdq := if v.getLsbD 8 then [] else s.cmdq,
      din := if v.getLsbD 9 then [] else s.din, dout := if v.getLsbD 10 then [] else s.dout } := by
  simp [writeCtrl, flush, State.busy, hs]

/-- No CTRL write reaches the context. -/
@[simp] theorem writeCtrl_ctx (v : Word) (s : State) : (writeCtrl v s).ctx = s.ctx := by
  cases hs : s.seq with
  | idle => rw [writeCtrl_idle hs]
  | run i k => rw [writeCtrl_run hs]

theorem regWrite_of_rst {s : State} (hr : s.rst = true) (off : BitVec 8) (v : Word) : regWrite off v s = s :=
  if_pos hr

theorem regWrite_ctrl {s : State} (hr : s.rst = false) {off : BitVec 8} (ho : portOffset off = 0x00) (v : Word) :
    regWrite off v s = writeCtrl v s := by
  simp [regWrite, hr, ho]

theorem regWrite_errstat {s : State} (hr : s.rst = false) {off : BitVec 8} (ho : portOffset off = 0x0C) (v : Word) :
    regWrite off v s = if v.getLsbD 0 then clearError s else s := by
  simp [regWrite, hr, ho]

/-- A write to any register but CTRL and ERRSTAT is ignored (10_state.md R27, R40). -/
theorem regWrite_ignored {off : BitVec 8} (h : portOffset off ≠ 0x00) (h' : portOffset off ≠ 0x0C) (v : Word)
    (s : State) : regWrite off v s = s := by
  simp [regWrite, h, h']

/-- Everything a register write can be: ignored, a CTRL write, or the clearing of the error record. -/
theorem regWrite_cases (off : BitVec 8) (v : Word) (s : State) :
    regWrite off v s = s ∨ s.rst = false ∧ (regWrite off v s = writeCtrl v s ∨ regWrite off v s = clearError s) := by
  cases hr : s.rst with
  | true => exact .inl (regWrite_of_rst hr off v)
  | false =>
    by_cases h : portOffset off = 0x00
    · exact .inr ⟨rfl, .inl (regWrite_ctrl hr h v)⟩
    · by_cases h' : portOffset off = 0x0C
      · rw [regWrite_errstat hr h']
        split
        · exact .inr ⟨rfl, .inr rfl⟩
        · exact .inl rfl
      · exact .inl (regWrite_ignored h h' v s)

/-- The step of the host's turn: its first coming step, or its waiting with it. -/
theorem step_of_hostStep {s : State} {ts : List Agent} {a : HostStep} {hs : List HostStep}
    (ht : s.turns = .host :: ts) (hh : s.host = a :: hs) :
    step s = .next ((hostAction a { s with turns := ts, host := hs }).getD { s with turns := ts }) := by
  rw [step_of_host ht, hostTurn_cons (s := { s with turns := ts }) hh]

end Sys2Proof.Machine
end

section
/-! PROOFS. The invariant of every run: what each agent's turn makes of a state that meets it, and O47 and O48. -/

namespace Sys2Proof.Machine

/-! ### Decoded commands -/

/-- Every row of the opcode map reads its operands from fields, so what it gives is well-formed (30_encoding.md R66 to
R71). -/
theorem operands_wellFormed {r : OpRow} (hr : r ∈ opcodeMap) (w : Word) : WellFormed (r.operands w) := by
  have h8 : field w 8 8 < 256 := field_lt ..
  have h11 : field w 16 11 < 2048 := field_lt ..
  have h24 : field w 8 24 < 16777216 := field_lt ..
  simp only [opcodeMap, List.mem_cons, List.not_mem_nil, or_false] at hr
  rcases hr with rfl | rfl | rfl | rfl | rfl | rfl | rfl | rfl | rfl | rfl | rfl <;>
    simp only [WellFormed, Instr.wf, Bool.and_eq_true, decide_eq_true_eq] <;> omega

theorem decode_wellFormed {w : Word} {i : Instr} (h : decode w = .ok i) : WellFormed i := by
  obtain ⟨r, hr, -, rfl⟩ := matches_of_decode h
  exact operands_wellFormed hr w

/-! ### What a step of a running command keeps of the context -/

/-- A byte step leaves all the parameter check of its own command reads (40_sequencer.md R81). -/
theorem paramsOk_byteContext (i : Instr) (k : Nat) (b : Byte) (c : Context) :
    paramsOk (byteContext i k b c) i = paramsOk c i := by
  cases i <;> rfl

/-- The parameter check does not read `S`. -/
theorem paramsOk_withS (c : Context) (m : Memory) (i : Instr) : paramsOk { c with S := m } i = paramsOk c i := by
  cases i <;> rfl

/-- A byte step keeps `POS` in the rate window of a legal `CAP` (10_state.md R21). -/
theorem byteContext_inWindow {i : Instr} {k : Nat} {b : Byte} {c : Context} (h : c.inWindow) :
    (byteContext i k b c).inWindow :=
  ⟨by rw [byteContext_cap]; exact h.1, by rw [byteContext_rate]; exact byteContext_pos_lt h⟩

/-- Position 0 is in the rate window of every legal capacity. -/
theorem zero_inWindow {c : Context} (h : legalCap c.cap.toNat = true) (hp : c.pos = 0) : c.inWindow := by
  have : 8 ≤ c.rate := rateOf_of_legal h
  refine ⟨h, ?_⟩
  rw [hp]
  exact Nat.lt_of_lt_of_le (by decide) this

/-- An 11-bit capacity operand is what the `CAP` register then holds. -/
theorem toNat_cap {cap : Nat} (h : legalCap cap = true) : (BitVec.ofNat 11 cap).toNat = cap := by
  have := ((legalCap_iff cap).mp h).2
  exact (BitVec.toNat_ofNat ..).trans (Nat.mod_eq_of_lt (by omega))

/-- The finish step of a checked command leaves a configured context in its rate window. -/
theorem finishContext_inWindow {i : Instr} {c : Context} (hp : paramsOk c i = true)
    (hx : c.cfg = true → c.inWindow) : (finishContext i c).cfg = true → (finishContext i c).inWindow := by
  intro hc
  cases i with
  | init cap =>
    have hl : legalCap cap = true := hp
    exact zero_inWindow (by simpa only [finishContext, toNat_cap hl] using hl) rfl
  | ctxLoad pos cap ph =>
    obtain ⟨hl, hpos⟩ : legalCap cap = true ∧ pos < rateOf cap := by
      simpa only [paramsOk, Bool.and_eq_true, decide_eq_true_eq] using hp
    simp only [Context.inWindow, finishContext, Context.rate, toNat_cap hl, BitVec.toNat_ofNat]
    exact ⟨hl, Nat.lt_of_le_of_lt (Nat.mod_le ..) hpos⟩
  | pad n => exact zero_inWindow (hx hc).1 rfl
  | rewind => exact zero_inWindow (hx hc).1 rfl
  | forget => exact zero_inWindow (hx hc).1 rfl
  | _ => exact hx hc

/-- A finish step keeps the canonical form of `S`. -/
theorem finishContext_wf {i : Instr} {c : Context} (h : Memory.wf c.S) : Memory.wf (finishContext i c).S := by
  cases i with
  | init cap => exact zero_wf
  | forget => exact zero_wf
  | pad n =>
    have hr := rate_le c
    simp only [finishContext]
    split
    · exact h
    · exact setByte_wf h (by show c.rate - 1 < 200; omega) _
  | _ => exact h

/-! ### What the invariant says of the error record, the port and the pending step -/

/-- No error is held while a command is under execution (60_exceptions.md R152). -/
theorem Inv.err_of_run {s : State} (h : Inv s) {i : Instr} {k : Nat} (hs : s.seq = .run i k) : s.err = false := by
  by_contra he
  obtain ⟨-, -, hi⟩ := h.halted (by simpa using he)
  rw [hs] at hi
  cases hi

/-- Nothing is requested on the port while no command is under execution. -/
theorem Inv.req_of_idle {s : State} (h : Inv s) (hi : s.seq = .idle) : s.perm.req = false := by
  by_contra hr
  obtain ⟨-, i, k, t, hs, -⟩ := h.port (by simpa using hr)
  rw [hi] at hs
  cases hs

/-- Nothing is acknowledged that is not requested. -/
theorem Inv.ack_of_req {s : State} (h : Inv s) (hr : s.perm.req = false) : s.perm.ack = false := by
  by_contra ha
  rw [(h.acked (by simpa using ha)).1] at hr
  cases hr

/-- Nothing is requested by a step that does not call for the permutation. -/
theorem Inv.req_of_done {s u : State} (h : Inv s) {i : Instr} {k : Nat} (hs : s.seq = .run i k)
    (he : effectOf i k s = .done u) : s.perm.req = false := by
  by_contra hr
  obtain ⟨-, i', k', t, hs', he', -⟩ := h.port (by simpa using hr)
  obtain ⟨rfl, rfl⟩ := Seq.run.inj (hs.symm.trans hs')
  rw [he] at he'
  cases he'

/-- With the permutation internal nothing is requested. -/
theorem Inv.req_of_internal {s : State} (h : Inv s) (hp : s.params.permExternal = false) :
    s.perm.req = false := by
  by_contra hr
  rw [(h.port (by simpa using hr)).1] at hp
  cases hp

/-- While `rst` is asserted the core is idle. -/
theorem Inv.idle_of_rst {s : State} (h : Inv s) (hr : s.rst = true) : s.seq = .idle := by
  rw [h.inReset hr]
  rfl

/-- A permuting step stays the same permuting step when fields no command reads change. -/
theorem permute_of_same {i : Instr} {k : Nat} {s s' t : State} (h : effectOf i k s = .permute t)
    (hctx : s'.ctx = s.ctx) (hdin : s'.din = s.din) (hdout : s'.dout = s.dout) (hparams : s'.params = s.params) :
    ∃ t', effectOf i k s' = .permute t' ∧ t'.ctx = t.ctx :=
  permute_congr h hctx ⟨[], by rw [hdin, List.append_nil]⟩ (by rw [hdout]) (by rw [hparams])

/-- A state's `DIN` extends itself and its `DOUT` is no longer than itself: what a change that leaves both owes a pending
step. -/
theorem queues_kept (s : State) : (∃ l, s.din = s.din ++ l) ∧ s.dout.length ≤ s.dout.length :=
  ⟨⟨[], (List.append_nil _).symm⟩, Nat.le_refl _⟩

/-! ### The turns of the agents outside the core -/

/-- A change of the model's own fields keeps the invariant, if the fields of the hardware stay and so do the
parameters. -/
theorem Inv.withWorld {s : State} (h : Inv s) (hs : List HostStep) (ts : List Agent) (ps : List Byte)
    (rs : List Word) (n : Nat) :
    Inv { s with host := hs, turns := ts, popped := ps, reads := rs, freeCount := n } where
  memory := h.memory
  context := h.context
  depths := h.depths
  queues := h.queues
  noError := h.noError
  halted := h.halted
  running := h.running
  inReset hr := congrArg
    (fun u : State => { u with host := hs, turns := ts, popped := ps, reads := rs, freeCount := n }) (h.inReset hr)
  port hr := by
    obtain ⟨hx, i, k, t, hseq, he, hd⟩ := h.port hr
    obtain ⟨t', he', hc⟩ := permute_of_same (s' := { s with
      host := hs, turns := ts, popped := ps, reads := rs, freeCount := n }) he rfl rfl rfl rfl
    exact ⟨hx, i, k, t', hseq, he', hc ▸ hd⟩
  acked := h.acked

/-- A change outside the context, `SEQ` and the port, out of reset, keeps the invariant, if the queues stay within their
depths and the error record is coherent; while a request is pending `DIN` may only grow and `DOUT` only shrink. -/
theorem Inv.of_outside {s t : State} (h : Inv s) (hctx : t.ctx = s.ctx) (hseq : t.seq = s.seq)
    (hperm : t.perm = s.perm) (hparams : t.params = s.params) (hrst : t.rst = false)
    (hq : t.cmdq.length ≤ s.params.cmdqDepth ∧ t.din.length ≤ s.params.dinDepth ∧
      t.dout.length ≤ s.params.doutDepth)
    (hne : t.err = false → t.code = .none ∧ t.eop = 0 ∧ t.errcmd = 0)
    (hha : t.err = true → t.code ≠ .none ∧ t.eop = t.errcmd.extractLsb' 0 4 ∧ s.seq = .idle)
    (hpend : s.seq ≠ .idle → (∃ l, t.din = s.din ++ l) ∧ t.dout.length ≤ s.dout.length) : Inv t where
  memory := by rw [hctx]; exact h.memory
  context := by rw [hctx]; exact h.context
  depths := by rw [hparams]; exact h.depths
  queues := by rw [hparams]; exact hq
  noError := hne
  halted := by rw [hseq]; exact hha
  running := by rw [hseq, hctx]; exact h.running
  inReset hr := by rw [hrst] at hr; cases hr
  port hr := by
    rw [hperm] at hr ⊢
    obtain ⟨hx, i, k, u, hs, he, hd⟩ := h.port hr
    obtain ⟨hdin, hdout⟩ := hpend (by simp [hs])
    obtain ⟨u', he', hc⟩ := permute_congr (s' := t) he hctx hdin hdout (by rw [hparams])
    exact ⟨by rw [hparams]; exact hx, i, k, u', by rw [hseq]; exact hs, he', hc ▸ hd⟩
  acked := by rw [hperm]; exact h.acked

/-- Every piece at its reset value, with any legal parameters and `rst` at either level, meets the invariant. -/
theorem inv_resetCore {s : State}
    (hd : 1 ≤ s.params.cmdqDepth ∧ 1 ≤ s.params.dinDepth ∧ 1 ≤ s.params.doutDepth) (level : Bool) :
    Inv { resetCore s with rst := level } where
  memory := zero_wf
  context hc := nomatch (show false = true from hc)
  depths := hd
  queues := ⟨Nat.zero_le _, Nat.zero_le _, Nat.zero_le _⟩
  noError _ := ⟨rfl, rfl, rfl⟩
  halted he := nomatch (show false = true from he)
  running _ _ hs := nomatch (show Seq.idle = Seq.run _ _ from hs)
  inReset hr := by
    obtain rfl : level = true := hr
    rfl
  port hr := nomatch (show false = true from hr)
  acked ha := nomatch (show false = true from ha)

/-- Emptying a queue keeps it within its depth. -/
theorem length_flushed_le {α : Type} {l : List α} {n : Nat} (h : l.length ≤ n) (b : Bool) :
    (if b then [] else l).length ≤ n := by
  split
  · exact Nat.zero_le _
  · exact h

/-- A CTRL write keeps the invariant: it shortens queues, and only while no command is under execution. -/
theorem Inv.keep_writeCtrl {s : State} (h : Inv s) (hr : s.rst = false) (v : Word) : Inv (writeCtrl v s) := by
  obtain ⟨hcq, hdq, hoq⟩ := h.queues
  cases hs : s.seq with
  | run i k =>
    rw [writeCtrl_run hs]
    exact h.of_outside rfl rfl rfl rfl hr h.queues h.noError h.halted fun _ => queues_kept s
  | idle =>
    rw [writeCtrl_idle hs]
    exact h.of_outside rfl rfl rfl rfl hr
      ⟨length_flushed_le hcq _, length_flushed_le hdq _, length_flushed_le hoq _⟩ h.noError h.halted
      fun hn => absurd hs hn

/-- Clearing the error record keeps the invariant (60_exceptions.md R157). -/
theorem Inv.keep_clearError {s : State} (h : Inv s) (hr : s.rst = false) : Inv (clearError s) :=
  h.of_outside rfl rfl rfl rfl hr h.queues (fun _ => ⟨rfl, rfl, rfl⟩) (fun he => nomatch (show false = true from he))
    fun _ => queues_kept s

/-- A register write keeps the invariant. -/
theorem Inv.keep_regWrite {s : State} (h : Inv s) (off : BitVec 8) (v : Word) : Inv (regWrite off v s) := by
  rcases regWrite_cases off v s with heq | ⟨hr, heq | heq⟩
  · rw [heq]
    exact h
  · rw [heq]
    exact h.keep_writeCtrl hr v
  · rw [heq]
    exact h.keep_clearError hr

/-- Every host step that is enabled keeps the invariant (40_sequencer.md R96). -/
theorem Inv.keep_hostAction {s t : State} (h : Inv s) {a : HostStep} (ha : hostAction a s = some t) : Inv t := by
  obtain ⟨hcq, hdq, hoq⟩ := h.queues
  cases a with
  | pushCmd v =>
    obtain ⟨⟨hr, hroom⟩, rfl⟩ := hostAction_pushCmd_eq_some.mp ha
    exact h.of_outside rfl rfl rfl rfl hr ⟨by simpa using hroom, hdq, hoq⟩ h.noError h.halted fun _ => queues_kept s
  | pushDin b =>
    obtain ⟨⟨hr, hroom⟩, rfl⟩ := hostAction_pushDin_eq_some.mp ha
    exact h.of_outside rfl rfl rfl rfl hr ⟨hcq, by simpa using hroom, hoq⟩ h.noError h.halted
      fun _ => ⟨⟨[b], rfl⟩, Nat.le_refl _⟩
  | popDout =>
    obtain ⟨b, rest, hd, hr, rfl⟩ := hostAction_popDout_eq_some.mp ha
    have hlen : rest.length ≤ s.dout.length := by simp [hd]
    exact h.of_outside rfl rfl rfl rfl hr ⟨hcq, hdq, hlen.trans hoq⟩ h.noError h.halted fun _ => ⟨(queues_kept s).1, hlen⟩
  | regRead off =>
    cases ha
    exact h.withWorld ..
  | regWrite off v =>
    cases ha
    exact h.keep_regWrite off v
  | reset =>
    cases ha
    exact inv_resetCore h.depths false
  | setRst level =>
    cases ha
    cases level with
    | true => exact inv_resetCore h.depths true
    | false => exact h.of_outside rfl rfl rfl rfl rfl ⟨hcq, hdq, hoq⟩ h.noError h.halted fun _ => queues_kept s

/-- The host's turn keeps the invariant. -/
theorem Inv.keep_hostTurn {s : State} (h : Inv s) : Inv (hostTurn s) := by
  cases hh : s.host with
  | nil => simpa [hostTurn, hh] using h
  | cons a hs =>
    rw [hostTurn_cons hh]
    cases ha : hostAction a { s with host := hs } with
    | none => exact h
    | some t => exact (h.withWorld hs s.turns s.popped s.reads s.freeCount).keep_hostAction ha

/-- The acknowledgement of a request, with `KeccakF` of it, keeps the invariant (45_permutation.md R142). -/
theorem Inv.acknowledge {s : State} (h : Inv s) (hreq : s.perm.req = true) :
    Inv { s with perm := { s.perm with ack := true, dout := keccakBus s.perm.din } } where
  memory := h.memory
  context := h.context
  depths := h.depths
  queues := h.queues
  noError := h.noError
  halted := h.halted
  running := h.running
  inReset hr := absurd ((h.req_of_idle (h.idle_of_rst hr)).symm.trans hreq) (by decide)
  port _ := by
    obtain ⟨hx, i, k, u, hs, he, hd⟩ := h.port hreq
    obtain ⟨u', he', hu⟩ := permute_of_same
      (s' := { s with perm := { s.perm with ack := true, dout := keccakBus s.perm.din } }) he rfl rfl rfl rfl
    exact ⟨hx, i, k, u', hs, he', hu ▸ hd⟩
  acked _ := ⟨hreq, rfl⟩

/-- The turn of the external unit keeps the invariant. -/
theorem Inv.keep_permTurn {s : State} (h : Inv s) : Inv (permTurn s) := by
  unfold permTurn
  split
  · rename_i hc
    simp only [Bool.and_eq_true, Bool.not_eq_true'] at hc
    obtain ⟨⟨-, hreq⟩, -⟩ := hc
    exact h.acknowledge hreq
  · exact h

/-! ### The core's turn -/

/-- The issue step's taking of a word keeps the invariant. -/
theorem Inv.dequeue {s : State} (h : Inv s) (hr : s.rst = false) {w : Word} {rest : List Word}
    (hc : s.cmdq = w :: rest) : Inv { s with cmdq := rest } := by
  obtain ⟨hcq, hdq, hoq⟩ := h.queues
  have hlen : rest.length ≤ s.cmdq.length := by simp [hc]
  exact h.of_outside rfl rfl rfl rfl hr ⟨hlen.trans hcq, hdq, hoq⟩ h.noError h.halted
    fun _ => queues_kept s

/-- Raising an error in an idle core keeps the invariant (60_exceptions.md R151). -/
theorem Inv.keep_raiseError {s : State} (h : Inv s) (hr : s.rst = false) (hi : s.seq = .idle) {e : ErrCode}
    (he : e ≠ .none) (w : Word) : Inv (raiseError e w s) :=
  h.of_outside rfl rfl rfl rfl hr h.queues (fun hn => nomatch (show true = false from hn))
    (fun _ => ⟨he, rfl, hi⟩) fun hn => absurd hi hn

/-- Starting a well-formed command that passed its checks keeps the invariant (40_sequencer.md R80). -/
theorem Inv.start {s : State} (h : Inv s) (hr : s.rst = false) (hi : s.seq = .idle) (he : s.err = false)
    {i : Instr} (hw : WellFormed i) (hc : check s.strict s.ctx i = .none) : Inv (s.withSeq (.run i 0)) where
  memory := h.memory
  context := h.context
  depths := h.depths
  queues := h.queues
  noError := h.noError
  halted he' := absurd (he.symm.trans he') (by decide)
  running j k hs := by
    obtain ⟨rfl, rfl⟩ := Seq.run.inj hs
    obtain ⟨hcfg, -, hp⟩ := (check_none_iff ..).mp hc
    exact ⟨hw, Nat.zero_le _, hcfg, hp⟩
  inReset hr' := absurd (hr.symm.trans hr') (by decide)
  port hq := absurd ((h.req_of_idle hi).symm.trans hq) (by decide)
  acked := h.acked

/-- The issue step of a well-formed command keeps the invariant. -/
theorem Inv.keep_issue {s : State} (h : Inv s) (hr : s.rst = false) (hi : s.seq = .idle) (he : s.err = false)
    {i : Instr} (hw : WellFormed i) : Inv (issue i s) := by
  rcases issue_cases i s with ⟨hc, heq⟩ | ⟨hc, heq⟩
  · rw [heq]
    exact h.start hr hi he hw hc
  · rw [heq]
    exact h.keep_raiseError hr hi hc _

/-- What a byte step or finish step of a running command makes of the context and the queues, before any
permutation. -/
theorem Inv.effect_parts {s u : State} (h : Inv s) {i : Instr} {k : Nat} (hs : s.seq = .run i k)
    (hu : (effectOf i k s).Reaches u) :
    Memory.wf u.ctx.S ∧ (u.ctx.cfg = true → u.ctx.inWindow) ∧ u.din.length ≤ s.params.dinDepth ∧
      u.dout.length ≤ s.params.doutDepth ∧
      (k < byteSteps i → (needsCfg i = true → u.ctx.cfg = true) ∧ paramsOk u.ctx i = true) := by
  obtain ⟨-, -, hcfg, hp⟩ := h.running i k hs
  obtain ⟨-, hdq, hoq⟩ := h.queues
  unfold effectOf at hu
  split at hu
  · obtain ⟨-, hb, ⟨b, hdin, hkeep, hctx⟩, hdout⟩ := reaches_byteEffect hu
    rw [hctx]
    refine ⟨byteContext_wf h.memory hb, fun hc => byteContext_inWindow (h.context ?_), ?_, ?_, fun _ => ⟨?_, ?_⟩⟩
    · simpa using hc
    · cases ht : takesDin i with
      | true =>
        have := congrArg List.length (hdin ht)
        rw [List.length_cons] at this
        omega
      | false => rw [hkeep ht]; exact hdq
    · split at hdout
      · obtain ⟨hroom, o, ho⟩ := hdout
        rw [ho, List.length_append]
        exact hroom
      · rw [hdout]; exact hoq
    · simpa using hcfg
    · rw [paramsOk_byteContext]; exact hp
  · rw [reaches_finishEffect hu]
    exact ⟨finishContext_wf h.memory, finishContext_inWindow hp h.context, hdq, hoq, fun hk => absurd hk ‹_›⟩

/-- A byte step or finish step taken whole, whatever canonical buffer its permutation leaves, keeps the invariant. -/
theorem Inv.effect_taken {s u : State} (h : Inv s) (hr : s.rst = false) {i : Instr} {k : Nat}
    (hs : s.seq = .run i k) (hu : (effectOf i k s).Reaches u) {m : Memory} (hm : Memory.wf m) {p : PermPort}
    (hreq : p.req = false) (hack : p.ack = false) :
    Inv { (u.withSeq (nextSeq i k)).withS m with perm := p } := by
  obtain ⟨-, hctx, hdin, hdout, hstay⟩ := h.effect_parts hs hu
  have hk := reaches_keepsControl hu
  have herr := h.err_of_run hs
  have hdepths : u.params = s.params := hk.params
  exact {
    memory := hm
    context := hctx
    depths := hdepths ▸ h.depths
    queues := hdepths.symm ▸ ⟨hk.cmdq.symm ▸ h.queues.1, hdin, hdout⟩
    noError := fun _ => by simpa [hk.code, hk.eop, hk.errcmd] using h.noError herr
    halted := fun he => absurd (herr.symm.trans (hk.err.symm.trans he)) (by decide)
    running := fun j l hj => by
      rcases nextSeq_cases i k with ⟨hn, hlt⟩ | ⟨hn, -⟩
      · obtain ⟨rfl, rfl⟩ := Seq.run.inj (hn.symm.trans hj)
        obtain ⟨hcfg, hp⟩ := hstay hlt
        exact ⟨(h.running i k hs).1, hlt, hcfg, (paramsOk_withS u.ctx m i).trans hp⟩
      · exact nomatch hn.symm.trans hj
    inReset := fun hr' => absurd (hr.symm.trans (hk.rst.symm.trans hr')) (by decide)
    port := fun hq => absurd (hreq.symm.trans hq) (by decide)
    acked := fun ha => absurd (hack.symm.trans ha) (by decide) }

/-- Raising the request of the pending step keeps the invariant (45_permutation.md R142). -/
theorem Inv.request {s u : State} (h : Inv s) {i : Instr} {k : Nat} (hs : s.seq = .run i k)
    (he : effectOf i k s = .permute u) (hx : s.params.permExternal = true) (hreq : s.perm.req = false)
    (hr : s.rst = false) :
    Inv { s with perm := { s.perm with req := true, din := busOfBytes (Memory.toBytes u.ctx.S) } } where
  memory := h.memory
  context := h.context
  depths := h.depths
  queues := h.queues
  noError := h.noError
  halted := h.halted
  running := h.running
  inReset hr' := absurd (hr.symm.trans hr') (by decide)
  port _ := by
    obtain ⟨u', he', hu⟩ := permute_of_same
      (s' := { s with perm := { s.perm with req := true, din := busOfBytes (Memory.toBytes u.ctx.S) } })
      he rfl rfl rfl rfl
    exact ⟨hx, i, k, u', hs, he', by rw [hu]⟩
  acked ha := absurd ((h.ack_of_req hreq).symm.trans ha) (by decide)

/-- A permuting step keeps the invariant, in either placement of the permutation. -/
theorem Inv.keep_permuteStep {s u : State} (h : Inv s) (hr : s.rst = false) {i : Instr} {k : Nat}
    (hs : s.seq = .run i k) (he : effectOf i k s = .permute u) :
    Inv (permuteStep s (u.withSeq (nextSeq i k))) := by
  have hu : (effectOf i k s).Reaches u := .inr he
  cases hx : s.params.permExternal with
  | false =>
    have hreq := h.req_of_internal hx
    rw [permuteStep_internal hx]
    have hperm := (reaches_keepsControl hu).perm
    exact h.effect_taken hr hs hu (p := u.perm) (keccakF_wf _) (hperm ▸ hreq) (hperm ▸ h.ack_of_req hreq)
  | true =>
    rcases permuteStep_external hx (u.withSeq (nextSeq i k)) with ⟨hreq, heq⟩ | ⟨-, -, heq⟩ | ⟨-, -, heq⟩
    · rw [heq]
      exact h.request (u := u) hs he hx hreq hr
    · rw [heq]
      exact h
    · rw [heq]
      exact h.effect_taken hr hs hu (ofBus_wf _) rfl rfl

/-- The core's turn keeps the invariant. -/
theorem Inv.keep_coreTurn {s t : State} (h : Inv s) (ht : coreTurn s = .next t) : Inv t := by
  rcases coreTurn_cases s with ⟨heq, -⟩ | ⟨w, rest, hr, hi, he, hc, ⟨-, heq⟩ | ⟨i, hd, heq⟩⟩ | ⟨i, k, hr, hs, heq⟩
  · cases heq.symm.trans ht
    exact h
  · cases heq.symm.trans ht
    exact (h.dequeue hr hc).keep_raiseError hr hi (by decide) w
  · cases heq.symm.trans ht
    exact (h.dequeue hr hc).keep_issue hr hi he (decode_wellFormed hd)
  · rcases commit_cases (heq.symm.trans ht) with ⟨-, rfl⟩ | ⟨u, hu, rfl⟩ | ⟨u, hu, rfl⟩
    · exact h
    · have hreach : (effectOf i k s).Reaches u := .inl hu
      have hreq := h.req_of_done hs hu
      have hperm := (reaches_keepsControl hreach).perm
      exact h.effect_taken hr hs hreach (p := u.perm) (h.effect_parts hs hreach).1 (hperm ▸ hreq)
        (hperm ▸ h.ack_of_req hreq)
    · exact h.keep_permuteStep hr hs hu

/-- Settles O48: each agent's turn keeps the invariant, its turn spent. -/
theorem stepKeepsTheInvariant : Obligations.StepKeepsTheInvariant := by
  intro s t h ht
  have spent : ∀ ts, Inv { s with turns := ts } := fun ts => h.withWorld s.host ts s.popped s.reads s.freeCount
  rcases step_cases s with heq | ⟨ts, -, heq⟩ | ⟨ts, -, heq⟩
  · exact (spent _).keep_coreTurn (heq.symm.trans ht)
  · cases heq.symm.trans ht
    exact (spent ts).keep_hostTurn
  · cases heq.symm.trans ht
    exact (spent ts).keep_permTurn

/-- Settles O47: the reset state is its own reset, with every depth at least 1. -/
theorem resetMeetsTheInvariant : Obligations.ResetMeetsTheInvariant :=
  inv_resetCore (s := State.reset) ⟨Nat.succ_pos _, Nat.succ_pos _, Nat.succ_pos _⟩ false

end Sys2Proof.Machine
end

section
/-! PROOFS. Who writes the context: everything a step of any agent can make of it, said once, and from that O26 and O27. -/

namespace Sys2Proof.Machine

/-! ### What a turn makes of the context -/

/-- The capacity, the phase and `CFG` are those of `c`. -/
structure KeepsMode (c c' : Context) : Prop where
  cap : c'.cap = c.cap
  phase : c'.phase = c.phase
  cfg : c'.cfg = c.cfg

theorem KeepsMode.of_eq {c c' : Context} (h : c' = c) : KeepsMode c c' := by
  subst h
  constructor <;> rfl

/-- The core's turn left the context `c'` by the finish step of the command under execution, up to the buffer its
permutation leaves. -/
def FinishWrites (s : State) (c' : Context) : Prop :=
  ∃ i k m, s.seq = .run i k ∧ byteSteps i ≤ k ∧ c' = { finishContext i s.ctx with S := m }

/-- A step of the command under execution keeps the capacity, the phase and `CFG` but for its finish step, whatever
buffer its permutation leaves. -/
theorem reaches_ctx {s u : State} {i : Instr} {k : Nat} (hs : s.seq = .run i k)
    (hu : (effectOf i k s).Reaches u) (m : Memory) :
    KeepsMode s.ctx { u.ctx with S := m } ∨ FinishWrites s { u.ctx with S := m } := by
  unfold effectOf at hu
  split at hu
  · obtain ⟨-, -, ⟨b, -, -, hctx⟩, -⟩ := reaches_byteEffect hu
    rw [hctx]
    exact .inl ⟨byteContext_cap .., byteContext_phase .., byteContext_cfg ..⟩
  · rw [reaches_finishEffect hu]
    exact .inr ⟨i, k, m, hs, Nat.le_of_not_lt ‹_›, rfl⟩

/-- A permuting step leaves the context as it is, or leaves that of the step up to the buffer. -/
theorem permuteStep_ctx (s t : State) :
    (permuteStep s t).ctx = s.ctx ∨ ∃ m, (permuteStep s t).ctx = { t.ctx with S := m } := by
  cases hx : s.params.permExternal with
  | false => exact .inr ⟨_, by rw [permuteStep_internal hx]; rfl⟩
  | true =>
    rcases permuteStep_external hx t with ⟨-, heq⟩ | ⟨-, -, heq⟩ | ⟨-, -, heq⟩
    · exact .inl (by rw [heq])
    · exact .inl (by rw [heq])
    · exact .inr ⟨_, by rw [heq]; rfl⟩

@[simp] theorem issue_ctx (i : Instr) (s : State) : (issue i s).ctx = s.ctx := by
  rcases issue_cases i s with ⟨-, heq⟩ | ⟨-, heq⟩ <;> rw [heq] <;> rfl

theorem coreTurn_ctx {s t : State} (ht : coreTurn s = .next t) :
    KeepsMode s.ctx t.ctx ∨ FinishWrites s t.ctx := by
  rcases coreTurn_cases s with ⟨heq, -⟩ | ⟨w, rest, -, -, -, -, ⟨-, heq⟩ | ⟨i, -, heq⟩⟩ | ⟨i, k, -, hs, heq⟩
  · cases heq.symm.trans ht
    exact .inl (.of_eq rfl)
  · cases heq.symm.trans ht
    exact .inl (.of_eq rfl)
  · cases heq.symm.trans ht
    exact .inl (.of_eq (issue_ctx ..))
  · rcases commit_cases (heq.symm.trans ht) with ⟨-, rfl⟩ | ⟨u, hu, rfl⟩ | ⟨u, hu, rfl⟩
    · exact .inl (.of_eq rfl)
    · exact reaches_ctx hs (.inl hu) u.ctx.S
    · rcases permuteStep_ctx s (u.withSeq (nextSeq i k)) with hc | ⟨m, hc⟩
      · exact .inl (.of_eq hc)
      · rw [hc]
        exact reaches_ctx hs (.inr hu) m

/-- No register write reaches the context (20_memory.md R42). -/
@[simp] theorem regWrite_ctx (off : BitVec 8) (v : Word) (s : State) : (regWrite off v s).ctx = s.ctx := by
  rcases regWrite_cases off v s with heq | ⟨-, heq | heq⟩ <;> simp [heq]

/-- Of the host's steps only a reset writes the context, and it writes the reset value. -/
theorem hostAction_ctx {s t : State} {a : HostStep} (ha : hostAction a s = some t) :
    t.ctx = s.ctx ∨ (a = .reset ∨ a = .setRst true) ∧ t.ctx = Context.reset := by
  cases a with
  | pushCmd v =>
    obtain ⟨-, rfl⟩ := hostAction_pushCmd_eq_some.mp ha
    exact .inl rfl
  | pushDin b =>
    obtain ⟨-, rfl⟩ := hostAction_pushDin_eq_some.mp ha
    exact .inl rfl
  | popDout =>
    obtain ⟨b, rest, -, -, rfl⟩ := hostAction_popDout_eq_some.mp ha
    exact .inl rfl
  | regRead off => cases ha; exact .inl rfl
  | regWrite off v => cases ha; exact .inl (regWrite_ctx ..)
  | reset => cases ha; exact .inr ⟨.inl rfl, rfl⟩
  | setRst level =>
    cases ha
    cases level with
    | true => exact .inr ⟨.inr rfl, rfl⟩
    | false => exact .inl rfl

theorem hostTurn_ctx (s : State) :
    (hostTurn s).ctx = s.ctx ∨
      (∃ hs, s.host = .reset :: hs ∨ s.host = .setRst true :: hs) ∧ (hostTurn s).ctx = Context.reset := by
  cases hh : s.host with
  | nil => exact .inl (by simp [hostTurn, hh])
  | cons a hs =>
    rw [hostTurn_cons hh]
    cases ha : hostAction a { s with host := hs } with
    | none => exact .inl rfl
    | some t =>
      rcases hostAction_ctx ha with hc | ⟨ha, hc⟩
      · exact .inl hc
      · exact .inr ⟨⟨hs, ha.imp (by rintro rfl; rfl) (by rintro rfl; rfl)⟩, hc⟩

@[simp] theorem permTurn_ctx (s : State) : (permTurn s).ctx = s.ctx := by
  unfold permTurn
  split <;> rfl

/-- The capacity, the phase and `CFG` are written by a finish step in the core's turn and by the host's reset alone. -/
theorem step_ctx {s t : State} (ht : step s = .next t) :
    KeepsMode s.ctx t.ctx ∨ Claims.CoreTurn s ∧ FinishWrites s t.ctx ∨
      Claims.HostResets s ∧ t.ctx = Context.reset := by
  cases hts : s.turns with
  | nil =>
    have hcore : Claims.CoreTurn s := .inl hts
    exact (coreTurn_ctx ((step_of_noTurns hts).symm.trans ht)).imp_right fun hf => .inl ⟨hcore, hf⟩
  | cons a ts =>
    cases a with
    | core =>
      have hcore : Claims.CoreTurn s := .inr ⟨ts, hts⟩
      exact (coreTurn_ctx ((step_of_core hts).symm.trans ht)).imp_right fun hf => .inl ⟨hcore, hf⟩
    | host =>
      cases (step_of_host hts).symm.trans ht
      rcases hostTurn_ctx { s with turns := ts } with hc | ⟨hh, hc⟩
      · exact .inl (.of_eq hc)
      · exact .inr (.inr ⟨⟨⟨ts, hts⟩, hh⟩, hc⟩)
    | perm =>
      cases (step_of_perm hts).symm.trans ht
      exact .inl (.of_eq (permTurn_ctx _))

/-! ### Which finish step writes which field -/

/-- At a finish step of a state that meets the invariant, `k` is the command's own count. -/
theorem Inv.finish_count {s : State} (h : Inv s) {i : Instr} {k : Nat} (hs : s.seq = .run i k)
    (hk : byteSteps i ≤ k) : k = byteSteps i :=
  Nat.le_antisymm (h.running i k hs).2.1 hk

/-- Only the finish steps of INIT and CTX_LOAD write `CAP` (10_state.md R19). -/
theorem finishContext_cap_ne {i : Instr} {c : Context} (h : (finishContext i c).cap ≠ c.cap) :
    (∃ n, i = .init n ∧ (finishContext i c).cap = BitVec.ofNat 11 n) ∨
      ∃ p n ph, i = .ctxLoad p n ph ∧ (finishContext i c).cap = BitVec.ofNat 11 n := by
  cases i with
  | init n => exact .inl ⟨n, rfl, rfl⟩
  | ctxLoad p n ph => exact .inr ⟨p, n, ph, rfl, rfl⟩
  | _ => exact absurd rfl h

/-- Only the finish steps of INIT and CTX_LOAD write `CFG`, and they set it (10_state.md R23). -/
theorem finishContext_cfg (i : Instr) (c : Context) :
    (finishContext i c).cfg = c.cfg ∨
      (finishContext i c).cfg = true ∧ ((∃ n, i = .init n) ∨ ∃ p n ph, i = .ctxLoad p n ph) := by
  cases i with
  | init n => exact .inr ⟨rfl, .inl ⟨n, rfl⟩⟩
  | ctxLoad p n ph => exact .inr ⟨rfl, .inr ⟨p, n, ph, rfl⟩⟩
  | _ => exact .inl rfl

/-- Only the finish steps of PAD and CTX_LOAD write *squeezing* (10_state.md R22). -/
theorem finishContext_squeezing {i : Instr} {c : Context} (hc : c.phase = .absorbing)
    (h : (finishContext i c).phase = .squeezing) : (∃ n, i = .pad n) ∨ ∃ p n, i = .ctxLoad p n .squeezing := by
  cases i with
  | pad n => exact .inl ⟨n, rfl⟩
  | ctxLoad p n ph =>
    obtain rfl : ph = .squeezing := h
    exact .inr ⟨p, n, rfl⟩
  | init n => exact nomatch (show Phase.absorbing = .squeezing from h)
  | rewind => exact nomatch (show Phase.absorbing = .squeezing from h)
  | forget => exact nomatch (show Phase.absorbing = .squeezing from h)
  | _ => exact nomatch hc.symm.trans h

/-- Only the finish steps of REWIND, FORGET, INIT and CTX_LOAD write *absorbing* (10_state.md R22). -/
theorem finishContext_absorbing {i : Instr} {c : Context} (hc : c.phase = .squeezing)
    (h : (finishContext i c).phase = .absorbing) :
    (i = .rewind ∨ i = .forget) ∨ (∃ n, i = .init n) ∨ ∃ p n ph, i = .ctxLoad p n ph := by
  cases i with
  | rewind => exact .inl (.inl rfl)
  | forget => exact .inl (.inr rfl)
  | init n => exact .inr (.inl ⟨n, rfl⟩)
  | ctxLoad p n ph => exact .inr (.inr ⟨p, n, ph, rfl⟩)
  | pad n => exact nomatch (show Phase.squeezing = .absorbing from h)
  | _ => exact nomatch hc.symm.trans h

/-- The finish step of INIT or CTX_LOAD, with the count of byte steps behind it. -/
theorem initOrLoadFinishes {s : State} {i : Instr} {k : Nat} (hs : s.seq = .run i k) (hk : byteSteps i ≤ k)
    (hi : (∃ n, i = .init n) ∨ ∃ p n ph, i = .ctxLoad p n ph) : Claims.InitOrLoadFinishes s := by
  rcases hi with ⟨n, rfl⟩ | ⟨p, n, ph, rfl⟩
  · exact .inl ⟨n, k, hs, fun h => h.finish_count hs hk⟩
  · exact .inr ⟨p, n, ph, k, hs, hk, fun h => h.finish_count hs hk⟩

/-! ### The statements -/

/-- Settles O26: of what writes the capacity, the finish steps of INIT and CTX_LOAD write their operand, whose check they
passed, and the other is reset. -/
theorem onlyInitAndLoadChangeTheCapacity : Obligations.OnlyInitAndLoadChangeTheCapacity := by
  intro s t h ht hne
  rcases step_ctx ht with hkeep | ⟨hcore, i, k, m, hs, hk, hc⟩ | ⟨hr, -⟩
  · exact absurd hkeep.cap hne
  · obtain ⟨-, -, -, hp⟩ := h.running i k hs
    obtain rfl := h.finish_count hs hk
    have hcap : t.ctx.cap = (finishContext i s.ctx).cap := by rw [hc]
    rw [hcap] at hne ⊢
    rcases finishContext_cap_ne hne with ⟨n, rfl, hn⟩ | ⟨p, n, ph, rfl, hn⟩
    · have hl : legalCap n = true := hp
      exact .inl ⟨hcore, by rw [hn, toNat_cap hl]; exact hl, .inl ⟨n, hs⟩⟩
    · obtain ⟨hl, -⟩ : legalCap n = true ∧ _ := (Bool.and_eq_true ..).mp hp
      exact .inl ⟨hcore, by rw [hn, toNat_cap hl]; exact hl, .inr ⟨p, n, ph, hs⟩⟩
  · exact .inr hr

/-- Settles O27: a finish step writes `PHASE` and `CFG` as its command says, reset clears both, and nothing else writes
them. -/
theorem whoWritesPhaseAndConfigured : Obligations.WhoWritesPhaseAndConfigured := by
  intro s t ht
  rcases step_ctx ht with hkeep | ⟨hcore, i, k, m, hs, hk, hc⟩ | ⟨hr, hc⟩
  · rw [hkeep.phase, hkeep.cfg]
    refine ⟨?_, ?_, ?_, ?_⟩ <;> exact fun h h' => nomatch h.symm.trans h'
  · rw [hc]
    have count : Inv s → k = byteSteps i := fun h => h.finish_count hs hk
    refine ⟨fun h h' => ⟨hcore, ?_⟩, fun h h' => .inr ⟨hcore, ?_⟩, fun h h' => ⟨hcore, ?_⟩, fun h h' => ?_⟩
    · rcases finishContext_squeezing h h' with ⟨n, rfl⟩ | ⟨p, n, rfl⟩
      · exact .inl ⟨n, k, hs, hk, count⟩
      · exact .inr ⟨p, n, k, hs, hk, count⟩
    · rcases finishContext_absorbing h h' with (rfl | rfl) | hi
      · exact .inl ⟨k, .inl hs, count⟩
      · exact .inl ⟨k, .inr hs, count⟩
      · exact .inr (initOrLoadFinishes hs hk hi)
    · rcases finishContext_cfg i s.ctx with hsame | ⟨-, hi⟩
      · exact nomatch h.symm.trans (hsame.symm.trans h')
      · exact initOrLoadFinishes hs hk hi
    · rcases finishContext_cfg i s.ctx with hsame | ⟨hset, -⟩
      · exact nomatch h.symm.trans (hsame.symm.trans h')
      · exact nomatch hset.symm.trans h'
  · rw [hc]
    exact ⟨fun _ h' => (nomatch (show Phase.absorbing = .squeezing from h')), fun _ _ => .inl hr,
      fun _ h' => (nomatch (show false = true from h')), fun _ _ => hr⟩

end Sys2Proof.Machine
end

section
/-! PROOFS. The register port and the host's queue steps: the fields of each register word, O28 to O32, and O34. -/

namespace Sys2Proof.Machine

/-! ### Fields of a word made of placed fields -/

/-- A placed field read back. -/
theorem extractLsb'_place_same {n lo : Nat} (v : BitVec n) (h : lo + n ≤ 32) :
    (place v lo).extractLsb' lo n = v := by
  apply BitVec.eq_of_getLsbD_eq
  intro j hj
  simp only [BitVec.getLsbD_extractLsb', getLsbD_place, hj, show lo + j < 32 by omega, Nat.le_add_right,
    Nat.add_sub_cancel_left, decide_true, Bool.true_and]

/-- A field that a placed field does not meet reads 0. -/
theorem extractLsb'_place_disjoint {n lo lo' m : Nat} (v : BitVec n) (h : lo' + m ≤ lo ∨ lo + n ≤ lo') :
    (place v lo).extractLsb' lo' m = 0#m := by
  apply BitVec.eq_of_getLsbD_eq
  intro j hj
  rcases h with h | h
  · simp [getLsbD_place, show ¬lo ≤ lo' + j by omega]
  · simp [getLsbD_place, BitVec.getLsbD_of_ge v (lo' + j - lo) (by omega)]

/-- A placed bit read back. -/
theorem getLsbD_placeBit {b : Bool} {lo j : Nat} (h : lo < 32) :
    (placeBit b lo).getLsbD j = (decide (j = lo) && b) := by
  rw [placeBit, getLsbD_place, BitVec.getLsbD_ofBool]
  by_cases hj : j = lo
  · simp [hj, h]
  · by_cases hlo : lo ≤ j
    · simp [hj, show j - lo ≠ 0 by omega]
    · simp [hj, hlo]

/-- A bit that a placed field does not meet reads 0. -/
theorem getLsbD_place_disjoint {n lo j : Nat} (v : BitVec n) (h : j < lo ∨ lo + n ≤ j) :
    (place v lo).getLsbD j = false := by
  rw [getLsbD_place]
  rcases h with h | h
  · simp [Nat.not_le.mpr h]
  · simp [BitVec.getLsbD_of_ge v (j - lo) (by omega)]

/-! ### The registers at their offsets -/

/-- The register an offset reaches, its bits 1:0 ignored (20_memory.md R50). -/
theorem portOffset_of {off v : BitVec 8} (h : off &&& 0xFC = v) : portOffset off = v.toNat :=
  congrArg BitVec.toNat h

theorem regWord_ctrl {off : BitVec 8} (h : portOffset off = 0x00) (s : State) : s.regWord off = s.ctrlWord := by
  simp [State.regWord, h]

theorem regWord_status {off : BitVec 8} (h : portOffset off = 0x04) (s : State) : s.regWord off = s.statusWord := by
  simp [State.regWord, h]

theorem regWord_config {off : BitVec 8} (h : portOffset off = 0x08) (s : State) : s.regWord off = s.configWord := by
  simp [State.regWord, h]

theorem regWord_errstat {off : BitVec 8} (h : portOffset off = 0x0C) (s : State) : s.regWord off = s.errstatWord := by
  simp [State.regWord, h]

theorem regWord_errcmd {off : BitVec 8} (h : portOffset off = 0x10) (s : State) : s.regWord off = s.errcmd := by
  simp [State.regWord, h]

/-- Past ERRCMD every offset reads 0 (10_state.md R40). -/
theorem regWord_unassigned {off : BitVec 8} (h : 0x14 ≤ portOffset off) (s : State) : s.regWord off = 0 := by
  simp [State.regWord, show portOffset off ≠ 0x00 by omega, show portOffset off ≠ 0x04 by omega,
    show portOffset off ≠ 0x08 by omega, show portOffset off ≠ 0x0C by omega, show portOffset off ≠ 0x10 by omega]

theorem busyMask_status {off : BitVec 8} (h : portOffset off = 0x04) : busyMask off = 0x00FFFF03 := by
  simp [busyMask, h]

theorem busyMask_config {off : BitVec 8} (h : portOffset off = 0x08) : busyMask off = 0x00FF07FF := by
  simp [busyMask, h]

/-- Only STATUS and CONFIG have bits that read unspecified values while busy (10_state.md R36). -/
theorem busyMask_other {off : BitVec 8} (h : portOffset off ≠ 0x04) (h' : portOffset off ≠ 0x08) :
    busyMask off = 0 := by
  simp [busyMask, h, h']

/-- Read while not busy every bit is exact. -/
theorem regReadWord_idle {s : State} (h : s.seq = .idle) (off : BitVec 8) : s.regReadWord off = s.regWord off := by
  simp [State.regReadWord, State.busy, h]

/-- A bit outside the mask is exact in every state (10_state.md R36). -/
theorem getLsbD_regReadWord {off : BitVec 8} {j : Nat} (s : State) (h : (busyMask off).getLsbD j = false) :
    (s.regReadWord off).getLsbD j = (s.regWord off).getLsbD j := by
  unfold State.regReadWord
  split
  · simp only [BitVec.getLsbD_or, BitVec.getLsbD_and, BitVec.getLsbD_not, h, Bool.not_false, Bool.and_true,
      Bool.and_false, Bool.or_false]
    by_cases hj : j < 32
    · simp only [hj, decide_true, Bool.and_true]
    · rw [BitVec.getLsbD_of_ge _ j (Nat.le_of_not_lt hj), Bool.false_and]
  · rfl

/-- A register without unspecified bits is exact in every state. -/
theorem regReadWord_exact {off : BitVec 8} (h : portOffset off ≠ 0x04) (h' : portOffset off ≠ 0x08) (s : State) :
    s.regReadWord off = s.regWord off :=
  BitVec.eq_of_getLsbD_eq fun j _ =>
    getLsbD_regReadWord s (by rw [busyMask_other h h']; exact BitVec.getLsbD_zero)

/-- A field outside the mask is exact in every state. -/
theorem extractLsb'_regReadWord {off : BitVec 8} {lo n : Nat} (s : State)
    (h : (busyMask off).extractLsb' lo n = 0) :
    (s.regReadWord off).extractLsb' lo n = (s.regWord off).extractLsb' lo n := by
  apply BitVec.eq_of_getLsbD_eq
  intro j hj
  have hb := congrArg (fun v => v.getLsbD j) h
  simp only [BitVec.getLsbD_extractLsb', hj, decide_true, Bool.true_and] at hb ⊢
  exact getLsbD_regReadWord s (by simpa using hb)

/-! ### The fields of each register -/

theorem decide_squeezing (p : Phase) : p.bit = decide (p = .squeezing) := by cases p <;> rfl

/-- The empty bit of a queue. -/
theorem isEmpty_eq_decide {α : Type} [DecidableEq α] (l : List α) : l.isEmpty = decide (l = []) := by
  cases l <;> rfl

/-- The rate fits its 8-bit field (10_state.md R20). -/
theorem toNat_rateField (s : State) : s.rateField.toNat = if s.ctx.cfg then s.ctx.rate else 0 := by
  have := rate_le s.ctx
  unfold State.rateField
  split
  · exact (BitVec.toNat_ofNat ..).trans (Nat.mod_eq_of_lt (by omega))
  · rfl

/-- The one-bit fields of STATUS (10_state.md R33). -/
theorem statusWord_bits (s : State) :
    s.statusWord.getLsbD 0 = s.ctx.cfg ∧ s.statusWord.getLsbD 1 = decide (s.ctx.phase = .squeezing) ∧
      s.statusWord.getLsbD 2 = s.busy ∧ s.statusWord.getLsbD 3 = s.err ∧
      s.statusWord.getLsbD 4 = decide (s.cmdq = []) ∧ s.statusWord.getLsbD 5 = decide (s.din = []) ∧
      s.statusWord.getLsbD 6 = decide (s.dout = []) ∧ s.statusWord.getLsbD 7 = (s.err && s.ie) := by
  simp (disch := decide) only [State.statusWord, BitVec.getLsbD_or, getLsbD_placeBit, getLsbD_place_disjoint,
    isEmpty_eq_decide, decide_squeezing, State.irq, Nat.reduceEqDiff, reduceCtorEq, decide_true, decide_false,
    Bool.true_and, Bool.false_and, Bool.or_false, Bool.false_or, and_self]

/-- The wide fields of STATUS. -/
theorem statusWord_fields (s : State) :
    s.statusWord.extractLsb' 8 8 = s.ctx.pos ∧ s.statusWord.extractLsb' 16 8 = s.rateField ∧
      s.statusWord.extractLsb' 24 8 = 0 := by
  simp (disch := decide) only [State.statusWord, placeBit, BitVec.extractLsb'_or, extractLsb'_place_disjoint,
    extractLsb'_place_same, BitVec.or_zero, BitVec.zero_or, BitVec.ofNat_eq_ofNat, and_self]

/-- The fields of CONFIG (10_state.md R37). -/
theorem configWord_fields (s : State) :
    s.configWord.extractLsb' 0 11 = s.capField ∧ s.configWord.extractLsb' 11 5 = 0 ∧
      s.configWord.extractLsb' 16 8 = s.rateField ∧ s.configWord.extractLsb' 24 8 = 0x01 := by
  simp (disch := decide) only [State.configWord, BitVec.extractLsb'_or, extractLsb'_place_disjoint,
    extractLsb'_place_same, BitVec.or_zero, BitVec.zero_or, BitVec.ofNat_eq_ofNat, and_self]

/-- The fields of ERRSTAT (10_state.md R38). -/
theorem errstatWord_fields (s : State) :
    s.errstatWord.getLsbD 0 = s.err ∧ s.errstatWord.extractLsb' 1 3 = 0 ∧
      s.errstatWord.extractLsb' 4 4 = s.code.bits ∧ s.errstatWord.extractLsb' 8 4 = s.eop ∧
      s.errstatWord.extractLsb' 12 20 = 0 := by
  constructor
  · simp (disch := decide) only [State.errstatWord, BitVec.getLsbD_or, getLsbD_placeBit, getLsbD_place_disjoint,
      decide_true, Bool.true_and, Bool.or_false]
  · simp (disch := decide) only [State.errstatWord, placeBit, BitVec.extractLsb'_or, extractLsb'_place_disjoint,
      extractLsb'_place_same, BitVec.or_zero, BitVec.zero_or, BitVec.ofNat_eq_ofNat, and_self]

/-- The fields of CTRL (10_state.md R28). -/
theorem ctrlWord_fields (s : State) :
    s.ctrlWord.getLsbD 0 = s.strict ∧ s.ctrlWord.getLsbD 1 = s.ie ∧ s.ctrlWord.extractLsb' 2 30 = 0 := by
  refine ⟨?_, ?_, ?_⟩
  · simp (disch := decide) only [State.ctrlWord, BitVec.getLsbD_or, getLsbD_placeBit, Nat.reduceEqDiff,
      decide_true, decide_false, Bool.true_and, Bool.false_and, Bool.or_false]
  · simp (disch := decide) only [State.ctrlWord, BitVec.getLsbD_or, getLsbD_placeBit, Nat.reduceEqDiff,
      decide_true, decide_false, Bool.true_and, Bool.false_and, Bool.false_or]
  · simp (disch := decide) only [State.ctrlWord, placeBit, BitVec.extractLsb'_or, extractLsb'_place_disjoint,
      BitVec.or_zero, BitVec.ofNat_eq_ofNat]

/-- `ERRSTAT.CODE` is one of the five codes (60_exceptions.md R148). -/
theorem toNat_bits_le (e : ErrCode) : e.bits.toNat ≤ 4 := by cases e <;> decide

/-! ### Reads -/

/-- Settles O28: while idle each read is the exact word, whose fields are those of the two registers. -/
theorem statusAndConfigShowEveryField : Obligations.StatusAndConfigShowEveryField := by
  intro s off hi
  have hbusy : s.busy = false := by simp [State.busy, hi]
  rw [regReadWord_idle hi]
  refine ⟨fun ho => ?_, fun ho => ?_⟩
  · rw [regWord_status (portOffset_of ho)]
    obtain ⟨h0, h1, h2, h3, h4, h5, h6, h7⟩ := statusWord_bits s
    obtain ⟨hpos, hrate, hres⟩ := statusWord_fields s
    exact ⟨h0, h1, h2.trans hbusy, h3, h4, h5, h6, h7, hpos, hrate ▸ toNat_rateField s, hres⟩
  · rw [regWord_config (portOffset_of ho)]
    obtain ⟨hcap, hres, hrate, hrev⟩ := configWord_fields s
    exact ⟨hcap, hres, hrate ▸ toNat_rateField s, hrev⟩

/-- Settles O29: the bits and fields it names lie outside the mask of unspecified bits. -/
theorem busyReadsAreExactOutsideTheContext : Obligations.BusyReadsAreExactOutsideTheContext := by
  intro s off i k hs
  have hbusy : s.busy = true := by simp [State.busy, hs]
  refine ⟨fun ho => ?_, fun ho => ?_⟩
  · have hm := busyMask_status (portOffset_of ho)
    have exact_bit : ∀ j, (0x00FFFF03 : Word).getLsbD j = false →
        (s.regReadWord off).getLsbD j = s.statusWord.getLsbD j := fun j hj => by
      rw [getLsbD_regReadWord s (by rw [hm]; exact hj), regWord_status (portOffset_of ho)]
    obtain ⟨-, -, h2, h3, h4, h5, h6, h7⟩ := statusWord_bits s
    obtain ⟨-, -, hres⟩ := statusWord_fields s
    refine ⟨(exact_bit 2 (by decide)).trans (h2.trans hbusy), (exact_bit 3 (by decide)).trans h3,
      (exact_bit 4 (by decide)).trans h4, (exact_bit 5 (by decide)).trans h5, (exact_bit 6 (by decide)).trans h6,
      (exact_bit 7 (by decide)).trans h7, ?_⟩
    rw [extractLsb'_regReadWord s (by rw [hm]; decide), regWord_status (portOffset_of ho), hres]
  · have hm := busyMask_config (portOffset_of ho)
    obtain ⟨-, hres, -, hrev⟩ := configWord_fields s
    constructor
    · rw [extractLsb'_regReadWord s (by rw [hm]; decide), regWord_config (portOffset_of ho), hres]
    · rw [extractLsb'_regReadWord s (by rw [hm]; decide), regWord_config (portOffset_of ho), hrev]

/-! ### Writes -/

/-- The host's write to a register, out of reset or not: its turn and its step are spent. -/
theorem step_of_regWrite {s : State} {ts : List Agent} {hs : List HostStep} {off : BitVec 8} {v : Word}
    (ht : s.turns = .host :: ts) (hh : s.host = .regWrite off v :: hs) :
    step s = .next (regWrite off v { s with turns := ts, host := hs }) :=
  step_of_hostStep ht hh

/-- Settles O30: ERRSTAT and ERRCMD have no unspecified bits, and ERRSTAT's write-1-to-clear is `clearError`. -/
theorem errstatReadsAndClearsTheRecord : Obligations.ErrstatReadsAndClearsTheRecord := by
  refine ⟨fun s off ho => ?_, fun s off ho => ?_, fun s off v hs ts ho hr ht hh => ?_⟩
  · have hp : portOffset off = 0x0C := portOffset_of ho
    rw [regReadWord_exact (by rw [hp]; decide) (by rw [hp]; decide), regWord_errstat hp]
    obtain ⟨herr, hres, hcode, heop, hres'⟩ := errstatWord_fields s
    refine ⟨herr, hres, hcode ▸ toNat_bits_le s.code, hcode.trans ?_, heop, hres'⟩
    cases s.code <;> rfl
  · have hp : portOffset off = 0x10 := portOffset_of ho
    rw [regReadWord_exact (by rw [hp]; decide) (by rw [hp]; decide), regWord_errcmd hp]
  · rw [step_of_regWrite ht hh,
      regWrite_errstat (s := { s with turns := ts, host := hs }) hr (portOffset_of ho)]
    rfl

/-- Settles O31: CTRL has no unspecified bits, and its write is `writeCtrl`, in the two states of `SEQ`. -/
theorem ctrlSetsModesAndFlushes : Obligations.CtrlSetsModesAndFlushes := by
  refine ⟨fun s off ho => ?_, fun s off v hs ts ho hr ht hh => ?_⟩
  · have hp : portOffset off = 0x00 := portOffset_of ho
    rw [regReadWord_exact (by rw [hp]; decide) (by rw [hp]; decide), regWord_ctrl hp]
    exact ctrlWord_fields s
  · rw [step_of_regWrite ht hh, regWrite_ctrl (s := { s with turns := ts, host := hs }) hr (portOffset_of ho)]
    exact ⟨fun hi => by rw [writeCtrl_idle (s := { s with turns := ts, host := hs }) hi],
      fun i k hs' => by rw [writeCtrl_run (s := { s with turns := ts, host := hs }) hs']⟩

/-- The port ignores offset bits 1:0 (20_memory.md R50). -/
theorem portOffset_eq (off : BitVec 8) : portOffset off = off.toNat / 4 * 4 := by
  have hbit : ∀ j : Fin 8, (0xFC#8).getLsbD j = decide (2 ≤ j.val) := by decide
  have hmask : off &&& 0xFC#8 = (off >>> 2) <<< 2 := by
    apply BitVec.eq_of_getLsbD_eq
    intro j hj
    rw [BitVec.getLsbD_and, hbit ⟨j, hj⟩, BitVec.getLsbD_shiftLeft, BitVec.getLsbD_ushiftRight]
    by_cases h2 : 2 ≤ j
    · simp [h2, hj, Nat.not_lt.mpr h2, show 2 + (j - 2) = j by omega]
    · simp [h2, Nat.lt_of_not_le h2]
  rw [portOffset_of hmask, BitVec.toNat_shiftLeft, BitVec.toNat_ushiftRight, Nat.shiftRight_eq_div_pow, Nat.shiftLeft_eq]
  omega

/-- An offset past ERRCMD reaches no register but those past it. -/
theorem portOffset_ge {off : BitVec 8} (h : 0x14 ≤ off.toNat) : 0x14 ≤ portOffset off := by
  rw [portOffset_eq]
  omega

/-- Settles O32: a read adds to what the host has received, and only CTRL and ERRSTAT take a write. -/
theorem otherAccessesChangeNothing : Obligations.OtherAccessesChangeNothing := by
  intro s off v hs ts ht
  refine ⟨fun hh => ⟨_, step_of_hostStep ht hh, rfl, rfl, ?_⟩, fun ho => ?_, fun hh ho => ?_⟩
  · exact ⟨rfl, rfl, rfl, rfl, rfl, rfl, rfl, rfl, rfl, rfl, rfl, rfl, rfl⟩
  · have hp := portOffset_ge ho
    rw [regReadWord_exact (by omega) (by omega), regWord_unassigned hp]
  · have hp : portOffset off ≠ 0x00 ∧ portOffset off ≠ 0x0C := by
      rcases ho with ho | ho | ho | ho
      · have := portOffset_ge ho
        omega
      all_goals
        rw [portOffset_of ho]
        decide
    rw [step_of_regWrite ht hh, regWrite_ignored hp.1 hp.2]

/-! ### The queues -/

/-- Settles O34: each queue step is enabled exactly as its rule says, and a host step that is not waits. -/
theorem queuesAreBoundedFirstInFirstOut : Obligations.QueuesAreBoundedFirstInFirstOut := by
  intro s v b hs ts hr ht
  refine ⟨fun hh => ?_, fun hh => ?_, fun hh => ?_⟩ <;> rw [step_of_hostStep ht hh]
  · by_cases hroom : s.cmdq.length < s.params.cmdqDepth <;> simp [hostAction, hr, hroom]
  · by_cases hroom : s.din.length < s.params.dinDepth <;> simp [hostAction, hr, hroom]
  · cases s.dout <;> simp [hostAction, hr]

end Sys2Proof.Machine
end

section
/-! PROOFS. The state buffer and what is kept from it (20_memory.md): what a running command leaves unchanged, the lane
view of `S`, and which steps show nothing of `S`: O9, O38 and O46. -/

namespace Sys2Proof.Machine

/-! ### A running command and the control state -/

theorem KeepsControl.controlUnchanged {s t : State} (h : KeepsControl s t) : Claims.ControlUnchanged s t :=
  ⟨h.cmdq, h.strict, h.ie, h.err, h.code, h.eop, h.errcmd, h.rst, h.params, h.host, h.turns, h.popped, h.reads,
    h.freeCount⟩

/-- A permuting step to `t` shows `s` while it is pending and `t` once it is taken (45_permutation.md R143), so it keeps
the control state if `t` does. -/
theorem permuteStep_control {s t : State} (h : Claims.ControlUnchanged s t) :
    Claims.ControlUnchanged s (permuteStep s t) ∧
      ((permuteStep s t).seq = s.seq ∨ (permuteStep s t).seq = t.seq) := by
  have kept := (KeepsControl.refl s).controlUnchanged
  cases hx : s.params.permExternal with
  | false =>
    rw [permuteStep_internal hx]
    exact ⟨h, .inr rfl⟩
  | true =>
    rcases permuteStep_external hx t with ⟨-, heq⟩ | ⟨-, -, heq⟩ | ⟨-, -, heq⟩ <;> rw [heq]
    · exact ⟨kept, .inl rfl⟩
    · exact ⟨kept, .inl rfl⟩
    · exact ⟨h, .inr rfl⟩

/-- Settles O9: a step that waits leaves the state, and one that is taken, at once or after a permutation, keeps all but
the context, `DIN`, `DOUT` and the port and moves `SEQ` on. -/
theorem runningCommandsKeepControl : Obligations.RunningCommandsKeepControl := by
  intro i k s t hs ht
  have hnext : nextSeq i k = .run i (k + 1) ∨ nextSeq i k = .idle := (nextSeq_cases i k).imp And.left And.left
  have taken : ∀ u, (effectOf i k s).Reaches u → Claims.ControlUnchanged s (u.withSeq (nextSeq i k)) :=
    fun u hu => (reaches_keepsControl hu).controlUnchanged
  rcases commit_cases ((exec_run hs i).symm.trans ht) with ⟨-, rfl⟩ | ⟨u, hu, rfl⟩ | ⟨u, hu, rfl⟩
  · exact ⟨(KeepsControl.refl t).controlUnchanged, .inl hs⟩
  · exact ⟨taken u (.inl hu), .inr hnext⟩
  · obtain ⟨hsame, hseq | hseq⟩ := permuteStep_control (taken u (.inr hu))
    · exact ⟨hsame, .inl (hseq.trans hs)⟩
    · exact ⟨hsame, .inr (hseq ▸ hnext)⟩

/-! ### The lane view of `S` (R44) -/

/-- Inside the 5 by 5 array no index is reduced. -/
theorem lane_eq_getD (A : Lanes) {x y : Nat} (hx : x < 5) (hy : y < 5) : lane A x y = A.getD (x + 5 * y) 0 := by
  rw [lane, Nat.mod_eq_of_lt hx, Nat.mod_eq_of_lt hy]

/-- Bit `8*k + j` of a lane is bit `j` of the byte `k` it is made of. -/
theorem getLsbD_laneOfBytes (bs : List Byte) {k j : Nat} (hk : k < 8) (hj : j < 8) :
    (laneOfBytes bs).getLsbD (8 * k + j) = (bs.getD k 0).getLsbD j := by
  induction bs generalizing k with
  | nil => simp [laneOfBytes]
  | cons b bs ih =>
    rw [laneOfBytes, BitVec.getLsbD_or, BitVec.getLsbD_setWidth, BitVec.getLsbD_shiftLeft]
    cases k with
    | zero => simp [hj, show j < 64 by omega]
    | succ k =>
      rw [BitVec.getLsbD_of_ge b _ (by omega), show 8 * (k + 1) + j - 8 = 8 * k + j by omega, ih (by omega)]
      simp [show 8 * (k + 1) + j < 64 by omega, show ¬8 * (k + 1) + j < 8 by omega]

/-- Byte `k` of the eight that make up lane `i`. -/
theorem getLsbD_laneAt (bs : List Byte) (i : Nat) {k j : Nat} (hk : k < 8) (hj : j < 8) :
    (laneAt bs i).getLsbD (8 * k + j) = (bs.getD (8 * i + k) 0).getLsbD j := by
  rw [laneAt, getLsbD_laneOfBytes _ hk hj]
  simp [List.getD_eq_getElem?_getD, hk]

theorem getD_lanesOfBytes (bs : List Byte) {i : Nat} (hi : i < 25) : (lanesOfBytes bs).getD i 0 = laneAt bs i := by
  simp [lanesOfBytes, hi]

theorem getLsbD_byteOfLane (l : Lane) (k : Nat) {j : Nat} (hj : j < 8) :
    (byteOfLane l k).getLsbD j = l.getLsbD (8 * k + j) := by
  rw [byteOfLane, BitVec.getLsbD_extractLsb', decide_eq_true hj, Bool.true_and]

/-- Byte `k` of lane `i` stands at `8*i + k`. -/
theorem getD_bytesOfLanes (A : Lanes) {i k : Nat} (hi : i < 25) (hk : k < 8) :
    (bytesOfLanes A).getD (8 * i + k) 0 = byteOfLane (A.getD i 0) k := by
  have hdiv : (8 * i + k) / 8 = i := by omega
  have hmod : (8 * i + k) % 8 = k := by omega
  simp [bytesOfLanes, show 8 * i + k < 200 by omega, hdiv, hmod]

/-- Settles O38: both directions of the lane view, bit by bit. -/
theorem lanesAreLittleEndian : Obligations.LanesAreLittleEndian := by
  intro x y k j hx hy hk hj
  have hi : x + 5 * y < 25 := by omega
  have hb : 8 * (x + 5 * y) + k < 200 := by omega
  refine ⟨fun S => ?_, fun A => ?_⟩ <;> rw [lane_eq_getD _ hx hy]
  · rw [getD_lanesOfBytes _ hi, getLsbD_laneAt _ _ hk hj, getD_toBytes S hb]
  · rw [byteAt_ofBytes, getD_bytesOfLanes A hi hk, getLsbD_byteOfLane _ _ hj]

/-! ### What depends on `S` (R42) -/

/-- The two steps come to the same, but for the buffer they leave. -/
inductive Effect.SameButS : Effect → Effect → Prop where
  | wait : SameButS .wait .wait
  | done (t : State) (m : Memory) : SameButS (.done t) (.done (t.withS m))
  | permute (t : State) (m : Memory) : SameButS (.permute t) (.permute (t.withS m))
  | noByte (a : Nat) : SameButS (.noByte a) (.noByte a)

/-- No register shows `S`. -/
theorem regReadWord_withS (s : State) (m : Memory) (off : BitVec 8) :
    (s.withS m).regReadWord off = s.regReadWord off := rfl

/-- The cursor step does not read `S`. -/
theorem sameButS_advance (s : State) (m : Memory) : (advance s).SameButS (advance (s.withS m)) := by
  by_cases h : s.ctx.pos.toNat + 1 = s.ctx.rate
  · rw [advance_boundary h, advance_boundary (s := s.withS m) h]
    exact .permute _ m
  · rw [advance_inside h, advance_inside (s := s.withS m) h]
    exact .done _ m

theorem sameButS_popDin {f : Byte → State → Effect} (s : State) (m : Memory)
    (hf : ∀ b u, (f b u).SameButS (f b (u.withS m))) : (popDin s f).SameButS (popDin (s.withS m) f) := by
  cases hd : s.din with
  | nil =>
    rw [popDin_nil hd, popDin_nil (s := s.withS m) hd]
    exact .wait
  | cons b rest =>
    rw [popDin_cons hd, popDin_cons (s := s.withS m) hd]
    exact hf b _

/-- Reaching a byte of `S` shows it to what follows alone. -/
theorem sameButS_withStateByte {f g : Byte → Effect} (s : State) (m : Memory) (a : Nat)
    (hfg : ∀ v w, (f v).SameButS (g w)) : (withStateByte s a f).SameButS (withStateByte (s.withS m) a g) := by
  by_cases h : a < 200
  · rw [withStateByte_of_lt h, withStateByte_of_lt h]
    exact hfg _ _
  · rw [withStateByte_of_ge (Nat.le_of_not_lt h), withStateByte_of_ge (Nat.le_of_not_lt h)]
    exact .noByte a

/-- The byte step of a command without output moves what it reads of `S` into `S` alone. -/
theorem sameButS_byteEffect {i : Instr} (hi : pushesDout i = false) (k : Nat) (s : State) (m : Memory) :
    (byteEffect i k s).SameButS (byteEffect i k (s.withS m)) := by
  cases i with
  | absorb n =>
    exact sameButS_popDin s m fun b u => sameButS_withStateByte u m u.ctx.pos.toNat fun v w =>
      sameButS_advance (u.setStateByte u.ctx.pos.toNat (v ^^^ b)) (Memory.setByte m u.ctx.pos.toNat (w ^^^ b))
  | pad n =>
    exact sameButS_popDin s m fun b u => sameButS_withStateByte u m (u.ctx.pos.toNat + k) fun v w =>
      .done (u.setStateByte (u.ctx.pos.toNat + k) (v ^^^ b)) (Memory.setByte m (u.ctx.pos.toNat + k) (w ^^^ b))
  | ctxLoad p c ph =>
    exact sameButS_popDin s m fun b u => sameButS_withStateByte u m k fun _ _ =>
      .done (u.setStateByte k b) (Memory.setByte m k b)
  | init n => exact .wait
  | rewind => exact .wait
  | forget => exact .wait
  | squeeze n => cases hi
  | squeezeXor n => cases hi
  | encrypt n => cases hi
  | decrypt n => cases hi
  | ctxSave => cases hi

/-- A finish step writes no field but `S` by what it reads of `S`. -/
theorem finishContext_withS (i : Instr) (c : Context) (m : Memory) :
    ∃ m', finishContext i { c with S := m } = { finishContext i c with S := m' } := by
  cases i <;> exact ⟨_, rfl⟩

theorem sameButS_finishEffect (i : Instr) (s : State) (m : Memory) :
    (finishEffect i s).SameButS (finishEffect i (s.withS m)) := by
  obtain ⟨m', hm⟩ := finishContext_withS i s.ctx m
  have heq : (s.withS m).withCtx (finishContext i (s.withS m).ctx) = (s.withCtx (finishContext i s.ctx)).withS m' := by
    rw [withS_ctx, hm]
    rfl
  rw [finishEffect_eq, finishEffect_eq, heq]
  cases i with
  | pad n => exact .permute _ m'
  | _ => exact .done _ m'

theorem sameButS_effectOf {i : Instr} (hi : pushesDout i = false) (k : Nat) (s : State) (m : Memory) :
    (effectOf i k s).SameButS (effectOf i k (s.withS m)) := by
  unfold effectOf
  split
  · exact sameButS_byteEffect hi k s m
  · exact sameButS_finishEffect i s m

/-- Taking effects that are the same but for the buffer, with the permutation internal, ends in states that are. -/
theorem commit_sameButS {s t : State} {q : Seq} {e e' : Effect} (he : e.SameButS e') (m : Memory)
    (hx : s.params.permExternal = false) (ht : commit s q e = .next t) :
    ∃ m', commit (s.withS m) q e' = .next (t.withS m') := by
  cases he with
  | wait => cases ht; exact ⟨m, rfl⟩
  | done u m' => cases ht; exact ⟨m', rfl⟩
  | permute u m' =>
    cases ht
    refine ⟨keccakF m', congrArg Host.Outcome.next ?_⟩
    rw [permuteStep_internal hx, permuteStep_internal (s := s.withS m) hx]
    rfl
  | noByte a => cases ht

/-- The issue step does not read `S`: no test of its check does (40_sequencer.md R81, R84). -/
theorem issue_withS (i : Instr) (s : State) (m : Memory) : issue i (s.withS m) = (issue i s).withS m := by
  have hc : check (s.withS m).strict (s.withS m).ctx i = check s.strict s.ctx i := by
    rw [withS_strict, withS_ctx, check, check, paramsOk_withS]
  unfold issue
  rw [hc]
  cases check s.strict s.ctx i <;> rfl

/-- A step of a command without output shows nothing of `S`. -/
theorem exec_withS {i : Instr} {s t : State} (hi : pushesDout i = false) (hx : s.params.permExternal = false)
    (ht : exec i s = .next t) (m : Memory) : ∃ m', exec i (s.withS m) = .next (t.withS m') := by
  cases hs : s.seq with
  | idle =>
    cases (exec_idle hs i).symm.trans ht
    exact ⟨m, by rw [exec_idle (s := s.withS m) hs, issue_withS]⟩
  | run j k =>
    rw [exec_run (s := s.withS m) hs]
    exact commit_sameButS (sameButS_effectOf hi k s m) m hx ((exec_run hs i).symm.trans ht)

/-- Settles O46: the registers are made of other fields than `S`, and the six commands are those that push nothing to
`DOUT`. -/
theorem bufferShowsOnlyInCommandOutput : Obligations.BufferShowsOnlyInCommandOutput := by
  refine ⟨regReadWord_withS, fun i s t m hx hi ht => exec_withS ?_ hx ht m⟩
  obtain ⟨n, ph, p, rfl | rfl | rfl | rfl | rfl | rfl⟩ := hi <;> rfl

end Sys2Proof.Machine
end

section
/-! PROOFS. The encoding (30_encoding.md): what masks and fields read of a word put together from fields, the row of each
command, the decoder and the encoder as inverses of each other, the words no row matches, and the assembler's lines: O1 to
O4 and O60. -/

namespace Sys2Proof.Machine

/-! ### Fields and masks -/

/-- A mask that is clear over a placed field does not see it. -/
theorem place_or_and {n lo : Nat} {mask : Word} (h : mask.extractLsb' lo n = 0#n) (v : BitVec n) (x : Word) :
    (place v lo ||| x) &&& mask = x &&& mask := by
  have hv : place v lo &&& mask = 0#32 := by
    apply BitVec.eq_of_getLsbD_eq
    intro j _
    rw [BitVec.getLsbD_and, BitVec.getLsbD_zero, Bool.and_eq_false_iff]
    by_cases hj : j < lo ∨ lo + n ≤ j
    · exact .inl (getLsbD_place_disjoint v hj)
    · right
      have hm := congrArg (fun u => u.getLsbD (j - lo)) h
      simpa [show j - lo < n by omega, show lo + (j - lo) = j by omega] using hm
  rw [BitVec.and_or_distrib_right, hv, BitVec.zero_or]

/-- A field of a word whose other part is clear there. -/
theorem extractLsb'_place_or {n lo : Nat} {x : Word} (hx : x.extractLsb' lo n = 0#n) (v : BitVec n)
    (h : lo + n ≤ 32) : (place v lo ||| x).extractLsb' lo n = v := by
  rw [BitVec.extractLsb'_or, extractLsb'_place_same v h, hx, BitVec.or_zero]

/-- A field beside a placed one is read from the rest of the word. -/
theorem extractLsb'_place_or_disjoint {n lo lo' m : Nat} (h : lo' + m ≤ lo ∨ lo + n ≤ lo') (v : BitVec n)
    (x : Word) : (place v lo ||| x).extractLsb' lo' m = x.extractLsb' lo' m := by
  rw [BitVec.extractLsb'_or, extractLsb'_place_disjoint v h, BitVec.zero_or]

/-- An operand that fits is what its field reads. -/
theorem field_of_extractLsb' {w : Word} {lo n x : Nat} (h : w.extractLsb' lo n = BitVec.ofNat n x)
    (hx : x < 2 ^ n) : field w lo n = x := by
  rw [field, h, BitVec.toNat_ofNat, Nat.mod_eq_of_lt hx]

/-- A field cut out and placed back where it stood is the word under the field's mask. -/
theorem place_extractLsb' (w : Word) (lo n : Nat) :
    place (w.extractLsb' lo n) lo = w &&& place (BitVec.allOnes n) lo := by
  apply BitVec.eq_of_getLsbD_eq
  intro j hj
  simp only [BitVec.getLsbD_and, getLsbD_place, BitVec.getLsbD_extractLsb', BitVec.getLsbD_allOnes]
  by_cases hlo : lo ≤ j
  · simp [hlo, hj, Bool.and_comm]
  · simp [hlo]

/-- What is known of a word under a mask, widened by one field of the word. -/
theorem and_mask_or_field {w mask x : Word} (lo n : Nat) (h : w &&& mask = x) :
    w &&& (place (BitVec.allOnes n) lo ||| mask) = place (BitVec.ofNat n (field w lo n)) lo ||| x := by
  rw [BitVec.and_or_distrib_left, h, ofNat_field, place_extractLsb']

/-- A mask of all bits shows the whole word. -/
theorem eq_of_and_allOnes {w mask x : Word} (h : w &&& mask = x) (hm : mask = BitVec.allOnes 32) : x = w := by
  rw [← h, hm, BitVec.and_allOnes]

/-- One bit of a word as a field. -/
theorem ofBool_getLsbD (w : Word) (j : Nat) : BitVec.ofBool (w.getLsbD j) = BitVec.ofNat 1 (field w j 1) := by
  apply BitVec.eq_of_getLsbD_eq
  intro l hl
  obtain rfl : l = 0 := by omega
  simp

/-! ### The row of a command, and O1 -/

theorem row_lt (i : Instr) : (Laws.opcodeNibble i).toNat - 1 < opcodeMap.length := by
  cases i <;> exact of_decide_eq_true rfl

/-- The row of a command: the rows stand in the order of the opcodes, from 1 (30_encoding.md R72). -/
def rowOf (i : Instr) : OpRow := opcodeMap[(Laws.opcodeNibble i).toNat - 1]'(row_lt i)

theorem rowOf_mem (i : Instr) : rowOf i ∈ opcodeMap := List.getElem_mem _

/-- The encoding of a command matches the command's row: whatever the operands, they are placed outside its mask. -/
theorem encode_matches (i : Instr) : (rowOf i).matches (encode i) = true := by
  rw [matches_iff]
  cases i with
  | init cap => exact place_or_and (mask := 0xF800FFFF) (by decide) _ _
  | absorb len => exact place_or_and (mask := 0x000000FF) (by decide) _ _
  | squeeze len => exact place_or_and (mask := 0x000000FF) (by decide) _ _
  | squeezeXor len => exact place_or_and (mask := 0x000000FF) (by decide) _ _
  | encrypt len => exact place_or_and (mask := 0x000000FF) (by decide) _ _
  | decrypt len => exact place_or_and (mask := 0x000000FF) (by decide) _ _
  | pad slen => exact place_or_and (mask := 0xFFFF00FF) (by decide) _ _
  | rewind => rfl
  | forget => rfl
  | ctxSave => rfl
  | ctxLoad pos cap ph =>
    show encode _ &&& 0xF00000FF = 0x0000000B
    simp (disch := decide) only [encode, BitVec.or_assoc, place_or_and]
    rfl

/-- LEN of a data command, whatever its opcode (30_encoding.md R66). -/
theorem field_len {len : Nat} (h : len ≤ 16777215) {op : Word} (hop : op.extractLsb' 8 24 = 0#24) :
    field (place (BitVec.ofNat 24 len) 8 ||| op) 8 24 = len :=
  field_of_extractLsb' (extractLsb'_place_or hop _ (by decide)) (by omega)

/-- The three fields of CTX_LOAD as they stand in its word (30_encoding.md R68). -/
theorem ctxLoad_fields (pos cap : Nat) (ph : Phase) :
    (encode (.ctxLoad pos cap ph)).extractLsb' 8 8 = BitVec.ofNat 8 pos ∧
      (encode (.ctxLoad pos cap ph)).extractLsb' 16 11 = BitVec.ofNat 11 cap ∧
      (encode (.ctxLoad pos cap ph)).getLsbD 27 = ph.bit := by
  rw [encode, BitVec.or_assoc, BitVec.or_assoc]
  refine ⟨?_, ?_, ?_⟩
  · rw [extractLsb'_place_or_disjoint (by decide), extractLsb'_place_or_disjoint (by decide)]
    exact extractLsb'_place_or rfl _ (by decide)
  · rw [extractLsb'_place_or_disjoint (by decide)]
    refine extractLsb'_place_or ?_ _ (by decide)
    rw [extractLsb'_place_or_disjoint (by decide)]
    rfl
  · simp (disch := decide) only [BitVec.getLsbD_or, getLsbD_place_disjoint]
    rw [getLsbD_place]
    simp

/-- A command's row reads its operands back from the command's word, if they fit their fields. -/
theorem operands_encode {i : Instr} (h : WellFormed i) : (rowOf i).operands (encode i) = i := by
  cases i with
  | init cap =>
    have hc : cap ≤ 2047 := of_decide_eq_true h
    exact congrArg Instr.init (field_of_extractLsb' (extractLsb'_place_or rfl _ (by decide)) (by omega))
  | absorb len => exact congrArg Instr.absorb (field_len (of_decide_eq_true h) rfl)
  | squeeze len => exact congrArg Instr.squeeze (field_len (of_decide_eq_true h) rfl)
  | squeezeXor len => exact congrArg Instr.squeezeXor (field_len (of_decide_eq_true h) rfl)
  | encrypt len => exact congrArg Instr.encrypt (field_len (of_decide_eq_true h) rfl)
  | decrypt len => exact congrArg Instr.decrypt (field_len (of_decide_eq_true h) rfl)
  | pad slen =>
    have hs : slen ≤ 255 := of_decide_eq_true h
    exact congrArg Instr.pad (field_of_extractLsb' (extractLsb'_place_or rfl _ (by decide)) (by omega))
  | rewind => rfl
  | forget => rfl
  | ctxSave => rfl
  | ctxLoad pos cap ph =>
    obtain ⟨hp, hc⟩ : pos ≤ 255 ∧ cap ≤ 2047 := by
      simpa only [WellFormed, Instr.wf, Bool.and_eq_true, decide_eq_true_eq] using h
    obtain ⟨epos, ecap, eph⟩ := ctxLoad_fields pos cap ph
    show Instr.ctxLoad (field _ 8 8) (field _ 16 11) (phaseOfBit _) = _
    rw [field_of_extractLsb' epos (by omega), field_of_extractLsb' ecap (by omega), eph, phaseOfBit_bit]

/-- Settles O1: the decoder takes the row the encoding matches, and that row reads the operands back. -/
theorem decodeOfEncode : Obligations.DecodeOfEncode := by
  intro i h
  rw [decode_of_matches (rowOf_mem i) (encode_matches i), operands_encode h]

/-! ### The word of a decoded command, and O2 -/

/-- A word that matches a row is the encoding of what the row reads from it: the row's mask and the fields it reads cover
all 32 bits. -/
theorem encode_operands {r : OpRow} (hr : r ∈ opcodeMap) {w : Word} (h : w &&& r.mask = r.pattern) :
    encode (r.operands w) = w := by
  simp only [opcodeMap, List.mem_cons, List.not_mem_nil, or_false] at hr
  rcases hr with rfl | rfl | rfl | rfl | rfl | rfl | rfl | rfl | rfl | rfl | rfl
  · exact eq_of_and_allOnes (and_mask_or_field 16 11 h) (by decide)
  iterate 5 exact eq_of_and_allOnes (and_mask_or_field 8 24 h) (by decide)
  · exact eq_of_and_allOnes (and_mask_or_field 8 8 h) (by decide)
  iterate 3 exact eq_of_and_allOnes h (by decide)
  · simp only [encode, bit_phaseOfBit, ofBool_getLsbD, BitVec.or_assoc]
    exact eq_of_and_allOnes
      (and_mask_or_field 27 1 (and_mask_or_field 16 11 (and_mask_or_field 8 8 h))) (by decide)

/-- Settles O2: a word that decodes matches a row, whose operands are well-formed and encode to the word. -/
theorem encodeOfDecode : Obligations.EncodeOfDecode := by
  intro w i h
  obtain ⟨r, hr, hm, rfl⟩ := matches_of_decode h
  exact ⟨operands_wellFormed hr w, encode_operands hr ((matches_iff r w).mp hm)⟩

/-! ### Legal words, and O3 -/

/-- The statements' table of masks and matches is that of the opcode map. -/
theorem rows_eq_map : Claims.rows = opcodeMap.map fun r => (r.mask, r.pattern) := rfl

theorem legalWord_iff (w : Word) : Claims.legalWord w = true ↔ ∃ r ∈ opcodeMap, r.matches w = true := by
  rw [Claims.legalWord, rows_eq_map, List.any_map, List.any_eq_true]
  rfl

/-- The legal words are those that decode (30_encoding.md R74). -/
theorem decode_ok_iff (w : Word) : (∃ i, decode w = .ok i) ↔ Claims.legalWord w = true := by
  rw [legalWord_iff]
  constructor
  · rintro ⟨i, h⟩
    obtain ⟨r, hr, hm, -⟩ := matches_of_decode h
    exact ⟨r, hr, hm⟩
  · rintro ⟨r, hr, hm⟩
    exact ⟨_, decode_of_matches hr hm⟩

/-- No row has a reserved opcode (30_encoding.md R73). -/
theorem pattern_opcode_range {r : OpRow} (hr : r ∈ opcodeMap) :
    1 ≤ (r.pattern.extractLsb' 0 4).toNat ∧ (r.pattern.extractLsb' 0 4).toNat ≤ 11 := by
  revert r
  simp only [opcodeMap, List.forall_mem_cons]
  decide

/-- A legal word's opcode is that of a row. -/
theorem legalWord_opcode {w : Word} (h : Claims.legalWord w = true) : 1 ≤ Claims.op w ∧ Claims.op w ≤ 11 := by
  obtain ⟨r, hr, hm⟩ := (legalWord_iff w).mp h
  rw [Claims.op, matches_opcode hr hm]
  exact pattern_opcode_range hr

/-- A legal word with a row's opcode matches that row: no other row has its opcode. -/
theorem legalWord_matches {w : Word} (h : Claims.legalWord w = true) {r : OpRow} (hr : r ∈ opcodeMap)
    (hop : w.extractLsb' 0 4 = r.pattern.extractLsb' 0 4) : w &&& r.mask = r.pattern := by
  obtain ⟨r', hr', hm⟩ := (legalWord_iff w).mp h
  have : r' = r := List.inj_on_of_nodup_map pattern_opcodes_nodup hr' hr ((matches_opcode hr' hm).symm.trans hop)
  exact (matches_iff r w).mp (this ▸ hm)

/-- The issue step of a word that does not decode (40_sequencer.md R80, 60_exceptions.md R151). -/
theorem coreTurn_illegal {s : State} {w : Word} {rest : List Word} (hr : s.rst = false) (hi : s.seq = .idle)
    (he : s.err = false) (hc : s.cmdq = w :: rest) (hd : ¬∃ i, decode w = .ok i) :
    coreTurn s = .next (raiseError .illegal w { s with cmdq := rest }) := by
  rcases coreTurn_cases s with ⟨-, h⟩ | ⟨w', rest', -, -, -, hc', h⟩ | ⟨i, k, -, hs, -⟩
  · simp [hr, he, hc] at h
  · obtain ⟨rfl, rfl⟩ : w = w' ∧ rest = rest' := by simpa [hc] using hc'
    rcases h with ⟨-, h⟩ | ⟨i, hok, -⟩
    · exact h
    · exact absurd ⟨i, hok⟩ hd
  · rw [hi] at hs
    cases hs

/-- Settles O3: the rows' opcodes decide which row a word can match, and a word that matches none does not decode. -/
theorem illegalWordsFailWithIllegal : Obligations.IllegalWordsFailWithIllegal := by
  refine ⟨decode_ok_iff, fun w hop => ?_, fun w r hr hop hne => ?_, fun s w rest hs hi he hc hw => ?_⟩
  · by_contra h
    have := legalWord_opcode (Bool.not_eq_false _ ▸ h)
    omega
  · rw [rows_eq_map] at hr
    obtain ⟨row, hrow, rfl⟩ := List.mem_map.mp hr
    by_contra h
    exact hne (legalWord_matches (Bool.not_eq_false _ ▸ h) hrow hop)
  · obtain ⟨hturns, hrst⟩ := hs
    rw [step_of_noTurns hturns, coreTurn_illegal hrst hi he hc (by simp [decode_ok_iff, hw])]
    rfl

/-! ### The spec's words: O4 -/

/-- Settles O4, by decoding each word. -/
theorem specWordsDecode : Obligations.SpecWordsDecode := by
  unfold Obligations.SpecWordsDecode
  decide

/-! ### The assembler: O60 -/

/-- A command that fits its fields assembles to its word (30_encoding.md R76). -/
theorem assembleCommand_of_wellFormed {i : Instr} (h : WellFormed i) (bs : List Byte) :
    assembleCommand i bs = some { words := [encode i], data := bs } :=
  if_pos h

/-- A command that does not fit its fields is rejected. -/
theorem assembleCommand_of_not_wellFormed {i : Instr} (h : ¬WellFormed i) (bs : List Byte) :
    assembleCommand i bs = none :=
  if_neg h

theorem assembleCommand_eq_some {i : Instr} {bs : List Byte} {p : Program} (h : assembleCommand i bs = some p) :
    WellFormed i ∧ p = { words := [encode i], data := bs } := by
  by_cases hi : WellFormed i
  · rw [assembleCommand_of_wellFormed hi] at h
    exact ⟨hi, (Option.some.inj h).symm⟩
  · rw [assembleCommand_of_not_wellFormed hi] at h
    cases h

/-- Well-formed command lines assemble to their words, in order, and add no data. -/
theorem assemble_commands {is : List Instr} (h : ∀ i ∈ is, WellFormed i) :
    assemble (is.map .command) = some { words := is.map encode, data := [] } := by
  induction is with
  | nil => rfl
  | cons i is ih =>
    obtain ⟨hi, his⟩ := List.forall_mem_cons.mp h
    simp [assemble, assembleLine, assembleCommand_of_wellFormed hi, ih his]

/-- A pseudo-instruction assembles as a command with the bytes that command takes (30_encoding.md R77). -/
theorem assembleLine_pseudo {l : Line} (hc : ∀ i, l ≠ .command i) (hw : ∀ v, l ≠ .word v) (hd : ∀ bs, l ≠ .din bs) :
    ∃ i bs, assembleLine l = assembleCommand i bs ∧ bs.length = byteSteps i := by
  cases l with
  | command i => exact absurd rfl (hc i)
  | word v => exact absurd rfl (hw v)
  | din bs => exact absurd rfl (hd bs)
  | _ => exact ⟨_, _, rfl, rfl⟩

/-- Settles O60: each line but `.word` and `.din` is a command with bytes, taken exactly when the command is well-formed,
and then to the word that decodes to it. -/
theorem assemblyEncodesCommandsAndData : Obligations.AssemblyEncodesCommandsAndData := by
  refine ⟨fun i hi => assembleCommand_of_not_wellFormed hi [], fun is his => ?_, fun l p hc hw hd h => ?_,
    fun bs hbs => ?_, fun bs hbs => ?_, fun b => rfl, rfl, rfl, rfl, rfl, rfl, rfl, rfl, fun v bs => ⟨rfl, rfl⟩⟩
  · refine ⟨_, assemble_commands his, rfl, ?_⟩
    rw [List.map_map]
    exact List.map_congr_left fun i hi => decodeOfEncode i (his i hi)
  · obtain ⟨i, bs, hl, hlen⟩ := assembleLine_pseudo hc hw hd
    obtain ⟨hi, rfl⟩ := assembleCommand_eq_some (hl.symm.trans h)
    exact ⟨encode i, i, rfl, decodeOfEncode i hi, hlen⟩
  · have fits : decide (bs.length ≤ 16777215) = true := decide_eq_true hbs
    exact ⟨assembleCommand_of_wellFormed (i := .absorb bs.length) fits bs,
      assembleCommand_of_wellFormed (i := .squeezeXor bs.length) fits bs,
      assembleCommand_of_wellFormed (i := .encrypt bs.length) fits bs,
      assembleCommand_of_wellFormed (i := .decrypt bs.length) fits bs⟩
  · have long : ¬decide (bs.length ≤ 16777215) = true := by simpa using hbs
    exact ⟨assembleCommand_of_not_wellFormed (i := .absorb bs.length) long bs,
      assembleCommand_of_not_wellFormed (i := .squeezeXor bs.length) long bs,
      assembleCommand_of_not_wellFormed (i := .encrypt bs.length) long bs,
      assembleCommand_of_not_wellFormed (i := .decrypt bs.length) long bs⟩

end Sys2Proof.Machine
end

section
/-! PROOFS. The sequencer (40_sequencer.md): what a decoded word's opcode and fields say of its command, the issue step,
the encoding clause of a command, and INIT: O5 to O8 and O12. -/

namespace Sys2Proof.Machine

/-! ### The core's turn on a command: O5 -/

/-- The issue step of a word that decodes is `exec` of its command, the word gone from the queue (40_sequencer.md R80). -/
theorem coreTurn_fetched {s : State} {w : Word} {rest : List Word} {i : Instr} (hr : s.rst = false)
    (hi : s.seq = .idle) (he : s.err = false) (hc : s.cmdq = w :: rest) (hd : decode w = .ok i) :
    coreTurn s = exec i { s with cmdq := rest } := by
  simp [coreTurn, nextWork, fetch, hr, hi, he, hc, hd]

/-- With a command under execution the core's turn is `exec` of it (R83). -/
theorem coreTurn_running {s : State} {i : Instr} {k : Nat} (hr : s.rst = false) (hs : s.seq = .run i k) :
    coreTurn s = exec i s := by
  simp [coreTurn, nextWork, hr, hs]

/-- The core's turn, listed or not, is spent. -/
theorem step_of_coreTurn {s : State} {ts : List Agent} (h : s.turns = .core :: ts ∨ s.turns = [] ∧ ts = []) :
    step s = coreTurn { s with turns := ts } := by
  rcases h with h | ⟨h, rfl⟩
  · exact step_of_core h
  · rw [step_of_noTurns h, ← h]

/-- Settles O5: a step is the core's turn, and that is `exec` of the word's command or of the running one. -/
theorem stepRunsTheDecodedInstruction : Obligations.StepRunsTheDecodedInstruction := by
  intro s ts i ht hr
  rw [step_of_coreTurn ht]
  exact ⟨fun w rest hi he hc hd => coreTurn_fetched (s := { s with turns := ts }) hr hi he hc hd,
    fun k hs => coreTurn_running (s := { s with turns := ts }) hr hs⟩

/-! ### The opcode and the fields of a decoded word: O7 and O6 -/

/-- The opcode field of a command's word, as the error record takes it (60_exceptions.md R150). -/
@[simp] theorem encode_opcode (i : Instr) : (encode i).extractLsb' 0 4 = Laws.opcodeNibble i := by
  rw [matches_opcode (rowOf_mem i) (encode_matches i)]
  cases i <;> rfl

/-- A word that decodes has its command's opcode (30_encoding.md R72). -/
theorem op_of_decode {w : Word} {i : Instr} (h : decode w = .ok i) : Claims.op w = (Laws.opcodeNibble i).toNat := by
  obtain ⟨-, henc⟩ := encodeOfDecode w i h
  rw [← henc, Claims.op, encode_opcode]

/-- A word that decodes has the opcode of its command's row, and the command's operands are the row's fields
(30_encoding.md R72). -/
theorem decode_cases {w : Word} {i : Instr} (h : decode w = .ok i) :
    (Claims.op w = 1 ∧ i = .init (field w 16 11)) ∨
      (Claims.op w = 2 ∧ i = .absorb (field w 8 24)) ∨
      (Claims.op w = 3 ∧ i = .squeeze (field w 8 24)) ∨
      (Claims.op w = 4 ∧ i = .squeezeXor (field w 8 24)) ∨
      (Claims.op w = 5 ∧ i = .encrypt (field w 8 24)) ∨
      (Claims.op w = 6 ∧ i = .decrypt (field w 8 24)) ∨
      (Claims.op w = 7 ∧ i = .pad (field w 8 8)) ∨
      (Claims.op w = 8 ∧ i = .rewind) ∨
      (Claims.op w = 9 ∧ i = .forget) ∨
      (Claims.op w = 10 ∧ i = .ctxSave) ∨
      (Claims.op w = 11 ∧ i = .ctxLoad (field w 8 8) (field w 16 11) (phaseOfBit (w.getLsbD 27))) := by
  rw [op_of_decode h]
  obtain ⟨r, hr, -, rfl⟩ := matches_of_decode h
  simp only [opcodeMap, List.mem_cons, List.not_mem_nil, or_false] at hr
  rcases hr with rfl | rfl | rfl | rfl | rfl | rfl | rfl | rfl | rfl | rfl | rfl <;> simp [Laws.opcodeNibble]

/-- Settles O7, command by command. -/
theorem byteStepCountsOfTheTable : Obligations.ByteStepCountsOfTheTable := by
  intro w i h
  rcases decode_cases h with ⟨hop, rfl⟩ | ⟨hop, rfl⟩ | ⟨hop, rfl⟩ | ⟨hop, rfl⟩ | ⟨hop, rfl⟩ | ⟨hop, rfl⟩ |
    ⟨hop, rfl⟩ | ⟨hop, rfl⟩ | ⟨hop, rfl⟩ | ⟨hop, rfl⟩ | ⟨hop, rfl⟩ <;> simp [byteSteps, hop]

/-- The test NOCFG reads the opcode: every command but INIT and CTX_LOAD needs `CFG` (40_sequencer.md R84). -/
theorem needsCfg_iff {w : Word} {i : Instr} (h : decode w = .ok i) :
    needsCfg i = true ↔ Claims.op w ≠ 1 ∧ Claims.op w ≠ 11 := by
  rw [op_of_decode h]
  cases i <;> simp [needsCfg, Laws.opcodeNibble]

/-- `PhaseBad` by the opcode (R86). -/
theorem phaseBad_iff {w : Word} {i : Instr} (h : decode w = .ok i) (p : Phase) :
    phaseBad i p = true ↔ (Claims.op w = 2 ∧ p = .squeezing) ∨
      (3 ≤ Claims.op w ∧ Claims.op w ≤ 6 ∧ p = .absorbing) := by
  rw [op_of_decode h]
  cases i <;> simp [phaseBad, Laws.opcodeNibble]

/-- The three tests of PARAM by the opcode and the fields (R84). -/
theorem paramsOk_iff {w : Word} {i : Instr} (h : decode w = .ok i) (c : Context) :
    paramsOk c i = true ↔
      ¬((Claims.op w = 1 ∨ Claims.op w = 11) ∧ ¬(field w 16 11 % 64 = 0 ∧ field w 16 11 ≤ 1536)) ∧
        ¬(Claims.op w = 11 ∧ field w 8 8 ≥ rateOf (field w 16 11)) ∧
        ¬(Claims.op w = 7 ∧ field w 8 8 > c.rate - c.pos.toNat) := by
  rcases decode_cases h with ⟨hop, rfl⟩ | ⟨hop, rfl⟩ | ⟨hop, rfl⟩ | ⟨hop, rfl⟩ | ⟨hop, rfl⟩ | ⟨hop, rfl⟩ |
    ⟨hop, rfl⟩ | ⟨hop, rfl⟩ | ⟨hop, rfl⟩ | ⟨hop, rfl⟩ | ⟨hop, rfl⟩ <;>
    simp [paramsOk, legalCap_iff, hop]

/-- The check of a word that decodes is that of its command. -/
theorem checkWord_ok {w : Word} {i : Instr} (h : decode w = .ok i) (strict : Bool) (c : Context) :
    checkWord strict c w = check strict c i := by
  simp [checkWord, h]

/-- A word that does not decode fails with ILLEGAL, whatever the context (60_exceptions.md R154). -/
theorem checkWord_illegal {w : Word} (h : ¬∃ i, decode w = .ok i) (strict : Bool) (c : Context) :
    checkWord strict c w = .illegal := by
  cases hd : decode w with
  | ok i => exact absurd ⟨i, hd⟩ h
  | error r => simp [checkWord, hd]

/-- Settles O6: an illegal word does not decode, and a legal one's tests are those of its command. -/
theorem checkAppliesTheTestsInOrder : Obligations.CheckAppliesTheTestsInOrder := by
  intro strict c w
  by_cases hl : Claims.legalWord w = true
  · obtain ⟨i, hd⟩ := (decode_ok_iff w).mpr hl
    rw [checkWord_ok hd, if_neg (c := Claims.legalWord w = false) (by simp [hl])]
    refine if_congr ?nocfg rfl (if_congr ?phase rfl ?param)
    case nocfg => rw [Bool.and_eq_true, needsCfg_iff hd, Bool.not_eq_true', and_assoc]
    case phase => rw [Bool.and_eq_true, phaseBad_iff hd]
    case param =>
      by_cases hok : paramsOk c i = true
      · obtain ⟨hcap, hpos, hslen⟩ := (paramsOk_iff hd c).mp hok
        rw [if_pos hok, if_neg hcap]
        exact ((if_neg hpos).trans (if_neg hslen)).symm
      · rw [if_neg hok]
        split_ifs with hcap hpos hslen
        · rfl
        · rfl
        · rfl
        · exact absurd ((paramsOk_iff hd c).mpr ⟨hcap, hpos, hslen⟩) hok
  · rw [if_pos (by simpa using hl), checkWord_illegal (mt (decode_ok_iff w).mp hl)]

/-! ### The issue step: O8 -/

/-- `raiseError` is the statements' `failed`, with the word's own opcode field. -/
theorem raiseError_eq_failed (e : ErrCode) (w : Word) (s : State) :
    raiseError e w s = Claims.failed s e (w.extractLsb' 0 4) w := rfl

theorem issue_of_pass {i : Instr} {s : State} (h : check s.strict s.ctx i = .none) :
    issue i s = { s with seq := .run i 0 } := by
  rcases issue_cases i s with ⟨-, heq⟩ | ⟨hc, -⟩
  · exact heq
  · exact absurd h hc

theorem issue_of_fail {i : Instr} {s : State} {e : ErrCode} (h : check s.strict s.ctx i = e) (he : e ≠ .none) :
    issue i s = Claims.failed s e ((encode i).extractLsb' 0 4) (encode i) := by
  rcases issue_cases i s with ⟨hc, -⟩ | ⟨-, heq⟩
  · exact absurd (h.symm.trans hc) he
  · rw [heq, h, raiseError_eq_failed]

/-- A word that passes its check decodes. -/
theorem decode_of_checkWord_none {strict : Bool} {c : Context} {w : Word} (h : checkWord strict c w = .none) :
    ∃ i, decode w = .ok i := by
  by_contra hd
  rw [checkWord_illegal hd] at h
  cases h

/-- The issue step of a word that passes its check (40_sequencer.md R80). -/
theorem coreTurn_passed {s : State} {w : Word} {rest : List Word} {i : Instr} (hr : s.rst = false)
    (hi : s.seq = .idle) (he : s.err = false) (hc : s.cmdq = w :: rest) (hd : decode w = .ok i)
    (hw : checkWord s.strict s.ctx w = .none) : coreTurn s = .next { s with cmdq := rest, seq := .run i 0 } := by
  rw [coreTurn_fetched hr hi he hc hd, exec_idle (s := { s with cmdq := rest }) hi, issue_of_pass]
  exact (checkWord_ok hd ..).symm.trans hw

/-- The issue step of a word that fails its check (60_exceptions.md R151). -/
theorem coreTurn_failed {s : State} {w : Word} {rest : List Word} {e : ErrCode} (hr : s.rst = false)
    (hi : s.seq = .idle) (he : s.err = false) (hc : s.cmdq = w :: rest) (hne : e ≠ .none)
    (hw : checkWord s.strict s.ctx w = e) :
    coreTurn s = .next (Claims.failed { s with cmdq := rest } e (w.extractLsb' 0 4) w) := by
  by_cases hd : ∃ i, decode w = .ok i
  · obtain ⟨i, hd⟩ := hd
    obtain ⟨-, henc⟩ := encodeOfDecode w i hd
    rw [coreTurn_fetched hr hi he hc hd, exec_idle (s := { s with cmdq := rest }) hi,
      issue_of_fail (s := { s with cmdq := rest }) ((checkWord_ok hd ..).symm.trans hw) hne, henc]
  · rw [coreTurn_illegal hr hi he hc hd, raiseError_eq_failed, ← hw, checkWord_illegal hd]

/-- A core whose issue step is not enabled does nothing (40_sequencer.md R80, 60_exceptions.md R152). -/
theorem coreTurn_notEnabled {s : State} (hi : s.seq = .idle) (h : s.err = true ∨ s.cmdq = []) :
    coreTurn s = .next s := by
  rcases coreTurn_cases s with ⟨heq, -⟩ | ⟨w, rest, -, -, he, hc, -⟩ | ⟨i, k, -, hs, -⟩
  · exact heq
  · simp [he, hc] at h
  · exact nomatch hi.symm.trans hs

/-- Settles O8: the core alone takes the turn, and the check decides between its two ends. -/
theorem issueStepTakesTheHeadOfTheQueue : Obligations.IssueStepTakesTheHeadOfTheQueue := by
  refine ⟨fun s w rest ⟨ht, hr⟩ hi he hc => ?_, fun s ⟨ht, _⟩ hi h => ?_⟩ <;> rw [step_of_noTurns ht]
  · refine ⟨fun hw => ?_, fun e hne hw => coreTurn_failed hr hi he hc hne hw⟩
    obtain ⟨i, hd⟩ := decode_of_checkWord_none hw
    exact ⟨i, hd, coreTurn_passed hr hi he hc hd hw⟩
  · exact coreTurn_notEnabled hi h

/-! ### The encoding clause of a command -/

/-- Every row of the opcode map is the encoding clause of its command: a word with the row's opcode can match no other row
(30_encoding.md R72, R74). -/
theorem encoding_of_row {r : OpRow} (hr : r ∈ opcodeMap) :
    Claims.Encoding (r.pattern.extractLsb' 0 4) r.mask r.pattern r.operands := by
  refine fun w hop => ⟨fun hm => decode_of_matches hr ((matches_iff r w).mpr hm), fun hm => ?_⟩
  refine checkWord_illegal fun hd => hm (legalWord_matches ((decode_ok_iff w).mp hd) hr hop)

/-! ### INIT: O12 -/

/-- INIT's check is its capacity's alone (40_sequencer.md R93). -/
theorem check_init (strict : Bool) (c : Context) (cap : Nat) :
    check strict c (.init cap) = if cap % 64 = 0 ∧ cap ≤ 1536 then .none else .param := by
  simp [check, needsCfg, phaseBad, paramsOk, legalCap_iff]

/-- Settles O12: its row of the opcode map, the check of the capacity, and the finish step. -/
theorem initBuildsANewSponge : Obligations.InitBuildsANewSponge := by
  refine ⟨encoding_of_row (List.mem_cons_self ..), fun cap s hcap => ⟨fun hi hl => ?_, fun hi hl => ?_, fun hs => ?_⟩⟩
  · rw [exec_idle hi, issue_of_pass ((check_init ..).trans (if_pos hl))]
  · rw [exec_idle hi, issue_of_fail ((check_init ..).trans (if_neg hl)) (by decide), encode_opcode]
    rfl
  · refine ⟨finishContext (.init cap) s.ctx, exec_run hs _, fun a => byteAt_nil a, ?_, rfl, rfl, rfl⟩
    exact (BitVec.toNat_ofNat ..).trans (Nat.mod_eq_of_lt (by omega))

end Sys2Proof.Machine
end

section
/-! PROOFS. The frame of the byte steps (40_sequencer.md R90): which of them call for the permutation, which byte of `S`
they write, and O23 and O25. -/

namespace Sys2Proof.Machine

/-! ### Which byte steps call for the permutation -/

theorem popDin_eq_permute {s u : State} {f : Byte → State → Effect} (h : popDin s f = .permute u) :
    ∃ b rest, f b { s with din := rest } = .permute u := by
  rcases popDin_cases s f with ⟨-, he⟩ | ⟨b, rest, -, he⟩
  · exact nomatch he.symm.trans h
  · exact ⟨b, rest, he.symm.trans h⟩

theorem whenDoutReady_eq_permute {s u : State} {e : Effect} (h : whenDoutReady s e = .permute u) :
    e = .permute u := by
  rcases whenDoutReady_cases s e with he | ⟨-, he⟩
  · exact nomatch he.symm.trans h
  · exact he.symm.trans h

theorem withStateByte_eq_permute {s u : State} {a : Nat} {f : Byte → Effect}
    (h : withStateByte s a f = .permute u) : f (Memory.byteAt s.ctx.S a) = .permute u := by
  by_cases ha : a < 200
  · exact (withStateByte_of_lt ha f).symm.trans h
  · exact nomatch (withStateByte_of_ge (Nat.le_of_not_lt ha) f).symm.trans h

/-- `Advance()` permutes at the end of the rate window alone (40_sequencer.md R88). -/
theorem advance_eq_permute {s u : State} (h : advance s = .permute u) : s.ctx.pos.toNat + 1 = s.ctx.rate := by
  by_contra hb
  exact nomatch (advance_inside hb).symm.trans h

/-- The byte steps that permute are those of the data commands at the end of the rate window (R88, R89). -/
theorem byteEffect_eq_permute {i : Instr} {k : Nat} {s u : State} (h : byteEffect i k s = .permute u) :
    s.ctx.pos.toNat + 1 = s.ctx.rate ∧ (∀ n, i ≠ .pad n) ∧ ∀ p c ph, i ≠ .ctxLoad p c ph := by
  cases i with
  | absorb n =>
    simp only [byteEffect, absorbByte] at h
    obtain ⟨b, rest, h⟩ := popDin_eq_permute h
    have hb := advance_eq_permute (withStateByte_eq_permute h)
    exact ⟨hb, nofun, nofun⟩
  | squeeze n =>
    simp only [byteEffect, squeezeByte] at h
    have hb := advance_eq_permute (withStateByte_eq_permute (whenDoutReady_eq_permute h))
    exact ⟨hb, nofun, nofun⟩
  | squeezeXor n =>
    simp only [byteEffect, squeezeXorByte] at h
    obtain ⟨b, rest, h⟩ := popDin_eq_permute (whenDoutReady_eq_permute h)
    have hb := advance_eq_permute (withStateByte_eq_permute h)
    exact ⟨hb, nofun, nofun⟩
  | encrypt n =>
    simp only [byteEffect, encryptByte] at h
    obtain ⟨b, rest, h⟩ := popDin_eq_permute (whenDoutReady_eq_permute h)
    have hb := advance_eq_permute (withStateByte_eq_permute h)
    exact ⟨hb, nofun, nofun⟩
  | decrypt n =>
    simp only [byteEffect, decryptByte] at h
    obtain ⟨b, rest, h⟩ := popDin_eq_permute (whenDoutReady_eq_permute h)
    have hb := advance_eq_permute (withStateByte_eq_permute h)
    exact ⟨hb, nofun, nofun⟩
  | pad n =>
    simp only [byteEffect, padByte] at h
    obtain ⟨b, rest, h⟩ := popDin_eq_permute h
    cases withStateByte_eq_permute h
  | ctxLoad p c ph =>
    simp only [byteEffect, ctxLoadByte] at h
    obtain ⟨b, rest, h⟩ := popDin_eq_permute h
    cases withStateByte_eq_permute h
  | ctxSave => cases whenDoutReady_eq_permute h
  | init c => cases h
  | rewind => cases h
  | forget => cases h

/-- A byte step that does not permute leaves the state as it is, waiting, or is taken whole. -/
theorem exec_of_not_permuting {i : Instr} {k : Nat} {s t : State} (hs : s.seq = .run i k) (hk : k < byteSteps i)
    (hp : ∀ u, byteEffect i k s ≠ .permute u) (ht : exec i s = .next t) :
    t = s ∨ ∃ u, (byteEffect i k s).Reaches u ∧ t = u.withSeq (nextSeq i k) := by
  have he : effectOf i k s = byteEffect i k s := if_pos hk
  rw [exec_run hs, he] at ht
  rcases commit_cases ht with ⟨-, rfl⟩ | ⟨u, hu, rfl⟩ | ⟨u, hu, -⟩
  · exact .inl rfl
  · exact .inr ⟨u, .inl hu, rfl⟩
  · exact absurd hu (hp u)

/-! ### Which byte of `S` a byte step writes -/

/-- A byte step writes the byte it reaches, or none. -/
theorem byteAt_byteContext {i : Instr} {k : Nat} {c : Context} (hm : Memory.wf c.S) {a : Nat}
    (ha : a ≠ reachedByte i k c) (b : Byte) :
    Memory.byteAt (byteContext i k b c).S a = Memory.byteAt c.S a := by
  have kept : ∀ v, Memory.byteAt (Memory.setByte c.S (reachedByte i k c) v) a = Memory.byteAt c.S a :=
    fun v => by rw [byteAt_setByte hm, if_neg ha]
  cases i with
  | absorb n => exact kept _
  | encrypt n => exact kept _
  | decrypt n => exact kept _
  | pad n => exact kept _
  | ctxLoad p n ph => exact kept _
  | _ => rfl

/-- Settles O23: a storing step waits, or is taken whole and then writes the byte it reaches. -/
theorem storingStepsWriteOneByte : Obligations.StoringStepsWriteOneByte := by
  intro i n k addr s t hm hs hk hi ht
  have hp : ∀ u, byteEffect i k s ≠ .permute u := fun u hu => by
    obtain ⟨hb, hpad, hload⟩ := byteEffect_eq_permute hu
    rcases hi with ⟨-, hne, -⟩ | ⟨rfl, -⟩ | ⟨⟨p, c, ph, rfl⟩, -⟩
    · exact hne hb
    · exact hpad n rfl
    · exact hload p c ph rfl
  have haddr : addr = reachedByte i k s.ctx := by
    rcases hi with ⟨rfl | rfl | rfl, -, rfl⟩ | ⟨rfl, rfl⟩ | ⟨⟨p, c, ph, rfl⟩, rfl⟩ <;> rfl
  rcases exec_of_not_permuting hs hk hp ht with rfl | ⟨u, hu, rfl⟩
  · exact ⟨fun _ _ => rfl, rfl, rfl, rfl, fun _ _ => rfl, fun _ _ _ => rfl, rfl,
      (KeepsControl.refl t).controlUnchanged⟩
  · obtain ⟨hkeep, -, ⟨b, -, -, hctx⟩, hdout⟩ := reaches_byteEffect hu
    rw [withSeq_ctx, withSeq_dout, hctx]
    refine ⟨fun a ha => byteAt_byteContext hm (haddr ▸ ha) b, byteContext_cap .., byteContext_phase ..,
      byteContext_cfg .., fun he hd => ?_, fun ha he hd => ?_,
      hkeep.perm, hkeep.controlUnchanged⟩
    · rcases hi with ⟨rfl | rfl | rfl, -⟩ | ⟨rfl, -⟩ | ⟨⟨p, c, ph, rfl⟩, -⟩
      · exact hdout
      · exact absurd rfl he
      · exact absurd rfl hd
      · exact hdout
      · exact hdout
    · rcases hi with ⟨rfl | rfl | rfl, -⟩ | ⟨rfl, -⟩ | ⟨⟨p, c, ph, rfl⟩, -⟩
      · exact absurd rfl ha
      · exact absurd rfl he
      · exact absurd rfl hd
      · rfl
      · rfl

/-! ### The capacity part of `S` -/

/-- The byte a byte step of a data command or of PAD reaches lies in the rate window: the cursor does, and PAD's check
leaves room for all of its suffix (40_sequencer.md R84, R90). -/
theorem Inv.reachedByte_lt_rate {s : State} (h : Inv s) {i : Instr} {k : Nat} (hs : s.seq = .run i k)
    (hk : k < byteSteps i)
    (hi : ∃ n, i = .absorb n ∨ i = .squeeze n ∨ i = .squeezeXor n ∨ i = .encrypt n ∨ i = .decrypt n ∨ i = .pad n) :
    reachedByte i k s.ctx < s.ctx.rate := by
  obtain ⟨-, -, hcfg, hok⟩ := h.running i k hs
  have hpos : needsCfg i = true → s.ctx.pos.toNat < s.ctx.rate := fun hn => (h.context (hcfg hn)).2
  obtain ⟨n, rfl | rfl | rfl | rfl | rfl | rfl⟩ := hi
  case inr.inr.inr.inr.inr =>
    have hroom : n ≤ s.ctx.rate - s.ctx.pos.toNat := of_decide_eq_true hok
    have hkn : k < n := hk
    show s.ctx.pos.toNat + k < s.ctx.rate
    omega
  all_goals exact hpos rfl

/-- Settles O25: the byte step writes no byte but the one it reaches, and that one lies below the rate. -/
theorem dataNeverTouchesTheCapacityPart : Obligations.DataNeverTouchesTheCapacityPart := by
  intro i k s t hi h hs hk hb ht a ha
  have hp : ∀ u, byteEffect i k s ≠ .permute u := fun u hu => by
    obtain ⟨hend, hpad, -⟩ := byteEffect_eq_permute hu
    exact hb.elim (fun hne => hne hend) fun ⟨n, hn⟩ => hpad n hn
  rcases exec_of_not_permuting hs hk hp ht with rfl | ⟨u, hu, rfl⟩
  · rfl
  · obtain ⟨-, -, ⟨b, -, -, hctx⟩, -⟩ := reaches_byteEffect hu
    have hlt := h.reachedByte_lt_rate hs hk hi
    rw [withSeq_ctx, hctx, byteAt_byteContext h.memory (by omega)]

end Sys2Proof.Machine
end

section
/-! PROOFS. Waiting, being stuck and ending (40_sequencer.md R95, R97, 70_reset_and_hazards.md R185): when a byte step
waits, what keeps a core waiting for ever, runs of a program, and O59. -/

namespace Sys2Proof.Machine

/-! ### When a byte step waits -/

theorem advance_ne_wait (s : State) : advance s ≠ .wait := by
  unfold advance
  split <;> exact nofun

theorem withStateByte_ne_wait {s : State} {a : Nat} {f : Byte → Effect} (hf : ∀ v, f v ≠ .wait) :
    withStateByte s a f ≠ .wait := by
  unfold withStateByte
  split
  · exact hf _
  · exact nofun

theorem popDin_eq_wait_iff {s : State} {f : Byte → State → Effect} (hf : ∀ b u, f b u ≠ .wait) :
    popDin s f = .wait ↔ s.din = [] := by
  cases hd : s.din with
  | nil => simp [popDin_nil hd]
  | cons b rest => simp [popDin_cons hd, hf]

theorem whenDoutReady_eq_wait_iff {s : State} {e : Effect} :
    whenDoutReady s e = .wait ↔ s.params.doutDepth ≤ s.dout.length ∨ e = .wait := by
  by_cases h : s.dout.length < s.params.doutDepth
  · simp [whenDoutReady_of_room h, Nat.not_le.mpr h]
  · simp [whenDoutReady_of_full (Nat.le_of_not_lt h), Nat.le_of_not_lt h]

/-- What a byte step of `i` takes or needs is missing: a byte of `DIN` or a slot of `DOUT` (40_sequencer.md R95). -/
def Starved (i : Instr) (s : State) : Prop :=
  takesDin i = true ∧ s.din = [] ∨ pushesDout i = true ∧ s.params.doutDepth ≤ s.dout.length

/-- A byte step waits exactly when what it takes or needs is missing (R95). -/
theorem byteEffect_eq_wait_iff {i : Instr} {k : Nat} (hk : k < byteSteps i) (s : State) :
    byteEffect i k s = .wait ↔ Starved i s := by
  have reach : ∀ (u : State) (a : Nat) (g : Byte → State), withStateByte u a (fun v => advance (g v)) ≠ .wait :=
    fun u a g => withStateByte_ne_wait fun v => advance_ne_wait (g v)
  cases i with
  | absorb n => simp [byteEffect, absorbByte, Starved, takesDin, pushesDout, popDin_eq_wait_iff, reach]
  | squeeze n =>
    simp [byteEffect, squeezeByte, Starved, takesDin, pushesDout, whenDoutReady_eq_wait_iff, reach]
  | squeezeXor n =>
    simp [byteEffect, squeezeXorByte, Starved, takesDin, pushesDout, whenDoutReady_eq_wait_iff, popDin_eq_wait_iff,
      reach, or_comm]
  | encrypt n =>
    simp [byteEffect, encryptByte, Starved, takesDin, pushesDout, whenDoutReady_eq_wait_iff, popDin_eq_wait_iff,
      reach, or_comm]
  | decrypt n =>
    simp [byteEffect, decryptByte, Starved, takesDin, pushesDout, whenDoutReady_eq_wait_iff, popDin_eq_wait_iff,
      reach, or_comm]
  | pad n => simp [byteEffect, padByte, Starved, takesDin, pushesDout, popDin_eq_wait_iff, withStateByte_ne_wait]
  | ctxSave => simp [byteEffect, ctxSaveByte, Starved, takesDin, pushesDout, whenDoutReady_eq_wait_iff]
  | ctxLoad p c ph =>
    simp [byteEffect, ctxLoadByte, Starved, takesDin, pushesDout, popDin_eq_wait_iff, withStateByte_ne_wait]
  | init c => exact absurd hk (Nat.not_lt_zero k)
  | rewind => exact absurd hk (Nat.not_lt_zero k)
  | forget => exact absurd hk (Nat.not_lt_zero k)

/-! ### When the core waits -/

theorem coreTurn_run {s : State} {i : Instr} {k : Nat} (hr : s.rst = false) (hs : s.seq = .run i k) :
    coreTurn s = commit s (nextSeq i k) (effectOf i k s) :=
  (coreTurn_running hr hs).trans (exec_run hs i)

/-- A starved byte step leaves the core waiting. -/
theorem coreWaits_of_starved {s : State} {i : Instr} {k : Nat} (hr : s.rst = false) (hs : s.seq = .run i k)
    (hk : k < byteSteps i) (h : Starved i s) : CoreWaits s := by
  have he : effectOf i k s = .wait := (if_pos hk).trans ((byteEffect_eq_wait_iff hk s).mpr h)
  exact ⟨hr, by simp [hs], by rw [coreTurn_run hr hs, he]; rfl⟩

/-- `rst` is released while a command is under execution. -/
theorem Inv.rst_of_run {s : State} (h : Inv s) {i : Instr} {k : Nat} (hs : s.seq = .run i k) : s.rst = false := by
  by_contra hr
  exact nomatch hs.symm.trans (h.idle_of_rst (by simpa using hr))

/-- A request that is not acknowledged leaves the core waiting (45_permutation.md R143). -/
theorem Inv.coreWaits_of_pending {s : State} (h : Inv s) (hreq : s.perm.req = true) (hack : s.perm.ack = false) :
    CoreWaits s := by
  obtain ⟨hx, i, k, u, hs, he, -⟩ := h.port hreq
  have hr := h.rst_of_run hs
  refine ⟨hr, by simp [hs], ?_⟩
  rw [coreTurn_run hr hs, he]
  simp [commit, permuteStep, hx, hreq, hack]

/-- A step of a running command moves `SEQ`. -/
theorem nextSeq_ne (i : Instr) (k : Nat) : nextSeq i k ≠ .run i k := by
  rcases nextSeq_cases i k with ⟨h, -⟩ | ⟨h, -⟩ <;> simp [h]

/-- A core with nothing requested waits on its effect's own waiting alone. -/
theorem effectOf_eq_wait_of_coreWaits {s : State} {i : Instr} {k : Nat} (hs : s.seq = .run i k)
    (hreq : s.perm.req = false) (h : CoreWaits s) : effectOf i k s = .wait := by
  obtain ⟨hr, -, hw⟩ := h
  have moved : ∀ u : State, (u.withSeq (nextSeq i k)).seq ≠ s.seq := fun u => by
    rw [hs]
    exact nextSeq_ne i k
  rcases commit_cases ((coreTurn_run hr hs).symm.trans hw) with ⟨he, -⟩ | ⟨u, -, ht⟩ | ⟨u, -, ht⟩
  · exact he
  · exact absurd (congrArg State.seq ht).symm (moved u)
  · cases hx : s.params.permExternal with
    | false =>
      rw [permuteStep_internal hx] at ht
      exact absurd (congrArg State.seq ht).symm (moved u)
    | true =>
      rcases permuteStep_external hx (u.withSeq (nextSeq i k)) with ⟨-, heq⟩ | ⟨hreq', -⟩ | ⟨hreq', -⟩
      · have hp := congrArg (fun v : State => v.perm.req) (ht.trans heq)
        exact nomatch hreq.symm.trans hp
      · exact nomatch hreq.symm.trans hreq'
      · exact nomatch hreq.symm.trans hreq'

/-! ### The turns of the agents outside the core, with no reset coming -/

/-- No coming step of the host is a reset. -/
def NoReset (s : State) : Prop := HostStep.reset ∉ s.host ∧ HostStep.setRst true ∉ s.host

/-- What a turn outside the core makes of a state with no reset coming: `SEQ`, the parameters and the turns stay, released
`rst` stays released, the host's coming steps only become fewer, and under a running command `DIN` waits for a push and
`DOUT` for a pop. -/
structure OutsideTurn (s t : State) : Prop where
  seq : t.seq = s.seq
  params : t.params = s.params
  turns : t.turns = s.turns
  rst : s.rst = false → t.rst = false
  host : ∀ a ∈ t.host, a ∈ s.host
  din : s.seq ≠ .idle → (∀ b, HostStep.pushDin b ∉ s.host) → t.din = s.din
  dout : s.seq ≠ .idle → HostStep.popDout ∉ s.host → t.dout = s.dout

theorem OutsideTurn.refl (s : State) : OutsideTurn s s :=
  ⟨rfl, rfl, rfl, id, fun _ => id, fun _ _ => rfl, fun _ _ => rfl⟩

theorem permTurn_outside (s : State) : OutsideTurn s (permTurn s) := by
  unfold permTurn
  split
  · exact ⟨rfl, rfl, rfl, id, fun _ => id, fun _ _ => rfl, fun _ _ => rfl⟩
  · exact .refl s

/-- A register write reaches no field that a running command or a request depends on but the two modes. -/
theorem regWrite_outside (off : BitVec 8) (v : Word) (s : State) :
    OutsideTurn s (regWrite off v s) ∧ (regWrite off v s).perm = s.perm ∧ (regWrite off v s).host = s.host := by
  rcases regWrite_cases off v s with heq | ⟨-, heq | heq⟩ <;> rw [heq]
  · exact ⟨.refl s, rfl, rfl⟩
  · cases hs : s.seq with
    | idle =>
      rw [writeCtrl_idle hs]
      exact ⟨⟨rfl, rfl, rfl, id, fun _ => id, fun h => absurd hs h, fun h => absurd hs h⟩, rfl, rfl⟩
    | run i k =>
      rw [writeCtrl_run hs]
      exact ⟨⟨rfl, rfl, rfl, id, fun _ => id, fun _ _ => rfl, fun _ _ => rfl⟩, rfl, rfl⟩
  · exact ⟨⟨rfl, rfl, rfl, id, fun _ => id, fun _ _ => rfl, fun _ _ => rfl⟩, rfl, rfl⟩

/-- The host's next step, when it is enabled and no reset. -/
theorem hostAction_outside {s t : State} {a : HostStep} {hs : List HostStep} (hh : s.host = a :: hs)
    (hn : NoReset s) (ha : hostAction a { s with host := hs } = some t) : OutsideTurn s t ∧ t.perm = s.perm := by
  obtain ⟨hn, hn'⟩ := hn
  have hmem : ∀ b ∈ hs, b ∈ s.host := fun b hb => hh ▸ List.mem_cons_of_mem a hb
  have hhead : a ∈ s.host := hh ▸ List.mem_cons_self ..
  cases a with
  | pushCmd v =>
    obtain ⟨-, rfl⟩ := hostAction_pushCmd_eq_some.mp ha
    exact ⟨⟨rfl, rfl, rfl, id, hmem, fun _ _ => rfl, fun _ _ => rfl⟩, rfl⟩
  | pushDin b =>
    obtain ⟨-, rfl⟩ := hostAction_pushDin_eq_some.mp ha
    exact ⟨⟨rfl, rfl, rfl, id, hmem, fun _ hp => absurd hhead (hp b), fun _ _ => rfl⟩, rfl⟩
  | popDout =>
    obtain ⟨b, rest, -, -, rfl⟩ := hostAction_popDout_eq_some.mp ha
    exact ⟨⟨rfl, rfl, rfl, id, hmem, fun _ _ => rfl, fun _ hp => absurd hhead hp⟩, rfl⟩
  | regRead off =>
    cases ha
    exact ⟨⟨rfl, rfl, rfl, id, hmem, fun _ _ => rfl, fun _ _ => rfl⟩, rfl⟩
  | regWrite off v =>
    cases ha
    obtain ⟨⟨hseq, hpar, htur, hrst, -, hdin, hdout⟩, hperm, hhost⟩ := regWrite_outside off v { s with host := hs }
    refine ⟨⟨hseq, hpar, htur, hrst, by rw [hhost]; exact hmem, fun hi hp => hdin hi fun b hb => hp b (hmem _ hb),
      fun hi hp => hdout hi fun hb => hp (hmem _ hb)⟩, hperm⟩
  | reset => exact absurd hhead hn
  | setRst level =>
    cases ha
    cases level with
    | true => exact absurd hhead hn'
    | false => exact ⟨⟨rfl, rfl, rfl, fun _ => rfl, hmem, fun _ _ => rfl, fun _ _ => rfl⟩, rfl⟩

/-- The host's turn with no reset coming. -/
theorem hostTurn_outside {s : State} (hn : NoReset s) :
    OutsideTurn s (hostTurn s) ∧ (hostTurn s).perm = s.perm := by
  cases hh : s.host with
  | nil => simpa [hostTurn, hh] using OutsideTurn.refl s
  | cons a hs =>
    rw [hostTurn_cons hh]
    cases ha : hostAction a { s with host := hs } with
    | none => exact ⟨.refl s, rfl⟩
    | some t => exact hostAction_outside hh hn ha

theorem NoReset.outside {s t : State} (h : NoReset s) (ho : OutsideTurn s t) : NoReset t :=
  ⟨fun hm => h.1 (ho.host _ hm), fun hm => h.2 (ho.host _ hm)⟩

/-! ### Invariants of runs -/

/-- What every step keeps holds after any number of steps. -/
theorem run_keeps {P : State → Prop} (hP : ∀ u v, P u → step u = .next v → P v) {n : Nat} {s t : State} (hs : P s)
    (h : Host.Core.run Sys2Proof.core n s = .next t) : P t := by
  induction n generalizing s with
  | zero => cases h; exact hs
  | succ n ih =>
    simp only [Host.Core.run] at h
    split at h
    · exact ih (hP _ _ hs ‹_›) h
    · cases h
    · cases h

/-! ### Stuck for ever -/

/-- The byte step `k` of `i` is starved, and neither the byte or slot it lacks nor a reset is coming. -/
def StarvedForEver (i : Instr) (k : Nat) (s : State) : Prop :=
  s.rst = false ∧ s.seq = .run i k ∧ NoReset s ∧
    (takesDin i = true ∧ s.din = [] ∧ (∀ b, HostStep.pushDin b ∉ s.host) ∨
      pushesDout i = true ∧ s.params.doutDepth ≤ s.dout.length ∧ HostStep.popDout ∉ s.host)

theorem StarvedForEver.waits {i : Instr} {k : Nat} {s : State} (hk : k < byteSteps i) (h : StarvedForEver i k s) :
    CoreWaits s := by
  obtain ⟨hr, hs, -, h⟩ := h
  refine coreWaits_of_starved hr hs hk (h.imp ?_ ?_)
  · exact fun ⟨ht, hd, _⟩ => ⟨ht, hd⟩
  · exact fun ⟨hp, hd, _⟩ => ⟨hp, hd⟩

/-- No turn outside the core ends the starvation. -/
theorem StarvedForEver.outside {i : Instr} {k : Nat} {s t : State} (h : StarvedForEver i k s)
    (ho : OutsideTurn s t) : StarvedForEver i k t := by
  obtain ⟨hr, hs, hn, h⟩ := h
  have hrun : s.seq ≠ .idle := by simp [hs]
  refine ⟨ho.rst hr, ho.seq.trans hs, hn.outside ho, h.imp ?_ ?_⟩
  · exact fun ⟨ht, hd, hno⟩ => ⟨ht, (ho.din hrun hno).trans hd, fun b hb => hno b (ho.host _ hb)⟩
  · exact fun ⟨hp, hd, hno⟩ => ⟨hp, by rw [ho.params, ho.dout hrun hno]; exact hd, fun hb => hno (ho.host _ hb)⟩

theorem StarvedForEver.step {i : Instr} {k : Nat} {s t : State} (hk : k < byteSteps i) (h : StarvedForEver i k s)
    (ht : step s = .next t) : StarvedForEver i k t := by
  have spent : ∀ ts, StarvedForEver i k { s with turns := ts } := fun _ => h
  rcases step_cases s with heq | ⟨ts, -, heq⟩ | ⟨ts, -, heq⟩
  · obtain ⟨-, -, hw⟩ := (spent s.turns.tail).waits hk
    cases hw.symm.trans (heq.symm.trans ht)
    exact spent _
  · cases heq.symm.trans ht
    obtain ⟨-, -, hn, -⟩ := spent ts
    exact (spent ts).outside (hostTurn_outside hn).1
  · cases heq.symm.trans ht
    exact (spent ts).outside (permTurn_outside _)

theorem StarvedForEver.stuck {i : Instr} {k : Nat} {s : State} (hk : k < byteSteps i) (h : StarvedForEver i k s) :
    CoreStuck s := by
  obtain ⟨-, hs, -⟩ := id h
  refine ⟨⟨i, k, hs, hk⟩, fun ts n t _ hrun => ?_⟩
  have ht : StarvedForEver i k t := run_keeps (fun u v hu => hu.step hk) (s := { s with turns := ts }) h hrun
  obtain ⟨-, hs', -⟩ := id ht
  exact ⟨hs'.trans hs.symm, ht.waits hk⟩

/-! ### Hung on the permutation -/

/-- A request is pending, and neither the unit's turn nor a reset is coming. -/
def PendingForEver (q : Seq) (s : State) : Prop :=
  Inv s ∧ s.seq = q ∧ (s.perm.req = true ∧ s.perm.ack = false) ∧ NoReset s ∧ ∀ a ∈ s.turns, a ≠ .perm

theorem PendingForEver.step {q : Seq} {s t : State} (h : PendingForEver q s) (ht : step s = .next t) :
    PendingForEver q t := by
  obtain ⟨hinv, hq, hpend, hn, hts⟩ := h
  have hinv' : Inv t := stepKeepsTheInvariant s t hinv ht
  rcases step_cases s with heq | ⟨ts, hcons, heq⟩ | ⟨ts, hcons, -⟩
  · have hspent : Inv { s with turns := s.turns.tail } := hinv.withWorld s.host _ s.popped s.reads s.freeCount
    obtain ⟨-, -, hw⟩ := hspent.coreWaits_of_pending hpend.1 hpend.2
    cases hw.symm.trans (heq.symm.trans ht)
    exact ⟨hinv', hq, hpend, hn, fun a ha => hts a (List.mem_of_mem_tail ha)⟩
  · cases heq.symm.trans ht
    obtain ⟨ho, hperm⟩ := hostTurn_outside (s := { s with turns := ts }) hn
    refine ⟨hinv', ho.seq.trans hq, by rw [hperm]; exact hpend, NoReset.outside (s := { s with turns := ts }) hn ho,
      fun a ha => hts a ?_⟩
    rw [ho.turns] at ha
    exact hcons ▸ List.mem_cons_of_mem _ ha
  · exact absurd rfl (hts .perm (hcons ▸ List.mem_cons_self ..))

theorem Inv.hung_of_pending {s : State} (h : Inv s) (hreq : s.perm.req = true) (hack : s.perm.ack = false)
    (hn : NoReset s) : HungOnPermutation s := by
  refine ⟨hreq, hack, fun ts n t hts hrun => ?_⟩
  have hstart : PendingForEver s.seq { s with turns := ts } :=
    ⟨h.withWorld s.host ts s.popped s.reads s.freeCount, rfl, ⟨hreq, hack⟩, hn, hts⟩
  obtain ⟨hinv, hq, ⟨hreq', hack'⟩, -⟩ := run_keeps (fun u v hu => hu.step) hstart hrun
  exact ⟨hq, hinv.coreWaits_of_pending hreq' hack'⟩

/-! ### Not stuck while the host serves the step -/

/-- While a byte step is starved nothing is requested on the port: the pending step would be a permuting one. -/
theorem Inv.req_of_starved {s : State} (h : Inv s) {i : Instr} {k : Nat} (hs : s.seq = .run i k)
    (hk : k < byteSteps i) (hst : Starved i s) : s.perm.req = false := by
  by_contra hr
  obtain ⟨-, j, l, u, hs', he, -⟩ := h.port (by simpa using hr)
  obtain ⟨rfl, rfl⟩ := Seq.run.inj (hs.symm.trans hs')
  have hw : effectOf i k s = .wait := (if_pos hk).trans ((byteEffect_eq_wait_iff hk s).mpr hst)
  exact nomatch hw.symm.trans he

/-- A starved core whose host's next step ends the starvation is not stuck. -/
theorem Inv.not_stuck_of_served {s t : State} (h : Inv s) {i : Instr} {k : Nat} (hs : s.seq = .run i k)
    (hk : k < byteSteps i) (hst : Starved i s) (ht : hostTurn { s with turns := [] } = t) (hperm : t.perm = s.perm)
    (hfed : ¬Starved i t) : ¬CoreStuck s := by
  rintro ⟨-, hw⟩
  have hrun : Host.Core.run Sys2Proof.core 1 { s with turns := [.host] } = .next t := ht ▸ rfl
  obtain ⟨hseq, hwait⟩ := hw [.host] 1 t (fun _ _ => trivial) hrun
  have he := effectOf_eq_wait_of_coreWaits (hseq.trans hs) (hperm ▸ h.req_of_starved hs hk hst) hwait
  exact hfed ((byteEffect_eq_wait_iff hk t).mp ((if_pos hk).symm.trans he))

/-- The host's push of a byte onto an empty `DIN`. -/
theorem hostTurn_pushDin {s : State} {b : Byte} {hs : List HostStep} (hr : s.rst = false) (hd : s.din = [])
    (hroom : 1 ≤ s.params.dinDepth) (hh : s.host = .pushDin b :: hs) :
    hostTurn s = { s with host := hs, din := [b] } := by
  have ha : hostAction (.pushDin b) { s with host := hs } = some { s with host := hs, din := [b] } :=
    hostAction_pushDin_eq_some.mpr ⟨⟨hr, by rw [hd]; exact hroom⟩, by simp [hd]⟩
  rw [hostTurn_cons hh, ha, Option.getD_some]

/-- The host's pop of the oldest byte of `DOUT`. -/
theorem hostTurn_popDout {s : State} {b : Byte} {rest : List Byte} {hs : List HostStep} (hr : s.rst = false)
    (hd : s.dout = b :: rest) (hh : s.host = .popDout :: hs) :
    hostTurn s = { s with host := hs, dout := rest, popped := s.popped ++ [b] } := by
  have ha : hostAction .popDout { s with host := hs } =
      some { s with host := hs, dout := rest, popped := s.popped ++ [b] } :=
    hostAction_popDout_eq_some.mpr ⟨b, rest, hd, hr, rfl⟩
  rw [hostTurn_cons hh, ha, Option.getD_some]

/-- A command that takes bytes alone is not stuck while the host's next step is the push of one. -/
theorem Inv.not_stuck_of_pushDin {s : State} (h : Inv s) {i : Instr} {k : Nat} (hs : s.seq = .run i k)
    (hk : k < byteSteps i) (hin : takesDin i = true) (hout : pushesDout i = false) (hd : s.din = []) {b : Byte}
    {hs' : List HostStep} (hh : s.host = .pushDin b :: hs') : ¬CoreStuck s := by
  obtain ⟨-, hroom, -⟩ := h.depths
  refine h.not_stuck_of_served hs hk (.inl ⟨hin, hd⟩)
    (hostTurn_pushDin (s := { s with turns := [] }) (h.rst_of_run hs) hd hroom hh) rfl ?_
  simp [Starved, hout]

/-- A command that gives bytes alone is not stuck while the host's next step is a pop. -/
theorem Inv.not_stuck_of_popDout {s : State} (h : Inv s) {i : Instr} {k : Nat} (hs : s.seq = .run i k)
    (hk : k < byteSteps i) (hin : takesDin i = false) (hout : pushesDout i = true)
    (hd : s.params.doutDepth ≤ s.dout.length) {hs' : List HostStep} (hh : s.host = .popDout :: hs') :
    ¬CoreStuck s := by
  obtain ⟨-, -, hdepth⟩ := h.depths
  obtain ⟨-, -, hfits⟩ := h.queues
  cases hq : s.dout with
  | nil =>
    rw [hq, List.length_nil] at hd
    omega
  | cons b rest =>
    refine h.not_stuck_of_served hs hk (.inr ⟨hout, hd⟩)
      (hostTurn_popDout (s := { s with turns := [] }) (h.rst_of_run hs) hq hh) rfl ?_
    rw [hq, List.length_cons] at hfits
    simp only [Starved, hin, hout, Bool.false_eq_true, false_and, true_and, false_or, Nat.not_le]
    omega

/-! ### No end of a run -/

/-- A core that waits for ever has a command under execution. -/
theorem WaitsForever.running {allowed : Agent → Prop} {s : State} (h : WaitsForever allowed s) : s.seq ≠ .idle := by
  obtain ⟨-, -, hne, -⟩ := h [] 0 _ nofun rfl
  exact hne

/-- A run ends, cleanly or halted, with the core idle alone (40_sequencer.md R97). -/
theorem not_ended_of_running {s : State} (h : s.seq ≠ .idle) : ¬EndedCleanly s ∧ ¬EndedHalted s :=
  ⟨fun ⟨_, _, hi, _⟩ => h hi, fun ⟨_, hi, _⟩ => h hi⟩

/-! ### Runs of a program -/

/-- The core's turn leaves `rst` and the host's coming steps. -/
theorem coreTurn_rst_host {s t : State} (ht : coreTurn s = .next t) : t.rst = s.rst ∧ t.host = s.host := by
  rcases coreTurn_cases s with ⟨heq, -⟩ | ⟨w, rest, -, -, -, -, ⟨-, heq⟩ | ⟨i, -, heq⟩⟩ | ⟨i, k, hr, hs, heq⟩
  · cases heq.symm.trans ht
    exact ⟨rfl, rfl⟩
  · cases heq.symm.trans ht
    exact ⟨rfl, rfl⟩
  · cases heq.symm.trans ht
    rcases issue_cases i { s with cmdq := rest } with ⟨-, hi⟩ | ⟨-, hi⟩ <;> rw [hi] <;> exact ⟨rfl, rfl⟩
  · obtain ⟨⟨-, -, -, -, -, -, -, hrst, -, hhost, -⟩, -⟩ :=
      runningCommandsKeepControl i k s t hs ((coreTurn_running hr hs).symm.trans ht)
    exact ⟨hrst, hhost⟩

/-- What every state of a run of a program has: the invariant, `rst` released, and a host that pushes and pops alone. -/
def InRun (s : State) : Prop := Inv s ∧ s.rst = false ∧ ∀ a ∈ s.host, a.inRun = true

/-- A host that pushes and pops alone does not reset. -/
theorem noReset_of_inRun {s : State} (h : ∀ a ∈ s.host, a.inRun = true) : NoReset s :=
  ⟨fun hm => absurd (h _ hm) (by decide), fun hm => absurd (h _ hm) (by decide)⟩

theorem InRun.step {s t : State} (h : InRun s) (ht : step s = .next t) : InRun t := by
  obtain ⟨hinv, hr, hh⟩ := h
  refine ⟨stepKeepsTheInvariant s t hinv ht, ?_⟩
  have outside : ∀ ts u, OutsideTurn { s with turns := ts } u → u.rst = false ∧ ∀ a ∈ u.host, a.inRun = true :=
    fun ts u ho => ⟨ho.rst hr, fun a ha => hh a (ho.host a ha)⟩
  rcases step_cases s with heq | ⟨ts, -, heq⟩ | ⟨ts, -, heq⟩
  · obtain ⟨hrst, hhost⟩ := coreTurn_rst_host (heq.symm.trans ht)
    exact ⟨hrst.trans hr, by rw [hhost]; exact hh⟩
  · cases heq.symm.trans ht
    exact outside ts _ (hostTurn_outside (s := { s with turns := ts }) (noReset_of_inRun hh)).1
  · cases heq.symm.trans ht
    exact outside ts _ (permTurn_outside _)

/-- A launch state meets the invariant: it is a reset state but for `CTRL`. -/
theorem IsLaunch.inv {s : State} (h : IsLaunch s) : Inv s ∧ s.rst = false := by
  obtain ⟨strict, ie, ps, hc, hd, ho, rfl⟩ := h
  have hreset : Inv { State.reset with params := ps } :=
    inv_resetCore (s := { State.reset with params := ps }) ⟨hc, hd, ho⟩ false
  exact ⟨hreset.of_outside rfl rfl rfl rfl rfl hreset.queues hreset.noError hreset.halted fun _ => queues_kept _, rfl⟩

/-- Every state a run of a program comes to meets the invariant, `rst` released. -/
theorem Program.Run.inRun {p : Program} {launch s : State} (h : p.Run launch s) : InRun s := by
  obtain ⟨hl, hs, ts, n, ⟨hin, -⟩, hrun⟩ := h
  obtain ⟨hinv, hr⟩ := hl.inv
  have hstart : InRun { launch with host := hs, turns := ts } :=
    ⟨hinv.withWorld hs ts launch.popped launch.reads launch.freeCount, hr, hin⟩
  exact run_keeps (fun u v hu => hu.step) hstart hrun

/-- Settles O59: a byte step waits when it is starved, for ever when nothing that feeds it is coming; a pending request
likewise; a running core has not ended; and every step of a run keeps the invariant. -/
theorem stuckIsWaitingForEverAndNoEnd : Obligations.StuckIsWaitingForEverAndNoEnd := by
  refine ⟨fun s i k hr hs hk h => coreWaits_of_starved hr hs hk ?starved, fun s h => h.coreWaits_of_pending,
    fun s i k hr hs hk hn hn' h => StarvedForEver.stuck hk ⟨hr, hs, ⟨hn, hn'⟩, ?forever⟩,
    fun s h hreq hack hn hn' => h.hung_of_pending hreq hack ⟨hn, hn'⟩, fun s i k hs' h hs hk hf => ?served,
    fun s h => not_ended_of_running ?running, fun p launch s h => ?run⟩
  case starved =>
    rcases h with ⟨hd, ⟨n, rfl | rfl⟩ | ⟨p, c, ph, rfl⟩⟩ | ⟨hd, ⟨n, rfl⟩ | rfl⟩ | ⟨hd, n, rfl | rfl | rfl⟩
    · exact .inl ⟨rfl, hd⟩
    · exact .inl ⟨rfl, hd⟩
    · exact .inl ⟨rfl, hd⟩
    · exact .inr ⟨rfl, hd⟩
    · exact .inr ⟨rfl, hd⟩
    all_goals exact hd.imp (⟨rfl, ·⟩) (⟨rfl, ·⟩)
  case forever =>
    rcases h with ⟨hd, hno, hi⟩ | ⟨hd, hno, hi⟩
    · refine .inl ⟨?_, hd, hno⟩
      obtain ⟨n, rfl | rfl | rfl | rfl | rfl⟩ | ⟨p, c, ph, rfl⟩ := hi <;> rfl
    · refine .inr ⟨?_, hd, hno⟩
      obtain ⟨n, rfl | rfl | rfl | rfl⟩ | rfl := hi <;> rfl
  case served =>
    rcases hf with ⟨hd, ⟨b, hh⟩, hi⟩ | ⟨hd, hh, hi⟩
    · obtain ⟨hin, hout⟩ : takesDin i = true ∧ pushesDout i = false := by
        obtain ⟨n, rfl | rfl⟩ | ⟨p, c, ph, rfl⟩ := hi <;> exact ⟨rfl, rfl⟩
      exact h.not_stuck_of_pushDin hs hk hin hout hd hh
    · obtain ⟨hin, hout⟩ : takesDin i = false ∧ pushesDout i = true := by
        obtain ⟨n, rfl⟩ | rfl := hi <;> exact ⟨rfl, rfl⟩
      exact h.not_stuck_of_popDout hs hk hin hout hd hh
  case running =>
    rcases h with ⟨-, hne, -⟩ | ⟨-, hw⟩ | ⟨-, -, hw⟩
    · exact hne
    · exact hw.running
    · exact hw.running
  case run =>
    obtain ⟨hinv, hr, -⟩ := h.inRun
    exact ⟨hinv, hr⟩

end Sys2Proof.Machine
end

section
/-! PROOFS. The data commands (41_absorb_squeeze.md, 42_duplex.md): one byte step of any of the five as one function of the
state, the clauses their rules share, and O13 to O15 and O24. -/

namespace Sys2Proof.Machine

/-! ### The five data commands -/

/-- The data commands (40_sequencer.md R88): those whose byte steps end with `Advance()`. -/
inductive DataCmd where
  | absorb
  | squeeze
  | squeezeXor
  | encrypt
  | decrypt

/-- The command of `n` bytes. -/
def DataCmd.instr : DataCmd → Nat → Instr
  | .absorb, n => .absorb n
  | .squeeze, n => .squeeze n
  | .squeezeXor, n => .squeezeXor n
  | .encrypt, n => .encrypt n
  | .decrypt, n => .decrypt n

/-- The phase in which the command is out of order (40_sequencer.md R86). -/
def DataCmd.badPhase : DataCmd → Phase
  | .absorb => .squeezing
  | .squeeze => .absorbing
  | .squeezeXor => .absorbing
  | .encrypt => .absorbing
  | .decrypt => .absorbing

/-- What a byte step pushes onto `DOUT`, `b` being the oldest byte of `DIN` (41_absorb_squeeze.md R98, R100, R102,
42_duplex.md R107, R109). -/
def DataCmd.output (d : DataCmd) (b : Byte) (c : Context) : List Byte :=
  match d with
  | .absorb => []
  | .squeeze => [c.current]
  | .squeezeXor => [b ^^^ c.current]
  | .encrypt => [b ^^^ c.current]
  | .decrypt => [b ^^^ c.current]

/-- The context with what a byte step stores in `S[POS]`, before its `Advance()`. -/
def DataCmd.stored (d : DataCmd) (b : Byte) (c : Context) : Context :=
  match d with
  | .absorb => c.withCurrent (c.current ^^^ b)
  | .squeeze => c
  | .squeezeXor => c
  | .encrypt => c.withCurrent (b ^^^ c.current)
  | .decrypt => c.withCurrent (c.current ^^^ (b ^^^ c.current))

/-- The state before the `Advance()` of a byte step: the queues moved, the byte stored. -/
def DataCmd.served (d : DataCmd) (s : State) : State :=
  { s with
    din := if takesDin (d.instr 0) = true then s.din.tail else s.din,
    dout := s.dout ++ d.output (s.din.headD 0) s.ctx,
    ctx := d.stored (s.din.headD 0) s.ctx }

/-- The state after a whole byte step, `SEQ` apart. -/
def DataCmd.byteStep (d : DataCmd) (s : State) : State :=
  { d.served s with ctx := (d.served s).ctx.advanced }

theorem served_cons {d : DataCmd} (ht : takesDin (d.instr 0) = true) {s : State} {b : Byte} {rest : List Byte}
    (hd : s.din = b :: rest) :
    d.served s = { s with din := rest, dout := s.dout ++ d.output b s.ctx, ctx := d.stored b s.ctx } := by
  simp [DataCmd.served, ht, hd]

theorem byteStep_cons {d : DataCmd} (ht : takesDin (d.instr 0) = true) {s : State} {b : Byte} {rest : List Byte}
    (hd : s.din = b :: rest) :
    d.byteStep s = { s with
      din := rest, dout := s.dout ++ d.output b s.ctx, ctx := (d.stored b s.ctx).advanced } := by
  rw [DataCmd.byteStep, served_cons ht hd]

theorem byteStep_squeeze (s : State) :
    DataCmd.squeeze.byteStep s = { s with dout := s.dout ++ [s.ctx.current], ctx := s.ctx.advanced } := rfl

/-- ABSORB outputs nothing. -/
theorem byteStep_absorb {s : State} {b : Byte} {rest : List Byte} (hd : s.din = b :: rest) :
    DataCmd.absorb.byteStep s = { s with din := rest, ctx := s.ctx.absorbed b } := by
  rw [byteStep_cons rfl hd, DataCmd.output, List.append_nil]
  rfl

theorem takesDin_instr (d : DataCmd) (n : Nat) : takesDin (d.instr n) = takesDin (d.instr 0) := by
  cases d <;> rfl

theorem pushesDout_instr (d : DataCmd) (n : Nat) : pushesDout (d.instr n) = pushesDout (d.instr 0) := by
  cases d <;> rfl

@[simp] theorem byteSteps_instr (d : DataCmd) (n : Nat) : byteSteps (d.instr n) = n := by
  cases d <;> rfl

@[simp] theorem finishEffect_instr (d : DataCmd) (n : Nat) (s : State) : finishEffect (d.instr n) s = .done s := by
  cases d <;> rfl

@[simp] theorem stored_pos (d : DataCmd) (b : Byte) (c : Context) : (d.stored b c).pos = c.pos := by
  cases d <;> rfl

@[simp] theorem stored_cap (d : DataCmd) (b : Byte) (c : Context) : (d.stored b c).cap = c.cap := by
  cases d <;> rfl

@[simp] theorem stored_phase (d : DataCmd) (b : Byte) (c : Context) : (d.stored b c).phase = c.phase := by
  cases d <;> rfl

@[simp] theorem stored_cfg (d : DataCmd) (b : Byte) (c : Context) : (d.stored b c).cfg = c.cfg := by
  cases d <;> rfl

theorem rate_congr {c c' : Context} (h : c'.cap = c.cap) : c'.rate = c.rate := by
  rw [Context.rate, Context.rate, h]

@[simp] theorem stored_rate (d : DataCmd) (b : Byte) (c : Context) : (d.stored b c).rate = c.rate :=
  rate_congr (stored_cap ..)

/-! ### The check of a data command -/

/-- A data command is checked for `CFG` and, under STRICT, for its phase (40_sequencer.md R84). -/
theorem check_instr (strict : Bool) (c : Context) (d : DataCmd) (n : Nat) :
    check strict c (d.instr n) =
      if c.cfg = false then .nocfg else if strict = true ∧ c.phase = d.badPhase then .phase else .none := by
  have hn : needsCfg (d.instr n) = true := by cases d <;> rfl
  have hp : phaseBad (d.instr n) c.phase = decide (c.phase = d.badPhase) := by cases d <;> rfl
  have ho : paramsOk c (d.instr n) = true := by cases d <;> rfl
  rw [check, hn, hp, ho]
  exact if_congr (by simp) rfl (if_congr (by simp) rfl rfl)

theorem DataCmd.exec_nocfg (d : DataCmd) (len : Nat) {s : State} (hi : s.seq = .idle) (hc : s.ctx.cfg = false) :
    exec (d.instr len) s =
      .next (Claims.failed s .nocfg (Laws.opcodeNibble (d.instr len)) (encode (d.instr len))) := by
  rw [exec_idle hi, issue_of_fail ((check_instr ..).trans (if_pos hc)) (by decide), encode_opcode]

theorem DataCmd.exec_badPhase (d : DataCmd) (len : Nat) {s : State} (hi : s.seq = .idle) (hc : s.ctx.cfg = true)
    (hp : s.strict = true ∧ s.ctx.phase = d.badPhase) :
    exec (d.instr len) s =
      .next (Claims.failed s .phase (Laws.opcodeNibble (d.instr len)) (encode (d.instr len))) := by
  have hcheck : check s.strict s.ctx (d.instr len) = .phase := by simp [check_instr, hc, hp]
  rw [exec_idle hi, issue_of_fail hcheck (by decide), encode_opcode]

theorem check_instr_passes {s : State} {d : DataCmd} (hc : s.ctx.cfg = true)
    (hp : ¬(s.strict = true ∧ s.ctx.phase = d.badPhase)) (len : Nat) :
    check s.strict s.ctx (d.instr len) = .none := by
  rw [check_instr, if_neg (by simp [hc]), if_neg hp]

theorem DataCmd.exec_start (d : DataCmd) (len : Nat) {s : State} (hi : s.seq = .idle) (hc : s.ctx.cfg = true)
    (hp : ¬(s.strict = true ∧ s.ctx.phase = d.badPhase)) :
    exec (d.instr len) s = .next { s with seq := .run (d.instr len) 0 } := by
  rw [exec_idle hi, issue_of_pass (check_instr_passes hc hp len)]

/-! ### The byte steps and the finish step of a data command -/

/-- A byte step that is not starved serves its byte and advances. -/
theorem byteEffect_instr {d : DataCmd} {n k : Nat} {s : State} (hw : s.ctx.inWindow)
    (hs : ¬Starved (d.instr n) s) : byteEffect (d.instr n) k s = advance (d.served s) := by
  have hpos : s.ctx.pos.toNat < 200 := pos_lt_200 hw
  have hin : takesDin (d.instr n) = true → ∃ b rest, s.din = b :: rest := fun ht =>
    List.exists_cons_of_ne_nil fun hd => hs (.inl ⟨ht, hd⟩)
  have hout : pushesDout (d.instr n) = true → s.dout.length < s.params.doutDepth := fun hp =>
    Nat.lt_of_not_le fun hd => hs (.inr ⟨hp, hd⟩)
  cases d with
  | absorb =>
    obtain ⟨b, rest, hd⟩ := hin rfl
    rw [served_cons rfl hd, DataCmd.output, List.append_nil]
    show absorbByte k s = _
    rw [absorbByte, popDin_cons hd]
    exact withStateByte_of_lt hpos _
  | squeeze => exact (whenDoutReady_of_room (hout rfl) _).trans (withStateByte_of_lt hpos _)
  | squeezeXor =>
    obtain ⟨b, rest, hd⟩ := hin rfl
    rw [served_cons rfl hd]
    refine (whenDoutReady_of_room (hout rfl) _).trans ((popDin_cons hd _).trans ?_)
    exact withStateByte_of_lt hpos _
  | encrypt =>
    obtain ⟨b, rest, hd⟩ := hin rfl
    rw [served_cons rfl hd]
    refine (whenDoutReady_of_room (hout rfl) _).trans ((popDin_cons hd _).trans ?_)
    exact withStateByte_of_lt hpos _
  | decrypt =>
    obtain ⟨b, rest, hd⟩ := hin rfl
    rw [served_cons rfl hd]
    refine (whenDoutReady_of_room (hout rfl) _).trans ((popDin_cons hd _).trans ?_)
    exact withStateByte_of_lt hpos _

/-- `Advance()` taken whole: with the permutation internal, or inside the rate window. -/
theorem commit_advance {s u : State} (q : Seq) (h : s.params.permExternal = false ∨ u.ctx.pos.toNat + 1 ≠ u.ctx.rate) :
    commit s q (advance u) = .next { u with ctx := u.ctx.advanced, seq := q } := by
  by_cases hb : u.ctx.pos.toNat + 1 = u.ctx.rate
  · rw [advance_boundary hb, commit, permuteStep_internal (h.resolve_right (not_not_intro hb)), Context.advanced,
      if_pos hb]
    rfl
  · rw [advance_inside hb, commit, Context.advanced, if_neg hb]
    rfl

theorem exec_starved {i : Instr} {k : Nat} {s : State} (hs : s.seq = .run i k) (hk : k < byteSteps i)
    (h : Starved i s) : exec i s = .next s := by
  have he : effectOf i k s = .wait := (if_pos hk).trans ((byteEffect_eq_wait_iff hk s).mpr h)
  rw [exec_run hs, he]
  rfl

theorem DataCmd.exec_byte {d : DataCmd} {n k : Nat} {s : State} (hs : s.seq = .run (d.instr n) k) (hk : k < n)
    (hst : ¬Starved (d.instr n) s) (hw : s.ctx.inWindow) (ha : Claims.AdvancesAtOnce s) :
    exec (d.instr n) s = .next { d.byteStep s with seq := .run (d.instr n) (k + 1) } := by
  have hk' : k < byteSteps (d.instr n) := by rwa [byteSteps_instr]
  rw [exec_run hs, effectOf, if_pos hk', byteEffect_instr hw hst, nextSeq, if_pos hk', commit_advance]
  · rfl
  · simpa [DataCmd.served] using ha

/-- A finish step other than PAD's, which permutes, sets the context and ends the command. -/
theorem exec_finish {i : Instr} {k : Nat} {s : State} (hs : s.seq = .run i k) (hk : byteSteps i ≤ k)
    (hi : ∀ n, i ≠ .pad n) : exec i s = .next { s with ctx := finishContext i s.ctx, seq := .idle } := by
  have hk' : ¬k < byteSteps i := Nat.not_lt.mpr hk
  rw [exec_run hs, effectOf, if_neg hk', finishEffect_eq, nextSeq, if_neg hk']
  cases i with
  | pad n => exact absurd rfl (hi n)
  | _ => rfl

theorem DataCmd.exec_finish_instr {d : DataCmd} {n : Nat} {s : State} (hs : s.seq = .run (d.instr n) n) :
    exec (d.instr n) s = .next { s with seq := .idle } := by
  rw [exec_finish hs (byteSteps_instr d n).le (by cases d <;> exact nofun)]
  cases d <;> rfl

/-! ### O13, O14 and O15 -/

/-- Settles O13: the clauses of a data command, for ABSORB. -/
theorem absorbXorsInputIntoTheRate : Obligations.AbsorbXorsInputIntoTheRate := by
  refine ⟨encoding_of_row (rowOf_mem (.absorb 0)), fun len s _ => ⟨DataCmd.absorb.exec_nocfg len,
    DataCmd.absorb.exec_badPhase len, DataCmd.absorb.exec_start len,
    fun k hs hk hd => exec_starved hs hk (.inl ⟨rfl, hd⟩), ?byte,
    DataCmd.exec_finish_instr (d := .absorb)⟩⟩
  case byte =>
    intro k b rest hs hk hd hw ha
    have hst : ¬Starved (.absorb len) s := by simp [Starved, takesDin, pushesDout, hd]
    refine (DataCmd.exec_byte (d := .absorb) hs hk hst hw ha).trans ?_
    rw [byteStep_absorb hd]
    rfl

/-- Settles O14: the clauses of a data command, for SQUEEZE. -/
theorem squeezeOutputsTheRate : Obligations.SqueezeOutputsTheRate := by
  refine ⟨encoding_of_row (rowOf_mem (.squeeze 0)), fun len s _ => ⟨DataCmd.squeeze.exec_nocfg len,
    DataCmd.squeeze.exec_badPhase len, DataCmd.squeeze.exec_start len,
    fun k hs hk hd => exec_starved hs hk (.inr ⟨rfl, hd⟩), ?byte,
    DataCmd.exec_finish_instr (d := .squeeze)⟩⟩
  case byte =>
    intro k hs hk hd hw ha
    have hst : ¬Starved (.squeeze len) s := by simp [Starved, takesDin, pushesDout, hd]
    exact DataCmd.exec_byte (d := .squeeze) hs hk hst hw ha

/-- Settles O15: the clauses of a data command, for SQUEEZE_XOR. -/
theorem squeezeXorMasksInputWithTheRate : Obligations.SqueezeXorMasksInputWithTheRate := by
  refine ⟨encoding_of_row (rowOf_mem (.squeezeXor 0)), fun len s _ => ⟨DataCmd.squeezeXor.exec_nocfg len,
    DataCmd.squeezeXor.exec_badPhase len, DataCmd.squeezeXor.exec_start len,
    fun k hs hk hd => exec_starved hs hk (hd.imp (⟨rfl, ·⟩) (⟨rfl, ·⟩)), ?byte,
    DataCmd.exec_finish_instr (d := .squeezeXor)⟩⟩
  case byte =>
    intro k b rest hs hk hd hr hw ha
    have hst : ¬Starved (.squeezeXor len) s := by simp [Starved, takesDin, pushesDout, hd, hr]
    refine (DataCmd.exec_byte (d := .squeezeXor) hs hk hst hw ha).trans ?_
    rw [byteStep_cons rfl hd]
    rfl

/-! ### The steps that store nothing: O24 -/

/-- Settles O24: such a step is a byte step that does not permute, or a finish step other than PAD's. -/
theorem nonStoringStepsKeepTheBuffer : Obligations.NonStoringStepsKeepTheBuffer := by
  intro i n k s t hs hi ht
  by_cases hk : k < byteSteps i
  case pos =>
    have hi' : (i = .squeeze n ∨ i = .squeezeXor n) ∧ s.ctx.pos.toNat + 1 ≠ s.ctx.rate ∨ i = .ctxSave := by
      rcases hi with ⟨h, -, hne⟩ | rfl | rfl | ⟨rfl | rfl | rfl | rfl | rfl, rfl⟩
      · exact .inl ⟨h, hne⟩
      · exact .inr rfl
      · exact absurd hk (Nat.not_lt_zero k)
      all_goals exact absurd hk (Nat.lt_irrefl _)
    have hp : ∀ u, byteEffect i k s ≠ .permute u := fun u hu => by
      rcases hi' with ⟨-, hne⟩ | rfl
      · exact hne (byteEffect_eq_permute hu).1
      · exact nomatch whenDoutReady_eq_permute hu
    rcases exec_of_not_permuting hs hk hp ht with rfl | ⟨u, hu, rfl⟩
    · exact ⟨fun _ => rfl, rfl, rfl, fun _ => rfl, fun _ => ⟨rfl, rfl⟩, rfl, (KeepsControl.refl t).controlUnchanged⟩
    · obtain ⟨hkeep, -, ⟨b, -, hdin, hctx⟩, -⟩ := reaches_byteEffect hu
      rw [withSeq_ctx, withSeq_din, hctx]
      refine ⟨fun a => ?_, byteContext_cap .., byteContext_cfg .., fun _ => byteContext_phase .., ?_, hkeep.perm,
        hkeep.controlUnchanged⟩
      · rcases hi' with ⟨rfl | rfl, -⟩ | rfl <;> rfl
      · rintro rfl
        exact ⟨rfl, hdin rfl⟩
  case neg =>
    have hpad : ∀ m, i ≠ .pad m := by
      rintro m rfl
      simp at hi
    cases (exec_finish hs (Nat.le_of_not_lt hk) hpad).symm.trans ht
    have hcontrol := (KeepsControl.refl s).controlUnchanged
    rcases hi with ⟨rfl | rfl, -⟩ | rfl | rfl | ⟨rfl | rfl | rfl | rfl | rfl, -⟩
    case inr.inr.inl => exact ⟨fun _ => rfl, rfl, rfl, fun h => absurd rfl h, nofun, rfl, hcontrol⟩
    all_goals exact ⟨fun _ => rfl, rfl, rfl, fun _ => rfl, fun _ => ⟨rfl, rfl⟩, rfl, hcontrol⟩

end Sys2Proof.Machine
end

section
/-! PROOFS. Whole data commands (41_absorb_squeeze.md R98 to R103): runs of byte steps as an iterated function, the bytes
and contexts they give, the cursor and the count of permutations, and O50 to O52 and O55. -/

namespace Sys2Proof.Machine

/-! ### Runs -/

theorem run_succ {s t : State} (h : step s = .next t) (n : Nat) :
    Host.Core.run Sys2Proof.core (n + 1) s = Host.Core.run Sys2Proof.core n t := by
  simp only [Host.Core.run, show Sys2Proof.core.step s = .next t from h]

theorem run_add {m : Nat} {s t : State} (h : Host.Core.run Sys2Proof.core m s = .next t) (n : Nat) :
    Host.Core.run Sys2Proof.core (m + n) s = Host.Core.run Sys2Proof.core n t := by
  induction m generalizing s with
  | zero =>
    cases h
    rw [Nat.zero_add]
  | succ m ih =>
    simp only [Nat.succ_add, Host.Core.run] at h ⊢
    cases hs : Sys2Proof.core.step s <;> simp only [hs, reduceCtorEq] at h ⊢
    exact ih h

/-! ### `Advance()` and the window -/

theorem advanced_cap (c : Context) : c.advanced.cap = c.cap := by
  unfold Context.advanced
  split <;> rfl

theorem advanced_phase (c : Context) : c.advanced.phase = c.phase := by
  unfold Context.advanced
  split <;> rfl

theorem advanced_cfg (c : Context) : c.advanced.cfg = c.cfg := by
  unfold Context.advanced
  split <;> rfl

theorem advanced_rate (c : Context) : c.advanced.rate = c.rate := rate_congr (advanced_cap c)

/-- `Advance()` moves the cursor round the rate window (40_sequencer.md R88). -/
theorem advanced_pos {c : Context} (h : c.pos.toNat < c.rate) :
    c.advanced.pos.toNat = (c.pos.toNat + 1) % c.rate := by
  unfold Context.advanced
  split
  · rename_i hb
    rw [hb, Nat.mod_self]
    rfl
  · rename_i hb
    obtain ⟨hpos, hlt⟩ := succ_pos_lt_rate h hb
    rw [Nat.mod_eq_of_lt hlt, hpos]

theorem advanced_inWindow {c : Context} (h : c.inWindow) : c.advanced.inWindow := by
  obtain ⟨hcap, hpos⟩ := h
  refine ⟨by rwa [advanced_cap], ?_⟩
  rw [advanced_rate, advanced_pos hpos]
  exact Nat.mod_lt _ (Nat.zero_lt_of_lt hpos)

theorem stored_inWindow {c : Context} (h : c.inWindow) (d : DataCmd) (b : Byte) : (d.stored b c).inWindow := by
  simpa [Context.inWindow] using h

/-! ### A core that can take the byte steps -/

/-- The core alone, the permutation internal, the cursor in the window, and `n` byte steps of the command fed: `n` bytes in
`DIN` if it takes them, `n` slots in `DOUT` if it pushes. -/
structure DataCmd.Fed (d : DataCmd) (n : Nat) (s : State) : Prop where
  alone : Claims.CoreAlone s
  internal : s.params.permExternal = false
  window : s.ctx.inWindow
  input : takesDin (d.instr 0) = true → n ≤ s.din.length
  room : pushesDout (d.instr 0) = true → s.dout.length + n ≤ s.params.doutDepth

/-- `SEQ` is no part of it. -/
theorem DataCmd.Fed.withSeq {d : DataCmd} {n : Nat} {s : State} (h : d.Fed n s) (q : Seq) : d.Fed n (s.withSeq q) :=
  ⟨h.alone, h.internal, h.window, h.input, h.room⟩

/-- What feeds `n` byte steps feeds any fewer. -/
theorem DataCmd.Fed.mono {d : DataCmd} {m n : Nat} {s : State} (h : d.Fed n s) (hm : m ≤ n) : d.Fed m s :=
  ⟨h.alone, h.internal, h.window, fun ht => hm.trans (h.input ht),
    fun hp => (Nat.add_le_add_left hm _).trans (h.room hp)⟩

theorem DataCmd.Fed.not_starved {d : DataCmd} {n : Nat} {s : State} (h : d.Fed (n + 1) s) (len : Nat) :
    ¬Starved (d.instr len) s := by
  rw [Starved, takesDin_instr, pushesDout_instr]
  rintro (⟨ht, hd⟩ | ⟨hp, hd⟩)
  · have hin := h.input ht
    simp [hd] at hin
  · have hroom := h.room hp
    omega

theorem length_output_le (d : DataCmd) (b : Byte) (c : Context) : (d.output b c).length ≤ 1 := by
  cases d <;> simp [DataCmd.output]

/-- A byte step uses up one byte and one slot at most. -/
theorem DataCmd.Fed.byteStep {d : DataCmd} {n : Nat} {s : State} (h : d.Fed (n + 1) s) : d.Fed n (d.byteStep s) where
  alone := h.alone
  internal := h.internal
  window := advanced_inWindow (stored_inWindow h.window d _)
  input ht := by
    have hin := h.input ht
    have hdin : (d.byteStep s).din = s.din.tail := if_pos ht
    rw [hdin, List.length_tail]
    omega
  room hp := by
    have hroom := h.room hp
    have hout := length_output_le d (s.din.headD 0) s.ctx
    have hlen : (d.byteStep s).dout.length = s.dout.length + (d.output (s.din.headD 0) s.ctx).length :=
      List.length_append
    show (d.byteStep s).dout.length + n ≤ s.params.doutDepth
    omega

theorem DataCmd.Fed.iterate {d : DataCmd} {m n : Nat} {s : State} (h : d.Fed (m + n) s) : d.Fed n (d.byteStep^[m] s) := by
  induction m generalizing s with
  | zero => rwa [Nat.zero_add] at h
  | succ m ih =>
    rw [Nat.succ_add] at h
    exact ih h.byteStep

/-- Byte steps neither read nor write `SEQ`. -/
theorem iterate_withSeq (d : DataCmd) (n : Nat) (s : State) (q : Seq) :
    d.byteStep^[n] (s.withSeq q) = (d.byteStep^[n] s).withSeq q :=
  (Function.Semiconj.iterate_right (f := (State.withSeq · q)) (fun _ => rfl) n s).symm

/-- Byte steps of a data command keep all but the context, `DIN` and `DOUT`, and of the context the mode. -/
theorem iterate_keeps (d : DataCmd) (n : Nat) (s : State) :
    KeepsControl s (d.byteStep^[n] s) ∧ KeepsMode s.ctx (d.byteStep^[n] s).ctx := by
  induction n with
  | zero => exact ⟨.refl s, .of_eq rfl⟩
  | succ n ih =>
    obtain ⟨hcontrol, hcap, hphase, hcfg⟩ := ih
    rw [Function.iterate_succ_apply']
    refine ⟨hcontrol.trans (by constructor <;> rfl), ?_, ?_, ?_⟩
    · exact (advanced_cap _).trans ((stored_cap ..).trans hcap)
    · exact (advanced_phase _).trans ((stored_phase ..).trans hphase)
    · exact (advanced_cfg _).trans ((stored_cfg ..).trans hcfg)

/-! ### The steps of a fed command -/

theorem step_of_running {i : Instr} {k : Nat} {s : State} (h : Claims.CoreAlone s) (hs : s.seq = .run i k) :
    step s = exec i s := by
  obtain ⟨ht, hr⟩ := h
  rw [step_of_noTurns ht, coreTurn_running hr hs]

/-- `m` byte steps in a row. -/
theorem DataCmd.Fed.run_bytes {d : DataCmd} {m n k : Nat} {s : State} (h : d.Fed m s) (hs : s.seq = .run (d.instr n) k)
    (hk : k + m ≤ n) :
    Host.Core.run Sys2Proof.core m s = .next ((d.byteStep^[m] s).withSeq (.run (d.instr n) (k + m))) := by
  induction m generalizing s k with
  | zero =>
    rw [Nat.add_zero, ← hs]
    rfl
  | succ m ih =>
    have hstep : step s = .next ((d.byteStep s).withSeq (.run (d.instr n) (k + 1))) :=
      (step_of_running h.alone hs).trans
        (DataCmd.exec_byte hs (by omega) (h.not_starved n) h.window (.inl h.internal))
    rw [run_succ hstep, ih (h.byteStep.withSeq _) rfl (by omega), iterate_withSeq, Nat.add_assoc, Nat.add_comm 1 m]
    rfl

/-- The whole command once issued: its byte steps and the finish step (40_sequencer.md R83). -/
theorem DataCmd.Fed.run_command {d : DataCmd} {n : Nat} {s : State} (h : d.Fed n s)
    (hs : s.seq = .run (d.instr n) 0) :
    Host.Core.run Sys2Proof.core (n + 1) s = .next ((d.byteStep^[n] s).withSeq .idle) := by
  have hbytes := h.run_bytes hs (Nat.zero_add n).le
  have hfed : d.Fed 0 (d.byteStep^[n] s) := DataCmd.Fed.iterate (m := n) h
  have hlast := (step_of_running (hfed.withSeq _).alone rfl).trans
    (DataCmd.exec_finish_instr (s := (d.byteStep^[n] s).withSeq (.run (d.instr n) (0 + n))) (by rw [Nat.zero_add]; rfl))
  exact (run_add hbytes 1).trans (run_succ hlast 0)

/-! ### What the byte steps come to -/

theorem iterate_absorb {s : State} {bs rest : List Byte} (h : s.din = bs ++ rest) :
    DataCmd.absorb.byteStep^[bs.length] s = { s with din := rest, ctx := s.ctx.absorbAll bs } := by
  induction bs generalizing s with
  | nil =>
    rw [List.nil_append] at h
    rw [← h]
    rfl
  | cons b bs ih =>
    rw [List.length_cons, Function.iterate_succ_apply, byteStep_absorb h, ih rfl]
    rfl

theorem iterate_squeeze (n : Nat) (s : State) :
    DataCmd.squeeze.byteStep^[n] s =
      { s with dout := s.dout ++ (s.ctx.squeezeAll n).1, ctx := (s.ctx.squeezeAll n).2 } := by
  induction n generalizing s with
  | zero => simp [Context.squeezeAll]
  | succ n ih => simp [ih, byteStep_squeeze, Context.squeezeAll]

theorem iterate_squeezeXor {s : State} {bs rest : List Byte} (h : s.din = bs ++ rest) :
    DataCmd.squeezeXor.byteStep^[bs.length] s =
      { s with
        din := rest, dout := s.dout ++ (s.ctx.squeezeXorAll bs).1, ctx := (s.ctx.squeezeXorAll bs).2 } := by
  induction bs generalizing s with
  | nil =>
    rw [List.nil_append] at h
    simp [Context.squeezeXorAll, ← h]
  | cons b bs ih =>
    rw [List.length_cons, Function.iterate_succ_apply, byteStep_cons rfl h, ih rfl]
    simp [Context.squeezeXorAll, DataCmd.output, DataCmd.stored]

/-- The output of SQUEEZE_XOR is its input XORed with SQUEEZE's, and the contexts are the same (41_absorb_squeeze.md
R103). -/
theorem squeezeXorAll_eq (bs : List Byte) (c : Context) :
    Context.squeezeXorAll bs c =
      (List.zipWith (· ^^^ ·) bs (c.squeezeAll bs.length).1, (c.squeezeAll bs.length).2) := by
  induction bs generalizing c with
  | nil => rfl
  | cons b bs ih => simp [Context.squeezeXorAll, Context.squeezeAll, ih]

theorem length_squeezeAll (n : Nat) (c : Context) : (c.squeezeAll n).1.length = n := by
  induction n generalizing c with
  | zero => rfl
  | succ n ih => simp [Context.squeezeAll, ih]

/-! ### O50, O51 and O55 -/

/-- Settles O50: the byte steps of ABSORB absorb its bytes one by one. -/
theorem absorbCommandCompletes : Obligations.AbsorbCommandCompletes := by
  intro s bs rest ha hp hw hs hd
  have hfed : DataCmd.absorb.Fed bs.length s := ⟨ha, hp, hw, fun _ => by simp [hd], nofun⟩
  rw [hfed.run_command hs, iterate_absorb hd]
  rfl

/-- Settles O51: the byte steps of SQUEEZE push its output. -/
theorem squeezeCommandCompletes : Obligations.SqueezeCommandCompletes := by
  intro s n ha hp hw hs hr
  have hfed : DataCmd.squeeze.Fed n s := ⟨ha, hp, hw, nofun, fun _ => hr⟩
  rw [hfed.run_command hs, iterate_squeeze]
  rfl

/-- Settles O55: both commands end as their byte steps do, and those agree but for the XOR. -/
theorem squeezeXorIsInputXorSqueeze : Obligations.SqueezeXorIsInputXorSqueeze := by
  intro s bs rest ha hp hw hd hr
  refine ⟨{ s with ctx := (s.ctx.squeezeAll bs.length).2, seq := .idle }, (s.ctx.squeezeAll bs.length).1,
    squeezeCommandCompletes { s with seq := .run (.squeeze bs.length) 0 } _ ha hp hw rfl hr, rfl,
    length_squeezeAll .., ?_⟩
  have hfed : DataCmd.squeezeXor.Fed bs.length s := ⟨ha, hp, hw, fun _ => by simp [hd], fun _ => hr⟩
  have hrun := (hfed.withSeq (.run (.squeezeXor bs.length) 0)).run_command rfl
  rw [iterate_withSeq, iterate_squeezeXor hd, squeezeXorAll_eq] at hrun
  exact hrun

/-! ### The cursor and the permutations: O52 -/

/-- The successor is a multiple of `r` when the remainder is the last one. -/
theorem dvd_succ_iff {a r : Nat} (hr : 0 < r) : r ∣ a + 1 ↔ a % r + 1 = r := by
  have hlt : a % r < r := Nat.mod_lt _ hr
  rw [Nat.dvd_iff_mod_eq_zero, ← Nat.mod_add_mod]
  constructor
  · intro h
    by_contra hne
    rw [Nat.mod_eq_of_lt (by omega)] at h
    cases h
  · intro h
    rw [h, Nat.mod_self]

/-- Of `n` cursors in a row round a window of `r` bytes, from `p` on, as many stand at its end as the division says
(41_absorb_squeeze.md R99). -/
theorem count_window_ends {p r : Nat} (hp : p < r) (n : Nat) :
    ((List.range n).filter fun j => decide ((p + j) % r + 1 = r)).length = (p + n) / r := by
  induction n with
  | zero => simp [Nat.div_eq_of_lt hp]
  | succ n ih =>
    rw [List.range_succ, List.filter_append, List.length_append, ih, ← Nat.add_assoc, Nat.succ_div]
    simp only [dvd_succ_iff (Nat.zero_lt_of_lt hp)]
    by_cases h : (p + n) % r + 1 = r <;> simp [h]

theorem iterate_pos {d : DataCmd} {s : State} (h : s.ctx.inWindow) (n : Nat) :
    (d.byteStep^[n] s).ctx.inWindow ∧ (d.byteStep^[n] s).ctx.pos.toNat = (s.ctx.pos.toNat + n) % s.ctx.rate := by
  induction n with
  | zero => exact ⟨h, (Nat.mod_eq_of_lt h.2).symm⟩
  | succ n ih =>
    obtain ⟨hw, hpos⟩ := ih
    have hrate : (d.byteStep^[n] s).ctx.rate = s.ctx.rate := rate_congr (iterate_keeps d n s).2.cap
    have hstored := stored_inWindow hw d ((d.byteStep^[n] s).din.headD 0)
    rw [Function.iterate_succ_apply']
    refine ⟨advanced_inWindow hstored, ?_⟩
    rw [← Nat.add_assoc, ← Nat.mod_add_mod, ← hpos, ← hrate]
    exact (advanced_pos hstored.2).trans (by rw [stored_pos, stored_rate])

/-- Absorbing a byte moves the cursor as `Advance()` does. -/
theorem absorbed_pos {c : Context} (h : c.inWindow) (b : Byte) :
    (c.absorbed b).inWindow ∧ (c.absorbed b).rate = c.rate ∧
      (c.absorbed b).pos.toNat = (c.pos.toNat + 1) % c.rate := by
  have hstored : (c.withCurrent (c.current ^^^ b)).inWindow := stored_inWindow h .absorb b
  exact ⟨advanced_inWindow hstored, advanced_rate _, advanced_pos hstored.2⟩

theorem absorbAll_pos {c : Context} (h : c.inWindow) (bs : List Byte) :
    (c.absorbAll bs).pos.toNat = (c.pos.toNat + bs.length) % c.rate := by
  induction bs generalizing c with
  | nil => exact (Nat.mod_eq_of_lt h.2).symm
  | cons b bs ih =>
    obtain ⟨hw, hrate, hpos⟩ := absorbed_pos h b
    rw [show c.absorbAll (b :: bs) = (c.absorbed b).absorbAll bs from rfl, ih hw, hrate, hpos, Nat.mod_add_mod,
      List.length_cons, Nat.add_assoc, Nat.add_comm 1]

theorem squeezeAll_pos {c : Context} (h : c.inWindow) (n : Nat) :
    (c.squeezeAll n).2.pos.toNat = (c.pos.toNat + n) % c.rate := by
  induction n generalizing c with
  | zero => exact (Nat.mod_eq_of_lt h.2).symm
  | succ n ih =>
    rw [show (c.squeezeAll (n + 1)).2 = (c.advanced.squeezeAll n).2 from rfl, ih (advanced_inWindow h), advanced_rate,
      advanced_pos h.2, Nat.mod_add_mod, Nat.add_assoc, Nat.add_comm 1 n]

theorem permutes_advance (s : State) : Claims.permutes (advance s) = decide (s.ctx.pos.toNat + 1 = s.ctx.rate) := by
  by_cases h : s.ctx.pos.toNat + 1 = s.ctx.rate
  · simp [advance_boundary h, Claims.permutes, h]
  · simp [advance_inside h, Claims.permutes, h]

/-- The states a whole command goes through once issued: after `j` byte steps, and after the finish step. -/
def DataCmd.trace (d : DataCmd) (n : Nat) (s : State) (j : Nat) : State :=
  if j ≤ n then (d.byteStep^[j] s).withSeq (.run (d.instr n) j) else (d.byteStep^[n] s).withSeq .idle

theorem trace_of_le {d : DataCmd} {n j : Nat} (hj : j ≤ n) (s : State) :
    d.trace n s j = (d.byteStep^[j] s).withSeq (.run (d.instr n) j) := if_pos hj

theorem trace_end (d : DataCmd) (n : Nat) (s : State) : d.trace n s (n + 1) = (d.byteStep^[n] s).withSeq .idle :=
  if_neg (Nat.not_succ_le_self n)

theorem DataCmd.Fed.run_trace {d : DataCmd} {n j : Nat} {s : State} (h : d.Fed n s) (hs : s.seq = .run (d.instr n) 0)
    (hj : j ≤ n + 1) : Host.Core.run Sys2Proof.core j s = .next (d.trace n s j) := by
  rcases Nat.le_or_eq_of_le_succ hj with hj | rfl
  · have hrun := (h.mono hj).run_bytes hs ((Nat.zero_add j).le.trans hj)
    rw [Nat.zero_add] at hrun
    rwa [trace_of_le hj]
  · rw [h.run_command hs, trace_end]

/-- Byte step `j` permutes when it leaves the last byte of the window. -/
theorem DataCmd.Fed.permutes_byte {d : DataCmd} {n j : Nat} {s : State} (h : d.Fed n s) (hj : j < n) :
    Claims.permutes (effectOf (d.instr n) j (d.trace n s j)) =
      decide ((s.ctx.pos.toNat + j) % s.ctx.rate + 1 = s.ctx.rate) := by
  obtain ⟨r, rfl⟩ := Nat.exists_eq_add_of_lt hj
  have hfed := (DataCmd.Fed.iterate (m := j) (n := r + 1) h).withSeq (.run (d.instr (j + r + 1)) j)
  have hrate : (d.byteStep^[j] s).ctx.rate = s.ctx.rate := rate_congr (iterate_keeps d j s).2.cap
  have hpos := (iterate_pos (d := d) h.window j).2
  rw [trace_of_le hj.le, effectOf, if_pos (by rwa [byteSteps_instr]), byteEffect_instr hfed.window (hfed.not_starved _),
    permutes_advance]
  simp [DataCmd.served, hpos, hrate]

/-- The finish step of a data command does not permute. -/
theorem permutes_finish (d : DataCmd) (n : Nat) (s : State) : Claims.permutes (effectOf (d.instr n) n s) = false := by
  rw [effectOf, if_neg (by simp), finishEffect_instr]
  rfl

theorem DataCmd.Fed.count_permutations {d : DataCmd} {n : Nat} {s : State} (h : d.Fed n s) :
    ((List.range (n + 1)).filter fun j => Claims.permutes (effectOf (d.instr n) j (d.trace n s j))).length =
      (s.ctx.pos.toNat + n) / s.ctx.rate := by
  have hbytes : ∀ j ∈ List.range n, Claims.permutes (effectOf (d.instr n) j (d.trace n s j)) =
      decide ((s.ctx.pos.toNat + j) % s.ctx.rate + 1 = s.ctx.rate) :=
    fun j hj => h.permutes_byte (List.mem_range.mp hj)
  rw [List.range_succ, List.filter_append, List.length_append, List.filter_congr hbytes,
    count_window_ends h.window.2]
  simp [permutes_finish]

/-- Settles O52: the cursor goes once round the window for each permutation, in the contexts and along the run. -/
theorem cursorAndPermutationCount : Obligations.CursorAndPermutationCount := by
  refine ⟨fun c bs hw => ⟨absorbAll_pos hw bs, squeezeAll_pos hw _, ?count⟩,
    fun s i n hi ha hp hw hs hin hout => ?run⟩
  case count =>
    have hpos : ∀ j ∈ List.range bs.length, decide ((c.absorbAll (bs.take j)).pos.toNat + 1 = c.rate) =
        decide ((c.pos.toNat + j) % c.rate + 1 = c.rate) := fun j hj => by
      rw [absorbAll_pos hw, List.length_take_of_le (List.mem_range.mp hj).le]
    rw [List.filter_congr hpos, count_window_ends hw.2]
  case run =>
    obtain ⟨d, rfl, hfed⟩ : ∃ d : DataCmd, i = d.instr n ∧ d.Fed n s := by
      rcases hi with rfl | rfl | rfl | rfl | rfl
      · exact ⟨.absorb, rfl, ha, hp, hw, fun _ => hin.resolve_left nofun, nofun⟩
      · exact ⟨.squeeze, rfl, ha, hp, hw, nofun, fun _ => hout.resolve_left nofun⟩
      · exact ⟨.squeezeXor, rfl, ha, hp, hw, fun _ => hin.resolve_left nofun, fun _ => hout.resolve_left nofun⟩
      · exact ⟨.encrypt, rfl, ha, hp, hw, fun _ => hin.resolve_left nofun, fun _ => hout.resolve_left nofun⟩
      · exact ⟨.decrypt, rfl, ha, hp, hw, fun _ => hin.resolve_left nofun, fun _ => hout.resolve_left nofun⟩
    refine ⟨d.trace n s, fun j hj => hfed.run_trace hs hj, fun j hj => ?_, ?_, ?_, hfed.count_permutations⟩
    · rw [trace_of_le hj]
      rfl
    · rw [trace_end]
      rfl
    · rw [trace_end]
      exact (iterate_pos hw n).2

end Sys2Proof.Machine
end

section
/-! PROOFS. Chunk independence (41_absorb_squeeze.md R104, R105): data commands queued one after another come to the byte
steps of one command of the whole, and O53 and O54. -/

namespace Sys2Proof.Machine

/-! ### Queued commands -/

/-- `s` with another `CMDQ`. -/
def State.withCmdq (s : State) (ws : List Word) : State := { s with cmdq := ws }

/-- Byte steps neither read nor write `CMDQ`. -/
theorem iterate_withCmdq (d : DataCmd) (n : Nat) (s : State) (ws : List Word) :
    d.byteStep^[n] (s.withCmdq ws) = (d.byteStep^[n] s).withCmdq ws :=
  (Function.Semiconj.iterate_right (f := (State.withCmdq · ws)) (fun _ => rfl) n s).symm

theorem withSeq_self {s : State} {q : Seq} (h : s.seq = q) : s.withSeq q = s := by
  rw [← h]
  rfl

/-- The words that queue a data command for each of the counts. -/
def DataCmd.words (d : DataCmd) (ns : List Nat) : List Word := ns.map fun n => encode (d.instr n)

/-- A core that can issue and is fed `n` byte steps of the command, which passes its check whatever its length. -/
structure DataCmd.Issuable (d : DataCmd) (n : Nat) (s : State) : Prop where
  fed : d.Fed n s
  idle : s.seq = .idle
  noError : s.err = false
  passes : ∀ len, check s.strict s.ctx (d.instr len) = .none

theorem DataCmd.Fed.issuable {d : DataCmd} {n : Nat} {s : State} (h : d.Fed n s) (hidle : s.seq = .idle)
    (herr : s.err = false) (hc : s.ctx.cfg = true) (hp : ¬(s.strict = true ∧ s.ctx.phase = d.badPhase)) :
    d.Issuable n s :=
  ⟨h, hidle, herr, check_instr_passes hc hp⟩

/-- After the bytes of one command the core can take the next. -/
theorem DataCmd.Issuable.iterate {d : DataCmd} {m n : Nat} {s : State} (h : d.Issuable (m + n) s) :
    d.Issuable n (d.byteStep^[m] s) := by
  obtain ⟨hcontrol, hmode⟩ := iterate_keeps d m s
  refine ⟨h.fed.iterate, hcontrol.seq.trans h.idle, hcontrol.err.trans h.noError, fun len => ?_⟩
  rw [check_instr, hcontrol.strict, hmode.cfg, hmode.phase, ← check_instr]
  exact h.passes len

theorem wellFormed_instr {n : Nat} (hn : n ≤ 16777215) (d : DataCmd) : WellFormed (d.instr n) := by
  cases d <;> exact decide_eq_true hn

/-- The issue step of a data command at the head of the queue. -/
theorem DataCmd.Issuable.step_issue {d : DataCmd} {m n : Nat} {s : State} (h : d.Issuable m s) (hn : n ≤ 16777215)
    (ws : List Word) :
    step (s.withCmdq (encode (d.instr n) :: ws)) = .next ((s.withCmdq ws).withSeq (.run (d.instr n) 0)) := by
  obtain ⟨ht, hr⟩ := h.fed.alone
  have hd : decode (encode (d.instr n)) = .ok (d.instr n) := decodeOfEncode _ (wellFormed_instr hn d)
  have hpass : checkWord s.strict s.ctx (encode (d.instr n)) = .none := (checkWord_ok hd ..).trans (h.passes n)
  have hturns : (s.withCmdq (encode (d.instr n) :: ws)).turns = [] := ht
  rw [step_of_noTurns hturns]
  exact coreTurn_passed (s := s.withCmdq _) hr h.idle h.noError rfl hd hpass

/-- One queued command: its issue step, its byte steps and its finish step. -/
theorem DataCmd.Issuable.run_queued {d : DataCmd} {n : Nat} {s : State} (h : d.Issuable n s) (hn : n ≤ 16777215)
    (ws : List Word) :
    Host.Core.run Sys2Proof.core (n + 2) (s.withCmdq (encode (d.instr n) :: ws)) =
      .next ((d.byteStep^[n] s).withCmdq ws) := by
  have hfed : d.Fed n ((s.withCmdq ws).withSeq (.run (d.instr n) 0)) :=
    ⟨h.fed.alone, h.fed.internal, h.fed.window, h.fed.input, h.fed.room⟩
  have hseq : (d.byteStep^[n] s).seq = .idle := (iterate_keeps d n s).1.seq.trans h.idle
  rw [run_succ (h.step_issue hn ws), hfed.run_command rfl, iterate_withSeq, iterate_withCmdq]
  exact congrArg (fun t : State => Host.Outcome.next (t.withCmdq ws)) (withSeq_self hseq)

/-- Any number of queued commands come to as many byte steps as they have bytes in all. -/
theorem DataCmd.Issuable.run_words {d : DataCmd} {ns : List Nat} {s : State} (h : d.Issuable ns.sum s)
    (hn : ns.sum ≤ 16777215) :
    Host.Core.run Sys2Proof.core (ns.sum + 2 * ns.length) (s.withCmdq (d.words ns)) =
      .next ((d.byteStep^[ns.sum] s).withCmdq []) := by
  induction ns generalizing s with
  | nil => rfl
  | cons n ns ih =>
    rw [List.sum_cons] at h hn
    have hfirst := DataCmd.Issuable.run_queued ⟨h.fed.mono (Nat.le_add_right ..), h.idle, h.noError, h.passes⟩
      (by omega) (d.words ns)
    have hcount : (n :: ns).sum + 2 * (n :: ns).length = (n + 2) + (ns.sum + 2 * ns.length) := by
      simp only [List.sum_cons, List.length_cons]
      omega
    rw [hcount, DataCmd.words, List.map_cons]
    refine (run_add hfirst _).trans ((ih h.iterate (by omega)).trans ?_)
    rw [List.sum_cons, Nat.add_comm n, Function.iterate_add_apply]

/-- One command of the whole and the commands of its parts end in the same state. -/
theorem DataCmd.Issuable.chunks {d : DataCmd} {ns : List Nat} {s : State} (h : d.Issuable ns.sum s)
    (hn : ns.sum ≤ 16777215) :
    ∃ t, Host.Core.run Sys2Proof.core (ns.sum + 2) (s.withCmdq [encode (d.instr ns.sum)]) = .next t ∧
      Host.Core.run Sys2Proof.core (ns.sum + 2 * ns.length) (s.withCmdq (d.words ns)) = .next t :=
  ⟨_, h.run_queued hn [], h.run_words hn⟩

/-- The same of a byte string and its parts. -/
theorem DataCmd.Issuable.byte_chunks {d : DataCmd} {parts : List (List Byte)} {s : State}
    (h : d.Issuable parts.flatten.length s) (hn : parts.flatten.length ≤ 16777215) :
    ∃ t, Host.Core.run Sys2Proof.core (parts.flatten.length + 2)
        (s.withCmdq [encode (d.instr parts.flatten.length)]) = .next t ∧
      Host.Core.run Sys2Proof.core (parts.flatten.length + 2 * parts.length)
        (s.withCmdq (parts.map fun p => encode (d.instr p.length))) = .next t := by
  rw [List.length_flatten] at h hn ⊢
  have hchunks := h.chunks hn
  rwa [List.length_map, DataCmd.words, List.map_map] at hchunks

/-! ### O53 and O54 -/

/-- Settles O53: the parts of a byte string queued as ABSORBs. -/
theorem absorbIsChunkIndependent : Obligations.AbsorbIsChunkIndependent := by
  intro s parts rest hr hc hw hp _ hd hn
  obtain ⟨halone, hidle, herr, hint⟩ := hr
  have hfed : DataCmd.absorb.Fed parts.flatten.length s := ⟨halone, hint, hw, fun _ => by simp [hd], nofun⟩
  exact (hfed.issuable hidle herr hc hp).byte_chunks hn

/-- Settles O54: counts of SQUEEZE, and the parts of a byte string queued as any command that takes and pushes. -/
theorem squeezeIsChunkIndependent : Obligations.SqueezeIsChunkIndependent := by
  refine ⟨fun s ns hr hc hw hp _ hroom hn => ?_, fun c s parts rest hi hr hc hw hp _ hd hroom hn => ?_⟩
  · obtain ⟨halone, hidle, herr, hint⟩ := hr
    have hfed : DataCmd.squeeze.Fed ns.sum s := ⟨halone, hint, hw, nofun, fun _ => hroom⟩
    exact (hfed.issuable hidle herr hc hp).chunks hn
  · obtain ⟨halone, hidle, herr, hint⟩ := hr
    have fed : ∀ d : DataCmd, d.Fed parts.flatten.length s :=
      fun d => ⟨halone, hint, hw, fun _ => by simp [hd], fun _ => hroom⟩
    rcases hi with rfl | rfl | rfl
    · exact ((fed .squeezeXor).issuable hidle herr hc hp).byte_chunks hn
    · exact ((fed .encrypt).issuable hidle herr hc hp).byte_chunks hn
    · exact ((fed .decrypt).issuable hidle herr hc hp).byte_chunks hn

end Sys2Proof.Machine
end


section
/-! PROOFS. ENCRYPT and DECRYPT (42_duplex.md R107 to R111): each byte step leaves the ciphertext byte in the state, so
that ENCRYPT leaves the context of ABSORB and DECRYPT undoes it: O16, O17, O56 and O57. -/

namespace Sys2Proof.Machine

/-! ### One byte -/

/-- A mask XORed onto a byte and again onto the mask itself leaves the byte. -/
theorem mask_xor_masked (m b : Byte) : m ^^^ (b ^^^ m) = b := by
  rw [BitVec.xor_comm b m, ← BitVec.xor_assoc, BitVec.xor_self, BitVec.zero_xor]

/-- DECRYPT stores the ciphertext byte it was given (42_duplex.md R109). -/
theorem stored_decrypt (e : Byte) (c : Context) : DataCmd.decrypt.stored e c = c.withCurrent e := by
  rw [DataCmd.stored, mask_xor_masked]

/-- ENCRYPT stores what ABSORB does (R108). -/
theorem stored_encrypt (p : Byte) (c : Context) : DataCmd.encrypt.stored p c = DataCmd.absorb.stored p c := by
  rw [DataCmd.stored, DataCmd.stored, BitVec.xor_comm]

/-! ### O16 and O17 -/

/-- With a byte in `DIN` and a slot in `DOUT` no command is starved (40_sequencer.md R95). -/
theorem not_starved_of_byte_of_room {i : Instr} {s : State} {b : Byte} {rest : List Byte} (hd : s.din = b :: rest)
    (hr : s.dout.length < s.params.doutDepth) : ¬Starved i s := by
  simp [Starved, hd, hr]

/-- Settles O16: the clauses of a data command, for ENCRYPT. -/
theorem encryptLeavesTheCiphertextInTheState : Obligations.EncryptLeavesTheCiphertextInTheState := by
  refine ⟨encoding_of_row (rowOf_mem (.encrypt 0)), fun len s _ => ⟨DataCmd.encrypt.exec_nocfg len,
    DataCmd.encrypt.exec_badPhase len, DataCmd.encrypt.exec_start len,
    fun k hs hk hd => exec_starved hs hk (hd.imp (⟨rfl, ·⟩) (⟨rfl, ·⟩)), ?byte,
    DataCmd.exec_finish_instr (d := .encrypt)⟩⟩
  case byte =>
    intro k p rest hs hk hd hr hw ha
    refine (DataCmd.exec_byte (d := .encrypt) hs hk (not_starved_of_byte_of_room hd hr) hw ha).trans ?_
    rw [byteStep_cons rfl hd]
    rfl

/-- Settles O17: the clauses of a data command, for DECRYPT, whose write-back is the ciphertext byte. -/
theorem decryptLeavesTheCiphertextInTheState : Obligations.DecryptLeavesTheCiphertextInTheState := by
  refine ⟨encoding_of_row (rowOf_mem (.decrypt 0)), fun len s _ => ⟨DataCmd.decrypt.exec_nocfg len,
    DataCmd.decrypt.exec_badPhase len, DataCmd.decrypt.exec_start len,
    fun k hs hk hd => exec_starved hs hk (hd.imp (⟨rfl, ·⟩) (⟨rfl, ·⟩)), ?byte,
    DataCmd.exec_finish_instr (d := .decrypt)⟩⟩
  case byte =>
    intro k e rest hs hk hd hr hw ha
    refine (DataCmd.exec_byte (d := .decrypt) hs hk (not_starved_of_byte_of_room hd hr) hw ha).trans ?_
    rw [byteStep_cons rfl hd, stored_decrypt]
    rfl

/-! ### Whole commands that take and push a byte in each step -/

/-- `f` gives the output of the command for a byte string and the context it leaves, byte step by byte step. -/
structure DataCmd.Computes (d : DataCmd) (f : List Byte → Context → List Byte × Context) : Prop where
  takes : takesDin (d.instr 0) = true
  nil : ∀ c, f [] c = ([], c)
  cons : ∀ b bs c, f (b :: bs) c =
    (d.output b c ++ (f bs (d.stored b c).advanced).1, (f bs (d.stored b c).advanced).2)

theorem encrypt_computes : DataCmd.encrypt.Computes Context.encryptAll :=
  ⟨rfl, fun _ => rfl, fun _ _ _ => rfl⟩

theorem decrypt_computes : DataCmd.decrypt.Computes Context.decryptAll :=
  ⟨rfl, fun _ => rfl, fun _ _ _ => rfl⟩

section
variable {d : DataCmd} {f : List Byte → Context → List Byte × Context} (hf : d.Computes f)
include hf

/-- What the byte steps of the command come to. -/
theorem DataCmd.Computes.iterate {s : State} {bs rest : List Byte} (h : s.din = bs ++ rest) :
    d.byteStep^[bs.length] s = { s with din := rest, dout := s.dout ++ (f bs s.ctx).1, ctx := (f bs s.ctx).2 } := by
  induction bs generalizing s with
  | nil =>
    rw [List.nil_append] at h
    simp [hf.nil, ← h]
  | cons b bs ih =>
    rw [List.length_cons, Function.iterate_succ_apply, byteStep_cons hf.takes h, ih rfl]
    simp [hf.cons]

/-- The whole command once issued, with its bytes in `DIN` and room for as many in `DOUT`. -/
theorem DataCmd.Computes.run_command {s : State} {bs rest : List Byte} (ha : Claims.CoreAlone s)
    (hp : s.params.permExternal = false) (hw : s.ctx.inWindow) (hs : s.seq = .run (d.instr bs.length) 0)
    (hd : s.din = bs ++ rest) (hr : s.dout.length + bs.length ≤ s.params.doutDepth) :
    Host.Core.run Sys2Proof.core (bs.length + 1) s =
      .next { s with din := rest, dout := s.dout ++ (f bs s.ctx).1, ctx := (f bs s.ctx).2, seq := .idle } := by
  have hfed : d.Fed bs.length s := ⟨ha, hp, hw, fun _ => by simp [hd], fun _ => hr⟩
  rw [hfed.run_command hs, hf.iterate hd]
  rfl

end

/-! ### What ENCRYPT and DECRYPT compute -/

theorem length_encryptAll (bs : List Byte) (c : Context) : (c.encryptAll bs).1.length = bs.length := by
  induction bs generalizing c with
  | nil => rfl
  | cons p bs ih => simp [Context.encryptAll, ih]

/-- The context ENCRYPT leaves is that of ABSORB (42_duplex.md R108). -/
theorem encryptAll_context (bs : List Byte) (c : Context) : (c.encryptAll bs).2 = c.absorbAll bs := by
  induction bs generalizing c with
  | nil => rfl
  | cons p bs ih =>
    rw [encrypt_computes.cons, stored_encrypt, ih]
    rfl

/-- DECRYPT of ENCRYPT's output from the same context gives the plaintext and the same context (R110). -/
theorem decryptAll_encryptAll (bs : List Byte) (c : Context) :
    c.decryptAll (c.encryptAll bs).1 = (bs, (c.encryptAll bs).2) := by
  induction bs generalizing c with
  | nil => rfl
  | cons p bs ih =>
    simp only [Context.encryptAll, Context.decryptAll]
    rw [mask_xor_masked, ih, BitVec.xor_assoc, BitVec.xor_self, BitVec.xor_zero]

/-! ### O56 and O57 -/

/-- Settles O56: both commands end as their byte steps do, and those store the same bytes. -/
theorem encryptLeavesTheContextOfAbsorb : Obligations.EncryptLeavesTheContextOfAbsorb := by
  intro s bs rest ha hp hw hd hr
  refine ⟨{ s with din := rest, ctx := s.ctx.absorbAll bs, seq := .idle }, (s.ctx.encryptAll bs).1,
    absorbCommandCompletes { s with seq := .run (.absorb bs.length) 0 } bs rest ha hp hw rfl hd,
    length_encryptAll .., ?_⟩
  rw [← encryptAll_context]
  exact encrypt_computes.run_command (s := { s with seq := .run (.encrypt bs.length) 0 }) ha hp hw rfl hd hr

/-- Settles O57: both commands end as their byte steps do, and DECRYPT's undo ENCRYPT's. -/
theorem decryptUndoesEncrypt : Obligations.DecryptUndoesEncrypt := by
  intro s bs rest ha hp hw hs hd hr
  have hlen := length_encryptAll bs s.ctx
  refine ⟨_, (s.ctx.encryptAll bs).1, encrypt_computes.run_command ha hp hw hs hd hr, rfl, hlen, rfl, rfl, ?_⟩
  intro s' rest' ha' hp' hctx hs' hd' hr'
  rw [← hctx] at hw hlen hd' ⊢
  rw [← hlen] at hs' hr' ⊢
  have hrun := decrypt_computes.run_command ha' hp' hw hs' hd' hr'
  rw [decryptAll_encryptAll] at hrun
  exact ⟨_, hrun, rfl, rfl, rfl, rfl⟩

end Sys2Proof.Machine
end

section
/-! PROOFS. PAD (43_pad.md R114 to R117): its check, its byte step and its finish step, and O18. -/

namespace Sys2Proof.Machine

/-- PAD is checked for `CFG` and for room in the rate window; in neither phase is it out of order (40_sequencer.md R84,
R86). -/
theorem check_pad (strict : Bool) (c : Context) (slen : Nat) :
    check strict c (.pad slen) =
      if c.cfg = false then .nocfg else if slen ≤ c.rate - c.pos.toNat then .none else .param := by
  simp [check, needsCfg, phaseBad, paramsOk]

/-- With room for its suffix in the rate window and a byte in `DIN`, a byte step of PAD takes that byte (43_pad.md R114). -/
theorem byteEffect_pad {slen k : Nat} {s : State} {b : Byte} {rest : List Byte} (hk : k < slen)
    (hroom : slen ≤ s.ctx.rate - s.ctx.pos.toNat) (hd : s.din = b :: rest) :
    byteEffect (.pad slen) k s = .done { s with din := rest, ctx := byteContext (.pad slen) k b s.ctx } := by
  have hrate : s.ctx.rate ≤ 200 := rate_le s.ctx
  have haddr : s.ctx.pos.toNat + k < 200 := by omega
  show padByte k s = _
  rw [padByte, popDin_cons hd]
  exact withStateByte_of_lt haddr _

/-- A byte step that is taken whole moves `SEQ` to the next one. -/
theorem exec_byte_done {i : Instr} {k : Nat} {s t : State} (hs : s.seq = .run i k) (hk : k < byteSteps i)
    (h : byteEffect i k s = .done t) : exec i s = .next { t with seq := .run i (k + 1) } := by
  rw [exec_run hs, effectOf, if_pos hk, h, nextSeq, if_pos hk]
  rfl

/-- With the permutation internal PAD's finish step permutes in the same step (45_permutation.md R142). -/
theorem exec_pad_finish {slen : Nat} {s : State} (hs : s.seq = .run (.pad slen) slen)
    (hp : s.params.permExternal = false) :
    exec (.pad slen) s = .next { s with
      seq := .idle,
      ctx := { finishContext (.pad slen) s.ctx with S := keccakF (finishContext (.pad slen) s.ctx).S } } := by
  have hk : ¬slen < byteSteps (.pad slen) := Nat.lt_irrefl slen
  rw [exec_run hs, effectOf, if_neg hk, finishEffect_eq, nextSeq, if_neg hk, commit, permuteStep_internal hp]
  rfl

/-- Settles O18: its row of the opcode map, the check of the suffix length, and the two kinds of step, the finish step with
and without the flip. -/
theorem padAppendsTheSuffixAndPermutes : Obligations.PadAppendsTheSuffixAndPermutes := by
  refine ⟨encoding_of_row (rowOf_mem (.pad 0)), fun slen s _ => ⟨fun hi hc => ?nocfg, fun hi hc hlong => ?param,
    fun hi hc hroom => ?start, fun k hs hk hd => exec_starved hs hk (.inl ⟨rfl, hd⟩),
    fun k b rest hs hk hd hroom => exec_byte_done hs hk (byteEffect_pad hk hroom hd),
    fun hsuffix hs hp => ?flip, fun hzero hs hp => ?naked⟩⟩
  case nocfg =>
    rw [exec_idle hi, issue_of_fail ((check_pad ..).trans (if_pos hc)) (by decide), encode_opcode]
    rfl
  case param =>
    have hcheck : check s.strict s.ctx (.pad slen) = .param := by simp [check_pad, hc, hlong]
    rw [exec_idle hi, issue_of_fail hcheck (by decide), encode_opcode]
    rfl
  case start =>
    have hcheck : check s.strict s.ctx (.pad slen) = .none := by simp [check_pad, hc, hroom]
    rw [exec_idle hi, issue_of_pass hcheck]
  case flip =>
    rw [exec_pad_finish hs hp, finishContext, if_neg hsuffix.ne']
  case naked =>
    subst hzero
    rw [exec_pad_finish hs hp, finishContext, if_pos rfl]

end Sys2Proof.Machine
end

section
/-! PROOFS. REWIND, FORGET, CTX_SAVE and CTX_LOAD (44_context.md R122 to R129): their checks, their byte steps and their
finish steps, and O19 to O22. -/

namespace Sys2Proof.Machine

/-! ### The issue step of a command by its check -/

theorem exec_of_fail {i : Instr} {s : State} {e : ErrCode} (hi : s.seq = .idle) (h : check s.strict s.ctx i = e)
    (he : e ≠ .none) : exec i s = .next (Claims.failed s e (Laws.opcodeNibble i) (encode i)) := by
  rw [exec_idle hi, issue_of_fail h he, encode_opcode]

theorem exec_of_pass {i : Instr} {s : State} (hi : s.seq = .idle) (h : check s.strict s.ctx i = .none) :
    exec i s = .next { s with seq := .run i 0 } := by
  rw [exec_idle hi, issue_of_pass h]

/-! ### The commands checked for `CFG` alone -/

/-- The commands whose only test is NOCFG (40_sequencer.md R84, 44_context.md R122, R124, R126). -/
inductive ChecksCfgOnly : Instr → Prop where
  | rewind : ChecksCfgOnly .rewind
  | forget : ChecksCfgOnly .forget
  | ctxSave : ChecksCfgOnly .ctxSave

theorem ChecksCfgOnly.check_eq {i : Instr} (h : ChecksCfgOnly i) (strict : Bool) (c : Context) :
    check strict c i = if c.cfg = false then .nocfg else .none := by
  cases h <;> simp [check, needsCfg, phaseBad, paramsOk]

theorem ChecksCfgOnly.exec_nocfg {i : Instr} (h : ChecksCfgOnly i) {s : State} (hi : s.seq = .idle)
    (hc : s.ctx.cfg = false) : exec i s = .next (Claims.failed s .nocfg (Laws.opcodeNibble i) (encode i)) :=
  exec_of_fail hi ((h.check_eq ..).trans (if_pos hc)) (by decide)

theorem ChecksCfgOnly.exec_start {i : Instr} (h : ChecksCfgOnly i) {s : State} (hi : s.seq = .idle)
    (hc : s.ctx.cfg = true) : exec i s = .next { s with seq := .run i 0 } :=
  exec_of_pass hi ((h.check_eq ..).trans (if_neg (by simp [hc])))

/-! ### REWIND and FORGET: O19 and O20 -/

/-- Settles O19: its row of the opcode map, the check for `CFG`, and the finish step. -/
theorem rewindMovesOnlyTheCursorAndPhase : Obligations.RewindMovesOnlyTheCursorAndPhase :=
  ⟨encoding_of_row (rowOf_mem .rewind), fun _ => ⟨ChecksCfgOnly.rewind.exec_nocfg, ChecksCfgOnly.rewind.exec_start,
    fun hs => exec_finish hs (Nat.le_refl 0) nofun⟩⟩

/-- FORGET leaves a configured context as INIT of its capacity would (44_context.md R124). -/
theorem finishContext_forget {c : Context} (h : c.cfg = true) :
    finishContext .forget c = finishContext (.init c.cap.toNat) c := by
  simp [finishContext, h]

/-- Settles O20: its row of the opcode map, the check for `CFG`, and the finish step beside that of INIT. -/
theorem forgetEqualsAFreshSponge : Obligations.ForgetEqualsAFreshSponge := by
  refine ⟨encoding_of_row (rowOf_mem .forget), fun s => ⟨ChecksCfgOnly.forget.exec_nocfg,
    ChecksCfgOnly.forget.exec_start, fun hs => ?_⟩⟩
  refine ⟨finishContext .forget s.ctx, exec_finish hs (Nat.le_refl 0) nofun, byteAt_nil, rfl, rfl, rfl, rfl,
    fun hc => ?_⟩
  rw [finishContext_forget hc]
  exact exec_finish rfl (Nat.le_refl 0) nofun

/-! ### CTX_SAVE: O21 -/

/-- With a slot in `DOUT` a byte step of CTX_SAVE pushes its byte (44_context.md R126). -/
theorem exec_ctxSave_byte {k : Nat} {s : State} (hs : s.seq = .run .ctxSave k) (hk : k < 204)
    (hr : s.dout.length < s.params.doutDepth) :
    exec .ctxSave s = .next { s with dout := s.dout ++ [savedByte s.ctx k], seq := .run .ctxSave (k + 1) } :=
  exec_byte_done hs hk (whenDoutReady_of_room hr _)

theorem exec_ctxSave_finish {s : State} (hs : s.seq = .run .ctxSave 204) :
    exec .ctxSave s = .next { s with seq := .idle } :=
  exec_finish hs (Nat.le_refl 204) nofun

/-- The first 200 bytes saved are those of `S`. -/
theorem savedByte_of_lt (c : Context) {k : Nat} (hk : k < 200) : savedByte c k = Memory.byteAt c.S k := if_pos hk

/-- The bytes after them are those of the metadata word, least significant first. -/
theorem savedByte_metadata (c : Context) (k : Nat) :
    savedByte c (200 + k) = (metadataWord c).extractLsb' (8 * k) 8 := by
  rw [savedByte, if_neg (Nat.not_lt.mpr (Nat.le_add_right 200 k)), Nat.add_sub_cancel_left]

/-- Settles O21: its row of the opcode map, the check for `CFG`, the wait for a slot, and the byte pushed by each step. -/
theorem ctxSavePushesTheContext : Obligations.CtxSavePushesTheContext := by
  refine ⟨encoding_of_row (rowOf_mem .ctxSave), fun s => ⟨ChecksCfgOnly.ctxSave.exec_nocfg,
    ChecksCfgOnly.ctxSave.exec_start, fun k hs hk hd => exec_starved hs hk (.inr ⟨rfl, hd⟩),
    fun k hs hk hr => ?state, fun k hs hk hr => ?metadata, exec_ctxSave_finish⟩⟩
  case state =>
    rw [exec_ctxSave_byte hs (by omega) hr, savedByte_of_lt _ hk]
  case metadata =>
    rw [exec_ctxSave_byte hs (by omega) hr, savedByte_metadata]
    rfl

/-! ### CTX_LOAD: O22 -/

/-- CTX_LOAD is checked for its capacity and for a position inside that capacity's rate alone (44_context.md R128). -/
theorem check_ctxLoad (strict : Bool) (c : Context) (pos cap : Nat) (ph : Phase) :
    check strict c (.ctxLoad pos cap ph) =
      if (cap % 64 = 0 ∧ cap ≤ 1536) ∧ pos < rateOf cap then .none else .param := by
  simp [check, needsCfg, phaseBad, paramsOk, legalCap_iff]

/-- With a byte in `DIN` a byte step of CTX_LOAD stores it in `S[k]` (R128). -/
theorem byteEffect_ctxLoad {pos cap : Nat} {ph : Phase} {k : Nat} {s : State} {b : Byte} {rest : List Byte}
    (hk : k < 200) (hd : s.din = b :: rest) :
    byteEffect (.ctxLoad pos cap ph) k s =
      .done { s with din := rest, ctx := { s.ctx with S := Memory.setByte s.ctx.S k b } } := by
  show ctxLoadByte k s = _
  rw [ctxLoadByte, popDin_cons hd]
  exact withStateByte_of_lt hk _

theorem exec_ctxLoad_byte {pos cap : Nat} {ph : Phase} {k : Nat} {s : State} {b : Byte} {rest : List Byte}
    (hs : s.seq = .run (.ctxLoad pos cap ph) k) (hk : k < 200) (hd : s.din = b :: rest) :
    exec (.ctxLoad pos cap ph) s = .next { s with
      din := rest, seq := .run (.ctxLoad pos cap ph) (k + 1),
      ctx := { s.ctx with S := Memory.setByte s.ctx.S k b } } :=
  exec_byte_done hs hk (byteEffect_ctxLoad hk hd)

/-- Settles O22: its row of the opcode map, the check of its two operands, the wait for a byte, the byte stored by each
step, and the finish step. -/
theorem ctxLoadReplacesTheContext : Obligations.CtxLoadReplacesTheContext := by
  refine ⟨encoding_of_row (rowOf_mem (.ctxLoad 0 0 .absorbing)), fun pos cap ph s hpos hcap => ⟨fun hi hbad => ?param,
    fun hi hl hp => exec_of_pass hi ((check_ctxLoad ..).trans (if_pos ⟨hl, hp⟩)),
    fun k hs hk hd => exec_starved hs hk (.inl ⟨rfl, hd⟩), fun k b rest => exec_ctxLoad_byte,
    fun hs => ⟨finishContext (.ctxLoad pos cap ph) s.ctx, exec_finish hs (Nat.le_refl 200) nofun, rfl, ?cap, ?pos, rfl,
      rfl⟩⟩⟩
  case param =>
    have hfail : ¬((cap % 64 = 0 ∧ cap ≤ 1536) ∧ pos < rateOf cap) := fun ⟨hl, hp⟩ =>
      hbad.elim (fun hl' => hl' hl) (Nat.not_le.mpr hp)
    exact exec_of_fail hi ((check_ctxLoad ..).trans (if_neg hfail)) (by decide)
  case cap => exact (BitVec.toNat_ofNat ..).trans (Nat.mod_eq_of_lt (by omega))
  case pos => exact (BitVec.toNat_ofNat ..).trans (Nat.mod_eq_of_lt (by omega))

end Sys2Proof.Machine
end

section
/-! PROOFS. `copy()` (44_context.md R130): what the byte steps of CTX_SAVE push and those of CTX_LOAD store, the metadata
word as the command that loads the context, and O58. -/

namespace Sys2Proof.Machine

/-! ### Whole commands -/

/-- A run that comes to the end of a command's byte steps, continued by the finish step (40_sequencer.md R83). -/
theorem run_then_finish {i : Instr} {n k : Nat} {s t : State} (h : Host.Core.run Sys2Proof.core n s = .next t)
    (ha : Claims.CoreAlone t) (ht : t.seq = .run i k) (hk : byteSteps i ≤ k) (hi : ∀ m, i ≠ .pad m) :
    Host.Core.run Sys2Proof.core (n + 1) s = .next { t with ctx := finishContext i t.ctx, seq := .idle } :=
  (run_add h 1).trans (run_succ ((step_of_running ha ht).trans (exec_finish ht hk hi)) 0)

/-! ### What CTX_SAVE pushes -/

/-- The 204 bytes of a saved context (44_context.md R126). -/
def Context.saved (c : Context) : List Byte := (List.range 204).map (savedByte c)

theorem length_saved (c : Context) : c.saved.length = 204 := by simp [Context.saved]

theorem getD_saved (c : Context) {k : Nat} (hk : k < 204) : c.saved.getD k 0 = savedByte c k := by
  simp [Context.saved, hk]

/-- The first 200 of them are those of `S`. -/
theorem take_saved (c : Context) : c.saved.take 200 = Memory.toBytes c.S := by
  rw [Context.saved, ← List.map_take, List.take_range]
  exact List.map_congr_left fun k hk => savedByte_of_lt c (List.mem_range.mp hk)

/-- `n` byte steps of CTX_SAVE in a row, from the `k`-th on. -/
theorem run_ctxSave_bytes {n k : Nat} {s : State} (h : Claims.CoreAlone s) (hs : s.seq = .run .ctxSave k)
    (hk : k + n ≤ 204) (hr : s.dout.length + n ≤ s.params.doutDepth) :
    Host.Core.run Sys2Proof.core n s = .next { s with
      dout := s.dout ++ (List.range' k n).map (savedByte s.ctx), seq := .run .ctxSave (k + n) } := by
  induction n generalizing s k with
  | zero => simp [Host.Core.run, ← hs]
  | succ n ih =>
    have hstep := (step_of_running h hs).trans (exec_ctxSave_byte hs (by omega) (by omega))
    have hroom : (s.dout ++ [savedByte s.ctx k]).length + n ≤ s.params.doutDepth := by
      rw [List.length_append, List.length_singleton]
      omega
    have hrest := ih (s := { s with dout := s.dout ++ [savedByte s.ctx k], seq := .run .ctxSave (k + 1) }) h rfl
      (by omega) hroom
    refine (run_succ hstep n).trans (hrest.trans ?_)
    simp [List.range'_succ, Nat.add_assoc, Nat.add_comm 1 n]

/-- The whole command once issued (44_context.md R126). -/
theorem run_ctxSave {s : State} (h : Claims.CoreAlone s) (hs : s.seq = .run .ctxSave 0)
    (hr : s.dout.length + 204 ≤ s.params.doutDepth) :
    Host.Core.run Sys2Proof.core 205 s = .next { s with dout := s.dout ++ s.ctx.saved, seq := .idle } := by
  have hbytes := run_ctxSave_bytes h hs (Nat.le_refl 204) hr
  rw [← List.range_eq_range'] at hbytes
  exact run_then_finish hbytes h rfl (Nat.le_refl 204) nofun

/-! ### What CTX_LOAD stores -/

/-- The buffer with a byte string stored from address `k` on. -/
def Memory.storeFrom (m : Memory) (k : Nat) : List Byte → Memory
  | [] => m
  | b :: bs => Memory.storeFrom (Memory.setByte m k b) (k + 1) bs

theorem storeFrom_wf {m : Memory} (hm : Memory.wf m) {k : Nat} {bs : List Byte} (hk : k + bs.length ≤ 200) :
    Memory.wf (Memory.storeFrom m k bs) := by
  induction bs generalizing m k with
  | nil => exact hm
  | cons b bs ih =>
    rw [List.length_cons] at hk
    have haddr : k < 200 := by omega
    exact ih (setByte_wf hm haddr b) (by omega)

/-- A read after the store: the stored bytes at their addresses, every other byte as before. -/
theorem byteAt_storeFrom {m : Memory} (hm : Memory.wf m) {k : Nat} {bs : List Byte} (hk : k + bs.length ≤ 200)
    (a : Nat) :
    Memory.byteAt (Memory.storeFrom m k bs) a =
      if k ≤ a ∧ a < k + bs.length then bs.getD (a - k) 0 else Memory.byteAt m a := by
  induction bs generalizing m k with
  | nil =>
    rw [if_neg (by simp)]
    rfl
  | cons b bs ih =>
    rw [List.length_cons] at hk ⊢
    have haddr : k < 200 := by omega
    rw [Memory.storeFrom, ih (setByte_wf hm haddr b) (by omega), byteAt_setByte hm]
    rcases Nat.lt_trichotomy a k with hlt | rfl | hgt
    · rw [if_neg (by omega), if_neg (by omega), if_neg (by omega)]
    · simp
    · have hsub : a - k = a - (k + 1) + 1 := by omega
      rw [if_neg (c := a = k) (by omega), hsub, List.getD_cons_succ]
      exact if_congr (by omega) rfl rfl

/-- A canonical buffer lists nothing past `S`. -/
theorem byteAt_of_ge {m : Memory} (hm : Memory.wf m) {a : Nat} (ha : 200 ≤ a) : Memory.byteAt m a = 0 := by
  induction m with
  | nil => rfl
  | cons c m ih =>
    obtain ⟨⟨hc, -⟩, -, hm'⟩ := wf_cons.mp hm
    rw [show c = (c.1, c.2) from rfl, byteAt_cons, if_neg (Nat.lt_of_lt_of_le hc ha).ne']
    exact ih hm'

/-- All 200 bytes of a buffer stored over another give that buffer. -/
theorem storeFrom_toBytes {m m' : Memory} (hm : Memory.wf m) (hm' : Memory.wf m') :
    Memory.storeFrom m 0 (Memory.toBytes m') = m' := by
  have hlen : (Memory.toBytes m').length = 200 := length_toBytes m'
  refine eq_of_byteAt (storeFrom_wf hm (by omega)) hm' fun a => ?_
  rw [byteAt_storeFrom hm (by omega)]
  by_cases ha : a < 200
  · rw [if_pos (by omega), Nat.sub_zero, getD_toBytes m' ha]
  · rw [if_neg (by omega), byteAt_of_ge hm (by omega), byteAt_of_ge hm' (by omega)]

/-- Byte steps of CTX_LOAD in a row, from the `k`-th on. -/
theorem run_ctxLoad_bytes {pos cap : Nat} {ph : Phase} {bs rest : List Byte} {k : Nat} {s : State}
    (h : Claims.CoreAlone s) (hs : s.seq = .run (.ctxLoad pos cap ph) k) (hk : k + bs.length ≤ 200)
    (hd : s.din = bs ++ rest) :
    Host.Core.run Sys2Proof.core bs.length s = .next { s with
      din := rest, ctx := { s.ctx with S := Memory.storeFrom s.ctx.S k bs },
      seq := .run (.ctxLoad pos cap ph) (k + bs.length) } := by
  induction bs generalizing s k with
  | nil =>
    rw [List.nil_append] at hd
    simp [Host.Core.run, Memory.storeFrom, ← hs, ← hd]
  | cons b bs ih =>
    rw [List.length_cons] at hk ⊢
    have hstep := (step_of_running h hs).trans (exec_ctxLoad_byte hs (by omega) hd)
    have hcount : k + (bs.length + 1) = k + 1 + bs.length := by omega
    rw [hcount]
    exact (run_succ hstep bs.length).trans (ih h rfl (by omega) rfl)

/-- The whole command once issued: the 200 bytes and the fields of its word are the new context (44_context.md R128). -/
theorem run_ctxLoad {pos cap : Nat} {ph : Phase} {bs rest : List Byte} {s : State} (h : Claims.CoreAlone s)
    (hs : s.seq = .run (.ctxLoad pos cap ph) 0) (hlen : bs.length = 200) (hd : s.din = bs ++ rest) :
    Host.Core.run Sys2Proof.core 201 s = .next { s with
      din := rest, seq := .idle,
      ctx := finishContext (.ctxLoad pos cap ph) { s.ctx with S := Memory.storeFrom s.ctx.S 0 bs } } := by
  have hbytes := run_ctxLoad_bytes h hs (by omega) hd
  rw [hlen] at hbytes
  exact run_then_finish hbytes h rfl (Nat.le_refl 200) nofun

/-! ### The metadata word -/

/-- The CTX_LOAD with the capacity, the cursor and the phase of the context. -/
def Context.loadInstr (c : Context) : Instr := .ctxLoad c.pos.toNat c.cap.toNat c.phase

theorem or_reverse (a b c d : Word) : a ||| b ||| c ||| d = d ||| c ||| b ||| a := by ac_rfl

/-- The metadata word is that command's word (44_context.md R127). -/
theorem metadataWord_eq (c : Context) : metadataWord c = encode c.loadInstr := by
  rw [Context.loadInstr, encode, BitVec.ofNat_toNat, BitVec.ofNat_toNat, BitVec.setWidth_eq, BitVec.setWidth_eq]
  exact or_reverse ..

theorem loadInstr_wellFormed (c : Context) : WellFormed c.loadInstr := by
  have hpos : c.pos.toNat ≤ 255 := Nat.le_of_lt_succ c.pos.isLt
  have hcap : c.cap.toNat ≤ 2047 := Nat.le_of_lt_succ c.cap.isLt
  simp [WellFormed, Context.loadInstr, Instr.wf, hpos, hcap]

theorem decode_metadataWord (c : Context) : decode (metadataWord c) = .ok c.loadInstr := by
  rw [metadataWord_eq]
  exact decodeOfEncode _ (loadInstr_wellFormed c)

/-- A sponge's command for loading it passes its check in any context. -/
theorem check_loadInstr {c : Context} (h : c.inWindow) (strict : Bool) (c' : Context) :
    check strict c' c.loadInstr = .none := by
  obtain ⟨hcap, hpos⟩ := h
  exact (check_ctxLoad ..).trans (if_pos ⟨(legalCap_iff _).mp hcap, hpos⟩)

/-- With the buffer loaded, the finish step makes any context the one saved. -/
theorem finishContext_loadInstr {c : Context} (h : c.cfg = true) (c' : Context) :
    finishContext c.loadInstr { c' with S := c.S } = c := by
  simp [finishContext, Context.loadInstr, ← h]

/-- A word from its four bytes, most significant first. -/
theorem append_bytes (w : Word) :
    w.extractLsb' 24 8 ++ w.extractLsb' 16 8 ++ w.extractLsb' 8 8 ++ w.extractLsb' 0 8 = w := by
  rw [BitVec.extractLsb'_append_extractLsb'_eq_extractLsb' (start₁ := 16) (len₁ := 8) rfl,
    BitVec.extractLsb'_append_extractLsb'_eq_extractLsb' (start₁ := 8) (len₁ := 8) rfl,
    BitVec.extractLsb'_append_extractLsb'_eq_extractLsb' (start₁ := 0) (len₁ := 8) rfl]
  exact BitVec.extractLsb'_eq_self

/-- The last four saved bytes are the metadata word, least significant first (44_context.md R126). -/
theorem append_saved (c : Context) :
    c.saved.getD 203 0 ++ c.saved.getD 202 0 ++ c.saved.getD 201 0 ++ c.saved.getD 200 0 = metadataWord c := by
  have hbyte : ∀ k, k < 4 → c.saved.getD (200 + k) 0 = (metadataWord c).extractLsb' (8 * k) 8 := fun k hk =>
    (getD_saved c (by omega)).trans (savedByte_metadata c k)
  rw [hbyte 3 (by decide), hbyte 2 (by decide), hbyte 1 (by decide), hbyte 0 (by decide)]
  exact append_bytes _

/-! ### O58 -/

/-- A core that can issue, with the metadata word queued and the 200 bytes of `S` in `DIN`, takes over the context. -/
theorem run_load_saved {c : Context} (hm : Memory.wf c.S) (hcfg : c.cfg = true) (hw : c.inWindow) {s : State}
    (h : Claims.CoreAlone s) (hms : Memory.wf s.ctx.S) (hi : s.seq = .idle) (he : s.err = false)
    (hc : s.cmdq = [metadataWord c]) (hd : s.din = Memory.toBytes c.S) :
    Host.Core.run Sys2Proof.core 202 s = .next { s with ctx := c, cmdq := [], din := [] } := by
  obtain ⟨ht, hr⟩ := h
  have hcheck : checkWord s.strict s.ctx (metadataWord c) = .none :=
    (checkWord_ok (decode_metadataWord c) ..).trans (check_loadInstr hw ..)
  have hissue := (step_of_noTurns ht).trans (coreTurn_passed hr hi he hc (decode_metadataWord c) hcheck)
  have hload := run_ctxLoad (s := { s with cmdq := [], seq := .run c.loadInstr 0 }) ⟨ht, hr⟩ rfl (length_toBytes c.S)
    (hd.trans (List.append_nil _).symm)
  have hctx : finishContext c.loadInstr { s.ctx with S := Memory.storeFrom s.ctx.S 0 (Memory.toBytes c.S) } = c := by
    rw [storeFrom_toBytes hms hm, finishContext_loadInstr hcfg]
  refine (run_succ hissue 201).trans (hload.trans ?_)
  rw [← hi]
  exact congrArg (fun d => Host.Outcome.next { s with ctx := d, cmdq := [], din := [] }) hctx

/-- Settles O58: CTX_SAVE pushes the bytes of `S` and the word of the CTX_LOAD that puts them back. -/
theorem saveThenLoadCopiesTheContext : Obligations.SaveThenLoadCopiesTheContext := by
  intro s h hinv hcfg hs hempty hroom
  have hsave := run_ctxSave h hs (by simpa [hempty] using hroom)
  rw [hempty, List.nil_append] at hsave
  refine ⟨_, hsave, rfl, rfl, length_saved s.ctx, fun s' h' hm' hi he hc hd => ?_⟩
  rw [append_saved] at hc
  rw [take_saved] at hd
  exact run_load_saved hinv.memory hcfg (hinv.context hcfg) h' hm' hi he hc hd

end Sys2Proof.Machine
end

section
/-! PROOFS. The permutation (45_permutation.md R134 to R141): the lanes each step of a round gives, how each step is
undone, the tables, and O39, O40 and O41. -/

namespace Sys2Proof.Machine

/-! ### Lanes -/

/-- `lane` takes its indices mod 5 (R134). -/
theorem lane_congr (A : Lanes) {x x' y y' : Nat} (hx : x % 5 = x' % 5) (hy : y % 5 = y' % 5) :
    lane A x y = lane A x' y' := by
  rw [lane, lane, hx, hy]

/-- Arrays agree in every lane when they agree inside the 5 by 5 array. -/
theorem lane_ext {A B : Lanes} (h : ∀ x y, x < 5 → y < 5 → lane A x y = lane B x y) : lane A = lane B := by
  funext x y
  have hx : x % 5 = x % 5 % 5 := (Nat.mod_mod x 5).symm
  have hy : y % 5 = y % 5 % 5 := (Nat.mod_mod y 5).symm
  rw [lane_congr A hx hy, lane_congr B hx hy]
  exact h _ _ (Nat.mod_lt _ (by decide)) (Nat.mod_lt _ (by decide))

/-- A lane of an array given by its lanes. -/
theorem lane_lanesOf (f : Nat → Nat → Lane) (x y : Nat) : lane (lanesOf f) x y = f (x % 5) (y % 5) := by
  have hi : x % 5 + 5 * (y % 5) < 25 := by omega
  have hx : (x % 5 + 5 * (y % 5)) % 5 = x % 5 := by omega
  have hy : (x % 5 + 5 * (y % 5)) / 5 = y % 5 := by omega
  simp [lane, lanesOf, hi, hx, hy]

theorem columnParity_congr (A : Lanes) {x x' : Nat} (h : x % 5 = x' % 5) : columnParity A x = columnParity A x' := by
  simp only [columnParity, lane_congr A h rfl]

theorem lane_theta (A : Lanes) (x y : Nat) : lane (theta A) x y = lane A x y ^^^ thetaEffect A x := by
  rw [theta, lane_lanesOf, lane_congr A (Nat.mod_mod x 5) (Nat.mod_mod y 5), thetaEffect, thetaEffect,
    columnParity_congr A (Nat.mod_add_mod x 5 4), columnParity_congr A (Nat.mod_add_mod x 5 1)]

theorem lane_rho (A : Lanes) (x y : Nat) :
    lane (rho A) x y = (lane A x y).rotateLeft (rhoOffsets.getD (x % 5 + 5 * (y % 5)) 0) := by
  rw [rho, lane_lanesOf, lane_congr A (Nat.mod_mod x 5) (Nat.mod_mod y 5)]

theorem lane_pi (A : Lanes) (x y : Nat) : lane (pi A) x y = lane A (x + 3 * y) x := by
  rw [pi, lane_lanesOf, lane_congr A (x' := x + 3 * y) (by omega) (Nat.mod_mod x 5)]

theorem lane_chi (A : Lanes) (x y : Nat) :
    lane (chi A) x y = lane A x y ^^^ (~~~lane A (x + 1) y &&& lane A (x + 2) y) := by
  have hy : y % 5 % 5 = y % 5 := Nat.mod_mod y 5
  rw [chi, lane_lanesOf, lane_congr A (Nat.mod_mod x 5) hy, lane_congr A (Nat.mod_add_mod x 5 1) hy,
    lane_congr A (Nat.mod_add_mod x 5 2) hy]

theorem lane_iota (A : Lanes) (c : Lane) (x y : Nat) :
    lane (iota A c) x y = if x % 5 = 0 ∧ y % 5 = 0 then lane A x y ^^^ c else lane A x y := by
  rw [iota, lane_lanesOf, lane_congr A (Nat.mod_mod x 5) (Nat.mod_mod y 5)]

/-! ### Rotations -/

/-- Bit `i` of a lane goes to bit `i + r` mod 64. -/
theorem getLsbD_rotateLeft_add (l : Lane) (r : Nat) {i : Nat} (hi : i < 64) :
    (l.rotateLeft r).getLsbD ((i + r) % 64) = l.getLsbD i := by
  rw [BitVec.getLsbD_rotateLeft]
  by_cases h : i + r % 64 < 64
  · rw [show (i + r) % 64 = i + r % 64 by omega]
    simp [show ¬i + r % 64 < r % 64 by omega, h]
  · rw [show (i + r) % 64 = i + r % 64 - 64 by omega]
    simp [show i + r % 64 - 64 < r % 64 by omega, show 64 - r % 64 + (i + r % 64 - 64) = i by omega]

/-- Lanes are equal when their bits are, each found `r` places on. -/
theorem lane_ext_rotated (r : Nat) {l l' : Lane}
    (h : ∀ i, i < 64 → l.getLsbD ((i + r) % 64) = l'.getLsbD ((i + r) % 64)) : l = l' := by
  refine BitVec.eq_of_getLsbD_eq fun j hj => ?_
  have := h ((j + 64 - r % 64) % 64) (Nat.mod_lt _ (by decide))
  rwa [show ((j + 64 - r % 64) % 64 + r) % 64 = j by omega] at this

theorem rotateLeft_injective (r : Nat) {l l' : Lane} (h : l.rotateLeft r = l'.rotateLeft r) : l = l' :=
  BitVec.eq_of_getLsbD_eq fun i hi => by rw [← getLsbD_rotateLeft_add l r hi, h, getLsbD_rotateLeft_add l' r hi]

theorem rotateLeft_xor (r : Nat) (l l' : Lane) : (l ^^^ l').rotateLeft r = l.rotateLeft r ^^^ l'.rotateLeft r :=
  lane_ext_rotated r fun i hi => by simp only [getLsbD_rotateLeft_add _ r hi, BitVec.getLsbD_xor]

theorem rotateLeft_rotateLeft (m n : Nat) (l : Lane) : (l.rotateLeft m).rotateLeft n = l.rotateLeft (m + n) :=
  lane_ext_rotated (m + n) fun i hi => by
    rw [getLsbD_rotateLeft_add l _ hi, ← Nat.add_assoc, ← Nat.mod_add_mod,
      getLsbD_rotateLeft_add _ n (Nat.mod_lt _ (by decide)), getLsbD_rotateLeft_add l m hi]

/-- A rotation by a multiple of 64 is none. -/
theorem rotateLeft_of_mod {r : Nat} (h : r % 64 = 0) (l : Lane) : l.rotateLeft r = l :=
  lane_ext_rotated r fun i hi => by
    rw [getLsbD_rotateLeft_add l r hi, Nat.add_mod, h, Nat.add_zero, Nat.mod_mod, Nat.mod_eq_of_lt hi]

/-! ### theta is undone by the column parities (R135) -/

/-- What theta makes of the column parities, for `m = 1`: column `x` takes in the columns `m` to either side of it, one
of them rotated by `m` bits. -/
def mixColumns (m : Nat) (c : Nat → Lane) (x : Nat) : Lane :=
  c x ^^^ (c (x + 4 * m) ^^^ (c (x + m)).rotateLeft m)

theorem columnParity_theta (A : Lanes) : columnParity (theta A) = mixColumns 1 (columnParity A) := by
  funext x
  have five (a b c d e t : Lane) : a ^^^ t ^^^ (b ^^^ t) ^^^ (c ^^^ t) ^^^ (d ^^^ t) ^^^ (e ^^^ t) =
      a ^^^ b ^^^ c ^^^ d ^^^ e ^^^ t := by
    calc a ^^^ t ^^^ (b ^^^ t) ^^^ (c ^^^ t) ^^^ (d ^^^ t) ^^^ (e ^^^ t)
      _ = a ^^^ b ^^^ c ^^^ d ^^^ e ^^^ t ^^^ (t ^^^ t ^^^ (t ^^^ t)) := by ac_rfl
      _ = a ^^^ b ^^^ c ^^^ d ^^^ e ^^^ t := by simp
  rw [columnParity]
  simp only [lane_theta]
  exact five ..

/-- In the square of a sum of three terms the cross terms cancel: XOR is addition in characteristic 2. -/
theorem xor_cross_terms (a b c d e f : Lane) :
    a ^^^ (b ^^^ c) ^^^ (b ^^^ (d ^^^ e) ^^^ (c ^^^ (e ^^^ f))) = a ^^^ (d ^^^ f) := by
  calc a ^^^ (b ^^^ c) ^^^ (b ^^^ (d ^^^ e) ^^^ (c ^^^ (e ^^^ f)))
    _ = a ^^^ (d ^^^ f) ^^^ (b ^^^ b ^^^ (c ^^^ c ^^^ (e ^^^ e))) := by ac_rfl
    _ = a ^^^ (d ^^^ f) := by simp

/-- Mixing by `m` twice is mixing by `2 * m`. -/
theorem mixColumns_twice (m : Nat) (c : Nat → Lane) : mixColumns m (mixColumns m c) = mixColumns (2 * m) c := by
  funext x
  have hleft : x + 4 * m + 4 * m = x + 4 * (2 * m) := by omega
  have hright : x + m + m = x + 2 * m := by omega
  have hback : x + 4 * m + m = x + m + 4 * m := by omega
  simp only [mixColumns, rotateLeft_xor, rotateLeft_rotateLeft, hleft, hright, hback, ← Nat.two_mul]
  exact xor_cross_terms ..

theorem mixColumns_pow {c d : Nat → Lane} (h : mixColumns 1 c = mixColumns 1 d) (n : Nat) :
    mixColumns (2 ^ n) c = mixColumns (2 ^ n) d := by
  induction n with
  | zero => exact h
  | succ n ih => rw [Nat.pow_succ', ← mixColumns_twice, ih, mixColumns_twice]

/-- Mixing by 64, where the rotation is none, is undone by mixing by 128. -/
theorem mixColumns_undone {c : Nat → Lane} (hc : ∀ {x x'}, x % 5 = x' % 5 → c x = c x') :
    mixColumns 128 (mixColumns 64 c) = c := by
  funext x
  have near (n : Nat) : c (x + n) = c (x + n % 5) := hc (Nat.add_mod_mod x n 5).symm
  simp only [mixColumns, Nat.reduceMul, Nat.add_assoc, Nat.reduceAdd, rotateLeft_of_mod (r := 64) rfl,
    rotateLeft_of_mod (r := 128) rfl, near 64, near 128, near 192, near 256, near 384, near 512, near 576, near 768,
    Nat.reduceMod]
  generalize c (x + 1) = b1, c (x + 2) = b2, c (x + 3) = b3, c (x + 4) = b4
  calc c x ^^^ (b1 ^^^ b4) ^^^ (b2 ^^^ (b3 ^^^ b1) ^^^ (b3 ^^^ (b4 ^^^ b2)))
    _ = c x ^^^ (b1 ^^^ b1 ^^^ (b4 ^^^ b4)) ^^^ (b2 ^^^ b2 ^^^ (b3 ^^^ b3)) := by ac_rfl
    _ = c x := by simp

/-- Equal parities after theta were equal before it: mixing by 1 repeated 64 times is mixing by 64. -/
theorem columnParity_of_theta {A B : Lanes} (h : lane (theta A) = lane (theta B)) :
    columnParity A = columnParity B := by
  have hparity : columnParity (theta A) = columnParity (theta B) := by
    funext x
    simp only [columnParity, h]
  rw [columnParity_theta, columnParity_theta] at hparity
  have h64 : mixColumns 64 (columnParity A) = mixColumns 64 (columnParity B) := mixColumns_pow hparity 6
  rw [← mixColumns_undone (columnParity_congr A), h64, mixColumns_undone (columnParity_congr B)]

theorem lane_of_theta {A B : Lanes} (h : lane (theta A) = lane (theta B)) : lane A = lane B := by
  funext x y
  have heffect : thetaEffect A x = thetaEffect B x := by rw [thetaEffect, thetaEffect, columnParity_of_theta h]
  have hxy : lane (theta A) x y = lane (theta B) x y := by rw [h]
  rwa [lane_theta, lane_theta, heffect, BitVec.xor_left_inj] at hxy

/-! ### The other steps are undone -/

theorem lane_of_rho {A B : Lanes} (h : lane (rho A) = lane (rho B)) : lane A = lane B := by
  funext x y
  have hxy : lane (rho A) x y = lane (rho B) x y := by rw [h]
  rw [lane_rho, lane_rho] at hxy
  exact rotateLeft_injective _ hxy

/-- The first form of pi (R137): where the lane `A[x][y]` goes. -/
theorem lane_pi_moved (A : Lanes) (x y : Nat) : lane (pi A) y ((2 * x + 3 * y) % 5) = lane A x y := by
  rw [lane_pi, lane_congr A (x' := x) (by omega) rfl]

theorem lane_of_pi {A B : Lanes} (h : lane (pi A) = lane (pi B)) : lane A = lane B := by
  funext x y
  rw [← lane_pi_moved A, h, lane_pi_moved]

/-- chi on the five bits of a row, undone. -/
theorem chi_row_undone : ∀ a b c d e : Bool,
    ((a ^^ (!b && c)) ^^ (!(b ^^ (!c && d)) && ((c ^^ (!d && e)) ^^ (!(d ^^ (!e && a)) && (e ^^ (!a && b)))))) = a := by
  decide

/-- The lane that chi changed, from the changed lanes of its row. -/
theorem chi_undone (A : Lanes) (x y : Nat) :
    lane (chi A) x y ^^^ (~~~lane (chi A) (x + 1) y &&& (lane (chi A) (x + 2) y ^^^
      (~~~lane (chi A) (x + 3) y &&& lane (chi A) (x + 4) y))) = lane A x y := by
  have h5 : lane A (x + 5) y = lane A x y := lane_congr A (by omega) rfl
  have h6 : lane A (x + 6) y = lane A (x + 1) y := lane_congr A (by omega) rfl
  simp only [lane_chi, Nat.add_assoc, Nat.reduceAdd, h5, h6]
  refine BitVec.eq_of_getLsbD_eq fun i hi => ?_
  simp only [BitVec.getLsbD_xor, BitVec.getLsbD_and, BitVec.getLsbD_not, hi, decide_true, Bool.true_and]
  exact chi_row_undone ..

theorem lane_of_chi {A B : Lanes} (h : lane (chi A) = lane (chi B)) : lane A = lane B := by
  funext x y
  rw [← chi_undone A, h, chi_undone]

theorem lane_of_iota {A B : Lanes} {c : Lane} (h : lane (iota A c) = lane (iota B c)) : lane A = lane B := by
  funext x y
  have hxy : lane (iota A c) x y = lane (iota B c) x y := by rw [h]
  rw [lane_iota, lane_iota] at hxy
  split at hxy
  · exact (BitVec.xor_left_inj c).mp hxy
  · exact hxy

/-! ### KeccakF is injective: O41 -/

theorem lane_of_keccakRound {A B : Lanes} {c : Lane} (h : lane (keccakRound A c) = lane (keccakRound B c)) :
    lane A = lane B :=
  lane_of_theta (lane_of_rho (lane_of_pi (lane_of_chi (lane_of_iota h))))

theorem lane_of_keccakRounds {cs : List Lane} {A B : Lanes}
    (h : lane (cs.foldl keccakRound A) = lane (cs.foldl keccakRound B)) : lane A = lane B := by
  induction cs generalizing A B with
  | nil => exact h
  | cons c cs ih => exact lane_of_keccakRound (ih h)

/-- The 200 bytes of an array give back its lanes. -/
theorem lane_of_bytesOfLanes {A B : Lanes} (h : bytesOfLanes A = bytesOfLanes B) : lane A = lane B := by
  refine lane_ext fun x y hx hy => BitVec.eq_of_getLsbD_eq fun i hi => ?_
  have hxy : x + 5 * y < 25 := by omega
  have hk : i / 8 < 8 := by omega
  have hj : i % 8 < 8 := Nat.mod_lt i (by decide)
  rw [lane_eq_getD A hx hy, lane_eq_getD B hx hy, ← Nat.div_add_mod i 8, ← getLsbD_byteOfLane _ _ hj,
    ← getLsbD_byteOfLane _ _ hj, ← getD_bytesOfLanes A hxy hk, h, getD_bytesOfLanes B hxy hk]

theorem laneAt_eq_lane (bs : List Byte) {i : Nat} (hi : i < 25) :
    laneAt bs i = lane (lanesOfBytes bs) (i % 5) (i / 5) := by
  rw [lane_eq_getD _ (Nat.mod_lt i (by decide)) (by omega), Nat.mod_add_div, getD_lanesOfBytes bs hi]

/-- Byte strings of length 200 with the same lanes are equal. -/
theorem eq_of_lanesOfBytes {bs bs' : List Byte} (hl : bs.length = 200) (hl' : bs'.length = 200)
    (h : lane (lanesOfBytes bs) = lane (lanesOfBytes bs')) : bs = bs' := by
  refine List.ext_getElem (hl.trans hl'.symm) fun a ha ha' => BitVec.eq_of_getLsbD_eq fun j hj => ?_
  have hi : a / 8 < 25 := by omega
  have hk : a % 8 < 8 := Nat.mod_lt a (by decide)
  rw [← List.getD_eq_getElem bs 0 ha, ← List.getD_eq_getElem bs' 0 ha', ← Nat.div_add_mod a 8,
    ← getLsbD_laneAt bs _ hk hj, laneAt_eq_lane bs hi, h, ← laneAt_eq_lane bs' hi, getLsbD_laneAt bs' _ hk hj]

/-- Settles O39: the first form of pi, whose second form the model computes. -/
theorem piMovesLanesByItsFirstForm : Obligations.PiMovesLanesByItsFirstForm :=
  fun A x y _ _ => lane_pi_moved A x y

/-- Settles O41: the bytes give the lanes and the lanes the bytes, and each step of each round is undone. -/
theorem keccakIsInjective : Obligations.KeccakIsInjective := fun _ _ hl hl' h =>
  eq_of_lanesOfBytes hl hl' (lane_of_keccakRounds (lane_of_bytesOfLanes h))

/-- Settles O40: the tables, evaluated beside the walk of rho and the LFSR of iota. -/
theorem permutationTablesFollowTheirRules : Obligations.PermutationTablesFollowTheirRules :=
  ⟨by decide, by decide⟩

end Sys2Proof.Machine
end

section
/-! PROOFS. The permutation port (45_permutation.md R142, R143): the bytes on the bus, what no byte step or finish step
sees, the step that calls for the permutation in either placement, and O42 to O45. -/

namespace Sys2Proof.Machine

/-! ### The bus: O42 -/

/-- Byte `i div 8` of a little-endian number holds its bit `i`. -/
theorem testBit_foldr_bytes (bs : List Byte) (i : Nat) :
    (bs.foldr (fun (b : Byte) acc => b.toNat + 256 * acc) 0).testBit i = (bs.getD (i / 8) 0).getLsbD (i % 8) := by
  induction bs generalizing i with
  | nil => simp
  | cons b bs ih =>
    have low (n : Nat) : (b.toNat + 256 * n).testBit i = if i < 8 then b.toNat.testBit i else n.testBit (i - 8) := by
      rw [Nat.add_comm]
      exact Nat.testBit_two_pow_mul_add n b.isLt i
    rw [List.foldr_cons, low]
    by_cases hi : i < 8
    · rw [if_pos hi, Nat.div_eq_of_lt hi, Nat.mod_eq_of_lt hi]
      rfl
    · rw [if_neg hi, ih, show i / 8 = (i - 8) / 8 + 1 by omega, show (i - 8) % 8 = i % 8 by omega]
      rfl

theorem getLsbD_busOfBytes (bs : List Byte) {i : Nat} (hi : i < 1600) :
    (busOfBytes bs).getLsbD i = (bs.getD (i / 8) 0).getLsbD (i % 8) := by
  rw [busOfBytes, BitVec.getLsbD_ofNat, decide_eq_true hi, Bool.true_and, testBit_foldr_bytes]

/-- The bus gives back the 200 bytes it carries. -/
theorem bytesOfBus_busOfBytes {bs : List Byte} (h : bs.length = 200) : bytesOfBus (busOfBytes bs) = bs := by
  refine List.ext_getElem (by simp [h]) fun a _ ha => BitVec.eq_of_getLsbD_eq fun j hj => ?_
  rw [← List.getD_eq_getElem bs 0 ha]
  have hdiv : (8 * a + j) / 8 = a := by omega
  have hmod : (8 * a + j) % 8 = j := by omega
  simp [bytesOfBus, hj, getLsbD_busOfBytes bs (show 8 * a + j < 1600 by omega), hdiv, hmod]

/-- What the unit answers to a buffer on the bus is the permuted buffer. -/
theorem ofBus_keccakBus (m : Memory) :
    Memory.ofBytes (bytesOfBus (keccakBus (busOfBytes (Memory.toBytes m)))) = keccakF m := by
  rw [keccakBus, bytesOfBus_busOfBytes (length_toBytes m), bytesOfBus_busOfBytes (length_keccakBytes _), keccakF]

/-- Settles O42: the bits and the bytes of the bus, for the 200 bytes of a buffer. -/
theorem busCarriesTheStateBytes : Obligations.BusCarriesTheStateBytes := by
  intro S
  refine ⟨fun i hi => ?_, bytesOfBus_busOfBytes (length_toBytes S)⟩
  rw [getLsbD_busOfBytes _ hi, getD_toBytes S (show i / 8 < 200 by omega)]

/-! ### What no step of a command sees -/

/-- `s` with the permutation internal or external, other coming turns and another state of the port. -/
def State.placed (s : State) (x : Bool) (ts : List Agent) (p : PermPort) : State :=
  { s with params := { s.params with permExternal := x }, turns := ts, perm := p }

theorem internally_eq_placed (s : State) : Claims.internally s = s.placed false s.turns s.perm := rfl

theorem placed_eq {s : State} {x : Bool} (h : s.params.permExternal = x) (ts : List Agent) (p : PermPort) :
    s.placed x ts p = { s with turns := ts, perm := p } := by
  subst h
  rfl

/-- Over the port, the placement external is the internal one but for the parameters, which are those of `s`. -/
theorem placed_true_eq {s u : State} (hx : s.params.permExternal = true) (hu : u.params = s.params)
    (ts ts' : List Agent) (p p' : PermPort) :
    u.placed true ts p = { u.placed false ts' p' with params := s.params, turns := ts, perm := p } := by
  rw [placed_eq (hu ▸ hx), ← hu]
  rfl

/-- The effect with `f` applied to the state it leaves. -/
def Effect.map (f : State → State) : Effect → Effect
  | .wait => .wait
  | .done t => .done (f t)
  | .permute t => .permute (f t)
  | .noByte a => .noByte a

section
variable (x : Bool) (ts : List Agent) (p : PermPort)

theorem advance_placed (s : State) : advance (s.placed x ts p) = (advance s).map (·.placed x ts p) := by
  by_cases h : s.ctx.pos.toNat + 1 = s.ctx.rate
  · rw [advance_boundary h, advance_boundary (s := s.placed x ts p) h]
    rfl
  · rw [advance_inside h, advance_inside (s := s.placed x ts p) h]
    rfl

theorem popDin_placed {f : Byte → State → Effect} (s : State)
    (hf : ∀ b u, f b (u.placed x ts p) = (f b u).map (·.placed x ts p)) :
    popDin (s.placed x ts p) f = (popDin s f).map (·.placed x ts p) := by
  cases hd : s.din with
  | nil =>
    rw [popDin_nil hd, popDin_nil (s := s.placed x ts p) hd]
    rfl
  | cons b rest =>
    rw [popDin_cons hd, popDin_cons (s := s.placed x ts p) hd]
    exact hf b { s with din := rest }

theorem whenDoutReady_placed {e e' : Effect} (s : State) (he : e' = e.map (·.placed x ts p)) :
    whenDoutReady (s.placed x ts p) e' = (whenDoutReady s e).map (·.placed x ts p) := by
  subst he
  by_cases hr : s.dout.length < s.params.doutDepth
  · rw [whenDoutReady_of_room hr, whenDoutReady_of_room (s := s.placed x ts p) hr]
  · rw [whenDoutReady_of_full (Nat.le_of_not_lt hr),
      whenDoutReady_of_full (s := s.placed x ts p) (Nat.le_of_not_lt hr)]
    rfl

theorem withStateByte_placed {f g : Byte → Effect} (s : State) (a : Nat)
    (hfg : ∀ v, g v = (f v).map (·.placed x ts p)) :
    withStateByte (s.placed x ts p) a g = (withStateByte s a f).map (·.placed x ts p) := by
  by_cases ha : a < 200
  · rw [withStateByte_of_lt ha, withStateByte_of_lt ha]
    exact hfg _
  · rw [withStateByte_of_ge (Nat.le_of_not_lt ha), withStateByte_of_ge (Nat.le_of_not_lt ha)]
    rfl

theorem byteEffect_placed (i : Instr) (k : Nat) (s : State) :
    byteEffect i k (s.placed x ts p) = (byteEffect i k s).map (·.placed x ts p) := by
  cases i with
  | absorb n =>
    simp only [byteEffect, absorbByte]
    exact popDin_placed x ts p s fun b u => withStateByte_placed x ts p u _ fun v =>
      advance_placed x ts p (u.setStateByte u.ctx.pos.toNat (v ^^^ b))
  | squeeze n =>
    simp only [byteEffect, squeezeByte]
    exact whenDoutReady_placed x ts p s (withStateByte_placed x ts p s _ fun v =>
      advance_placed x ts p (s.pushDout v))
  | squeezeXor n =>
    simp only [byteEffect, squeezeXorByte]
    exact whenDoutReady_placed x ts p s (popDin_placed x ts p s fun b u => withStateByte_placed x ts p u _ fun v =>
      advance_placed x ts p (u.pushDout (b ^^^ v)))
  | encrypt n =>
    simp only [byteEffect, encryptByte]
    exact whenDoutReady_placed x ts p s (popDin_placed x ts p s fun b u => withStateByte_placed x ts p u _ fun v =>
      advance_placed x ts p ((u.setStateByte u.ctx.pos.toNat (b ^^^ v)).pushDout (b ^^^ v)))
  | decrypt n =>
    simp only [byteEffect, decryptByte]
    exact whenDoutReady_placed x ts p s (popDin_placed x ts p s fun b u => withStateByte_placed x ts p u _ fun v =>
      advance_placed x ts p ((u.setStateByte u.ctx.pos.toNat (v ^^^ (b ^^^ v))).pushDout (b ^^^ v)))
  | pad n =>
    simp only [byteEffect, padByte]
    exact popDin_placed x ts p s fun b u => withStateByte_placed x ts p u _ fun v => rfl
  | ctxLoad pos cap ph =>
    simp only [byteEffect, ctxLoadByte]
    exact popDin_placed x ts p s fun b u => withStateByte_placed x ts p u _ fun v => rfl
  | ctxSave => exact whenDoutReady_placed x ts p s rfl
  | init cap => rfl
  | rewind => rfl
  | forget => rfl

/-- Neither the placement, the coming turns nor the port bears on what a step of a command does, the call for the
permutation apart. -/
theorem effectOf_placed (i : Instr) (k : Nat) (s : State) :
    effectOf i k (s.placed x ts p) = (effectOf i k s).map (·.placed x ts p) := by
  unfold effectOf
  split
  · exact byteEffect_placed x ts p i k s
  · rw [finishEffect_eq, finishEffect_eq]
    cases i <;> rfl

theorem exec_placed {i : Instr} {k : Nat} {s : State} (hs : s.seq = .run i k) :
    exec i (s.placed x ts p) =
      commit (s.placed x ts p) (nextSeq i k) ((effectOf i k s).map (·.placed x ts p)) := by
  rw [exec_run (s := s.placed x ts p) hs, effectOf_placed]

end

/-! ### No byte step of a run reaches past the buffer -/

theorem advance_ne_noByte (s : State) (a : Nat) : advance s ≠ .noByte a := by
  unfold advance
  split <;> nofun

theorem popDin_ne_noByte {s : State} {f : Byte → State → Effect} {a : Nat}
    (hf : ∀ b rest, f b { s with din := rest } ≠ .noByte a) : popDin s f ≠ .noByte a := by
  rcases popDin_cases s f with ⟨-, he⟩ | ⟨b, rest, -, he⟩ <;> rw [he]
  · nofun
  · exact hf b rest

theorem whenDoutReady_ne_noByte {s : State} {e : Effect} {a : Nat} (he : e ≠ .noByte a) :
    whenDoutReady s e ≠ .noByte a := by
  rcases whenDoutReady_cases s e with h | ⟨-, h⟩ <;> rw [h]
  · nofun
  · exact he

theorem withStateByte_ne_noByte {s : State} {f : Byte → Effect} {a b : Nat} (hb : b < 200)
    (hf : ∀ v, f v ≠ .noByte a) : withStateByte s b f ≠ .noByte a := by
  rw [withStateByte_of_lt hb]
  exact hf _

theorem byteEffect_ne_noByte {i : Instr} {k : Nat} {s : State} (h : reachedByte i k s.ctx < 200) (a : Nat) :
    byteEffect i k s ≠ .noByte a := by
  cases i with
  | absorb n =>
    simp only [byteEffect, absorbByte]
    exact popDin_ne_noByte fun b rest => withStateByte_ne_noByte h fun v => advance_ne_noByte _ a
  | squeeze n => exact whenDoutReady_ne_noByte (withStateByte_ne_noByte h fun v => advance_ne_noByte _ a)
  | squeezeXor n =>
    exact whenDoutReady_ne_noByte
      (popDin_ne_noByte fun b rest => withStateByte_ne_noByte h fun v => advance_ne_noByte _ a)
  | encrypt n =>
    exact whenDoutReady_ne_noByte
      (popDin_ne_noByte fun b rest => withStateByte_ne_noByte h fun v => advance_ne_noByte _ a)
  | decrypt n =>
    exact whenDoutReady_ne_noByte
      (popDin_ne_noByte fun b rest => withStateByte_ne_noByte h fun v => advance_ne_noByte _ a)
  | pad n =>
    simp only [byteEffect, padByte]
    exact popDin_ne_noByte fun b rest => withStateByte_ne_noByte h fun v => nofun
  | ctxLoad pos cap ph =>
    simp only [byteEffect, ctxLoadByte]
    exact popDin_ne_noByte fun b rest => withStateByte_ne_noByte h fun v => nofun
  | ctxSave => exact whenDoutReady_ne_noByte nofun
  | init cap => nofun
  | rewind => nofun
  | forget => nofun

/-- The byte a byte step of a running command reaches exists. -/
theorem Inv.reachedByte_lt_200 {s : State} (h : Inv s) {i : Instr} {k : Nat} (hs : s.seq = .run i k)
    (hk : k < byteSteps i) : reachedByte i k s.ctx < 200 := by
  have window : ∀ n, (i = .absorb n ∨ i = .squeeze n ∨ i = .squeezeXor n ∨ i = .encrypt n ∨ i = .decrypt n ∨
      i = .pad n) → reachedByte i k s.ctx < 200 := fun n hi =>
    Nat.lt_of_lt_of_le (h.reachedByte_lt_rate hs hk ⟨n, hi⟩) (rate_le s.ctx)
  cases i with
  | ctxLoad pos cap ph => exact hk
  | ctxSave => exact Nat.zero_lt_succ _
  | init cap => exact Nat.zero_lt_succ _
  | rewind => exact Nat.zero_lt_succ _
  | forget => exact Nat.zero_lt_succ _
  | _ n => exact window n (by simp)

theorem Inv.effectOf_ne_noByte {s : State} (h : Inv s) {i : Instr} {k : Nat} (hs : s.seq = .run i k) (a : Nat) :
    effectOf i k s ≠ .noByte a := by
  unfold effectOf
  split
  · exact byteEffect_ne_noByte (h.reachedByte_lt_200 hs ‹_›) a
  · rw [finishEffect_eq]
    cases i <;> nofun

/-! ### The step that calls for the permutation -/

/-- A permuting step over the port that leaves the request raised has changed the port alone, and not its
acknowledgement. -/
theorem permuteStep_pending {s t : State} (hx : s.params.permExternal = true) (ht : (permuteStep s t).perm.req = true) :
    permuteStep s t = { s with perm := (permuteStep s t).perm } ∧ (permuteStep s t).perm.ack = s.perm.ack := by
  rcases permuteStep_external hx t with ⟨-, heq⟩ | ⟨-, -, heq⟩ | ⟨-, -, heq⟩ <;> rw [heq] at ht ⊢
  · exact ⟨rfl, rfl⟩
  · exact ⟨rfl, rfl⟩
  · cases ht

/-- Settles O43: of the steps of a command only a permuting one over the port leaves a request. -/
theorem permutationRequestLeavesTheStepPending : Obligations.PermutationRequestLeavesTheStepPending := by
  intro s t i k h hs ht hreq
  rcases commit_cases ((exec_run hs i).symm.trans ht) with ⟨-, rfl⟩ | ⟨u, hu, rfl⟩ | ⟨u, hu, rfl⟩
  · exact ⟨rfl, rfl⟩
  · have hperm : u.perm = s.perm := (reaches_keepsControl (.inl hu)).perm
    rw [withSeq_perm, hperm, h.req_of_done hs hu] at hreq
    cases hreq
  · cases hx : s.params.permExternal with
    | false =>
      have hperm : u.perm = s.perm := (reaches_keepsControl (.inr hu)).perm
      rw [permuteStep_internal hx, withS_perm, withSeq_perm, hperm, h.req_of_internal hx] at hreq
      cases hreq
    | true => exact permuteStep_pending hx hreq

/-- The port with `perm_req` raised and `perm_din` driven by the buffer `m`. -/
def PermPort.requested (p : PermPort) (m : Memory) : PermPort :=
  { p with req := true, din := busOfBytes (Memory.toBytes m) }

/-- The port with the unit's answer on it. -/
def PermPort.answered (p : PermPort) : PermPort := { p with ack := true, dout := keccakBus p.din }

/-- The port with request and acknowledgement dropped. -/
def PermPort.released (p : PermPort) : PermPort := { p with req := false, ack := false }

/-- A permuting step with the permutation internal, whatever the coming turns and the port. -/
theorem exec_permute_internal {i : Instr} {k : Nat} {s u : State} (hs : s.seq = .run i k)
    (he : effectOf i k s = .permute u) (ts : List Agent) (p : PermPort) :
    exec i (s.placed false ts p) =
      .next (((u.placed false ts p).withSeq (nextSeq i k)).withS (keccakF u.ctx.S)) := by
  rw [exec_placed _ _ _ hs, he, Effect.map, commit, permuteStep_internal rfl]
  rfl

/-- A permuting step over the port with nothing requested raises the request (R142). -/
theorem exec_permute_requested {i : Instr} {k : Nat} {s u : State} (hs : s.seq = .run i k)
    (he : effectOf i k s = .permute u) (ts : List Agent) {p : PermPort} (hreq : p.req = false) :
    exec i (s.placed true ts p) = .next (s.placed true ts (p.requested u.ctx.S)) := by
  rw [exec_placed _ _ _ hs, he, Effect.map, commit]
  simp only [permuteStep, State.placed, hreq, if_true]
  rfl

/-- A permuting step over the port with its request answered is taken whole (R142). -/
theorem exec_permute_answered {i : Instr} {k : Nat} {s u : State} (hs : s.seq = .run i k)
    (he : effectOf i k s = .permute u) (ts : List Agent) {p : PermPort} (hreq : p.req = true) (hack : p.ack = true)
    (hdout : p.dout = keccakBus (busOfBytes (Memory.toBytes u.ctx.S))) :
    exec i (s.placed true ts p) =
      .next (((u.placed true ts p.released).withSeq (nextSeq i k)).withS (keccakF u.ctx.S)) := by
  rw [exec_placed _ _ _ hs, he, Effect.map, commit, ← ofBus_keccakBus, ← hdout]
  simp only [permuteStep, State.placed, hreq, hack, if_true]
  rfl

/-- The unit's turn answers a request (R142). -/
theorem permTurn_requested (s : State) (ts : List Agent) {p : PermPort} (hreq : p.req = true) (hack : p.ack = false) :
    permTurn (s.placed true ts p) = s.placed true ts p.answered := by
  simp [permTurn, State.placed, PermPort.answered, hreq, hack]

/-- Settles O44: the request is the pending step's and the unit's answer its permuted buffer. -/
theorem externalPermutationGivesTheInternalResult : Obligations.ExternalPermutationGivesTheInternalResult := by
  intro s i k h hs hreq hack
  obtain ⟨hx, i', k', u, hs', he, hdin⟩ := h.port hreq
  obtain ⟨rfl, rfl⟩ := Seq.run.inj (hs'.symm.trans hs)
  have hdout := (h.acked hack).2
  rw [hdin] at hdout
  have hparams : u.params = s.params := (reaches_keepsControl (.inr he)).params
  have hext := exec_permute_answered hs he s.turns hreq hack hdout
  rw [placed_eq hx, placed_true_eq hx hparams s.turns s.turns _ s.perm] at hext
  exact ⟨_, exec_permute_internal hs he s.turns s.perm, hext⟩

/-- The core, the unit and the core again take a permuting step over the port. -/
theorem run_permute {i : Instr} {k : Nat} {s u : State} (hr : s.rst = false) (hs : s.seq = .run i k)
    (he : effectOf i k s = .permute u) {p : PermPort} (hreq : p.req = false) (hack : p.ack = false) :
    Host.Core.run Sys2Proof.core 3 (s.placed true [.core, .perm, .core] p) =
      .next (((u.placed true [] (p.requested u.ctx.S).answered.released).withSeq (nextSeq i k)).withS
        (keccakF u.ctx.S)) := by
  have hrequest : step (s.placed true [.core, .perm, .core] p) =
      .next (s.placed true [.perm, .core] (p.requested u.ctx.S)) :=
    (step_of_core rfl).trans <|
      (coreTurn_running (s := s.placed true [.perm, .core] p) hr hs).trans (exec_permute_requested hs he _ hreq)
  have hanswer : step (s.placed true [.perm, .core] (p.requested u.ctx.S)) =
      .next (s.placed true [.core] (p.requested u.ctx.S).answered) :=
    (step_of_perm rfl).trans (congrArg Host.Outcome.next (permTurn_requested s [.core] rfl hack))
  have htake := (step_of_core (s := s.placed true [.core] (p.requested u.ctx.S).answered) rfl).trans <|
    (coreTurn_running (s := s.placed true [] (p.requested u.ctx.S).answered) hr hs).trans
      (exec_permute_answered hs he [] rfl rfl rfl)
  rw [run_succ hrequest, run_succ hanswer, run_succ htake]
  rfl

/-- Settles O45: a step that permutes is taken in the core's turn after the unit's, and any other in the core's first
turn. -/
theorem externalStepsComplete : Obligations.ExternalStepsComplete := by
  intro s i k h hs hr hreq hx ht
  have hself : s = s.placed true [.core, .perm, .core] s.perm := by rw [placed_eq hx, ← ht]
  have hfirst : step s = exec i (s.placed true [.perm, .core] s.perm) := by
    rw [step_of_core ht, placed_eq hx]
    exact coreTurn_running (s := { s with turns := [.perm, .core] }) hr hs
  rw [hfirst, internally_eq_placed, exec_placed _ _ _ hs, exec_placed _ _ _ hs]
  cases he : effectOf i k s with
  | wait => exact ⟨_, s.perm, rfl, .inl (congrArg _ (placed_true_eq hx rfl _ s.turns _ s.perm))⟩
  | done u =>
    have hparams : u.params = s.params := (reaches_keepsControl (.inl he)).params
    refine ⟨_, s.perm, rfl, .inl ?_⟩
    rw [Effect.map, commit, placed_true_eq hx hparams _ s.turns _ s.perm]
    rfl
  | noByte a => exact absurd he (h.effectOf_ne_noByte hs a)
  | permute u =>
    have hparams : u.params = s.params := (reaches_keepsControl (.inr he)).params
    have hrun := run_permute hr hs he hreq (h.ack_of_req hreq)
    rw [← hself, placed_true_eq hx hparams _ s.turns _ s.perm] at hrun
    exact ⟨_, _, congrArg _ (permuteStep_internal rfl _), .inr ⟨hrun, rfl, rfl⟩⟩

end Sys2Proof.Machine
end

section
/-! PROOFS. Errors, the halt and the interrupt output (60_exceptions.md): what a step of any agent makes of `ERR`, of `IE`
and of what the host has received, said once, and from that O10, O11, O33, O35 and O49. -/

namespace Sys2Proof.Machine

/-! ### The core's turn and the error record -/

/-- The core's turn took the word at the head of `CMDQ`, and its failed check is the error recorded (60_exceptions.md R151,
R153). -/
def RaisesError (s t : State) : Prop :=
  s.seq = .idle ∧ ∃ w rest, s.cmdq = w :: rest ∧ checkWord s.strict s.ctx w ≠ .none ∧
    t = Claims.failed { s with cmdq := rest } (checkWord s.strict s.ctx w) (w.extractLsb' 0 4) w

/-- The core's turn raises the error of the head of `CMDQ`, or keeps all of the control state but that queue. -/
theorem coreTurn_keeps_or_raises {s t : State} (ht : coreTurn s = .next t) :
    Claims.ControlUnchanged { s with cmdq := t.cmdq } t ∨ RaisesError s t := by
  rcases coreTurn_cases s with ⟨heq, -⟩ | ⟨w, rest, hr, hi, he, hc, -⟩ | ⟨i, k, hr, hs, -⟩
  · cases heq.symm.trans ht
    exact .inl (KeepsControl.refl s).controlUnchanged
  · by_cases hw : checkWord s.strict s.ctx w = .none
    · obtain ⟨i, hd⟩ := decode_of_checkWord_none hw
      cases (coreTurn_passed hr hi he hc hd hw).symm.trans ht
      exact .inl (KeepsControl.refl { s with cmdq := rest }).controlUnchanged
    · cases (coreTurn_failed hr hi he hc hw rfl).symm.trans ht
      exact .inr ⟨hi, w, rest, hc, hw, rfl⟩
  · obtain ⟨⟨-, hkept⟩, -⟩ := runningCommandsKeepControl i k s t hs ((coreTurn_running hr hs).symm.trans ht)
    exact .inl ⟨rfl, hkept⟩

/-! ### The other agents' turns -/

/-- The external unit's turn reaches the port alone (45_permutation.md R142). -/
theorem permTurn_eq (s : State) : permTurn s = { s with perm := (permTurn s).perm } := by
  unfold permTurn
  split <;> rfl

/-- The host's turn leaves the state, or takes the first of its coming steps. -/
theorem hostTurn_cases (s : State) :
    hostTurn s = s ∨ ∃ a hs, s.host = a :: hs ∧ hostAction a { s with host := hs } = some (hostTurn s) := by
  cases hh : s.host with
  | nil => exact .inl (by simp [hostTurn, hh])
  | cons a hs =>
    rw [hostTurn_cons hh]
    cases ha : hostAction a { s with host := hs } with
    | none => exact .inl rfl
    | some t => exact .inr ⟨a, hs, rfl, ha⟩

/-- A CTRL write reaches the two modes and the queues alone (10_state.md R28, R31). -/
theorem writeCtrl_eq (v : Word) (s : State) :
    writeCtrl v s = { s with
      strict := v.getLsbD 0, ie := v.getLsbD 1, cmdq := (writeCtrl v s).cmdq, din := (writeCtrl v s).din,
      dout := (writeCtrl v s).dout } := by
  unfold writeCtrl flush
  split <;> rfl

@[simp] theorem writeCtrl_err (v : Word) (s : State) : (writeCtrl v s).err = s.err := by rw [writeCtrl_eq]
@[simp] theorem writeCtrl_ie (v : Word) (s : State) : (writeCtrl v s).ie = v.getLsbD 1 := by rw [writeCtrl_eq]

/-! ### `ERR` and `IE` -/

/-- `ERR` and `IE` are those of `s`. -/
def KeepsIrq (s t : State) : Prop := t.err = s.err ∧ t.ie = s.ie

theorem KeepsIrq.irq {s t : State} (h : KeepsIrq s t) : t.irq = s.irq := by
  obtain ⟨herr, hie⟩ := h
  rw [State.irq, herr, hie, State.irq]

/-- The two register writes that reach `ERR` or `IE`: that of CTRL, and the clearing of the error record (60_exceptions.md
R157, R160). -/
def WritesIrq (off : BitVec 8) (v : Word) (s t : State) : Prop :=
  (portOffset off = 0x00 ∧ t.err = s.err ∧ t.ie = v.getLsbD 1) ∨
    (portOffset off = 0x0C ∧ v.getLsbD 0 = true ∧ t.err = false)

theorem regWrite_irq (off : BitVec 8) (v : Word) (s : State) :
    KeepsIrq s (regWrite off v s) ∨ WritesIrq off v s (regWrite off v s) := by
  cases hr : s.rst with
  | true => exact .inl (by rw [regWrite_of_rst hr]; exact ⟨rfl, rfl⟩)
  | false =>
    by_cases hctrl : portOffset off = 0x00
    · rw [regWrite_ctrl hr hctrl]
      exact .inr (.inl ⟨hctrl, writeCtrl_err v s, writeCtrl_ie v s⟩)
    · by_cases hstat : portOffset off = 0x0C
      · rw [regWrite_errstat hr hstat]
        split
        · exact .inr (.inr ⟨hstat, ‹_›, rfl⟩)
        · exact .inl ⟨rfl, rfl⟩
      · exact .inl (by rw [regWrite_ignored hctrl hstat]; exact ⟨rfl, rfl⟩)

/-- Of the host's steps only a register write and a reset reach `ERR` or `IE`. -/
theorem hostAction_irq {s t : State} {a : HostStep} (ha : hostAction a s = some t) :
    KeepsIrq s t ∨ (∃ off v, a = .regWrite off v ∧ WritesIrq off v s t) ∨
      (a = .reset ∨ a = .setRst true) ∧ t.err = false := by
  cases a with
  | pushCmd v =>
    obtain ⟨-, rfl⟩ := hostAction_pushCmd_eq_some.mp ha
    exact .inl ⟨rfl, rfl⟩
  | pushDin b =>
    obtain ⟨-, rfl⟩ := hostAction_pushDin_eq_some.mp ha
    exact .inl ⟨rfl, rfl⟩
  | popDout =>
    obtain ⟨b, rest, -, -, rfl⟩ := hostAction_popDout_eq_some.mp ha
    exact .inl ⟨rfl, rfl⟩
  | regRead off => cases ha; exact .inl ⟨rfl, rfl⟩
  | regWrite off v => cases ha; exact (regWrite_irq off v s).imp_right fun hw => .inl ⟨off, v, rfl, hw⟩
  | reset => cases ha; exact .inr (.inr ⟨.inl rfl, rfl⟩)
  | setRst level =>
    cases ha
    cases level with
    | true => exact .inr (.inr ⟨.inr rfl, rfl⟩)
    | false => exact .inl ⟨rfl, rfl⟩

/-- The coming turn is the core's, which is then the step, or the host's or the external unit's. -/
theorem step_turns (s : State) :
    (Claims.CoreTurn s ∧ step s = coreTurn { s with turns := s.turns.tail }) ∨
      (∃ ts, s.turns = .host :: ts) ∨ ∃ ts, s.turns = .perm :: ts := by
  cases hts : s.turns with
  | nil => exact .inl ⟨.inl hts, step_of_coreTurn (.inr ⟨hts, rfl⟩)⟩
  | cons a ts =>
    cases a with
    | core => exact .inl ⟨.inr ⟨ts, hts⟩, step_of_core hts⟩
    | host => exact .inr (.inl ⟨ts, rfl⟩)
    | perm => exact .inr (.inr ⟨ts, rfl⟩)

/-- `ERR` and `IE` are written by an error of the core's turn, by a register write and by a reset of the host's, and by
nothing else. -/
theorem step_irq {s t : State} (ht : step s = .next t) :
    KeepsIrq s t ∨ Claims.CoreTurn s ∧ RaisesError { s with turns := s.turns.tail } t ∨
      (∃ off v, Claims.HostWrites s off v ∧ WritesIrq off v s t) ∨ Claims.HostResets s ∧ t.err = false := by
  rcases step_turns s with ⟨hcore, heq⟩ | ⟨ts, hts⟩ | ⟨ts, hts⟩
  · rcases coreTurn_keeps_or_raises (heq.symm.trans ht) with ⟨-, -, hie, herr, -⟩ | hraise
    · exact .inl ⟨herr, hie⟩
    · exact .inr (.inl ⟨hcore, hraise⟩)
  · cases (step_of_host hts).symm.trans ht
    rcases hostTurn_cases { s with turns := ts } with heq | ⟨a, hs, hh, ha⟩
    · rw [heq]
      exact .inl ⟨rfl, rfl⟩
    · rcases hostAction_irq ha with hkeep | ⟨off, v, rfl, hw⟩ | ⟨hreset, herr⟩
      · exact .inl hkeep
      · exact .inr (.inr (.inl ⟨off, v, ⟨⟨ts, hts⟩, hs, hh⟩, hw⟩))
      · have hhost : s.host = .reset :: hs ∨ s.host = .setRst true :: hs :=
          hreset.imp (by rintro rfl; exact hh) (by rintro rfl; exact hh)
        exact .inr (.inr (.inr ⟨⟨⟨ts, hts⟩, hs, hhost⟩, herr⟩))
  · cases (step_of_perm hts).symm.trans ht
    rw [permTurn_eq]
    exact .inl ⟨rfl, rfl⟩

/-! ### Precise errors and the halt: O10 and O11 -/

/-- Of the four ways a step can treat `ERR`, only the error of the core's turn makes it 1. -/
theorem step_raises {s t : State} (ht : step s = .next t) (he : s.err = false) (he' : t.err = true) :
    Claims.CoreTurn s ∧ RaisesError { s with turns := s.turns.tail } t := by
  rcases step_irq ht with ⟨herr, -⟩ | hraise | ⟨off, v, -, ⟨-, herr, -⟩ | ⟨-, -, herr⟩⟩ | ⟨-, herr⟩
  case inr.inl => exact hraise
  all_goals simp [herr, he] at he'

/-- Settles O10: the step that makes `ERR` 1 is the core's, and raises the error of the head of `CMDQ`. -/
theorem errorsArePrecise : Obligations.ErrorsArePrecise := fun _ _ ht he he' => (step_raises ht he he').2

/-- A read while idle gives the host the exact word and uses no free value (10_state.md R35). -/
theorem regRead_idle {s : State} (hi : s.seq = .idle) (off : BitVec 8) :
    regRead off s = { s with reads := s.reads ++ [s.regWord off] } := by
  have hbusy : s.busy = false := by simp [State.busy, hi]
  rw [regRead, regReadWord_idle hi, hbusy]
  rfl

/-- Settles O11: the issue step is not enabled, and no host step is enabled by `ERR`. -/
theorem heldErrorHaltsTheCore : Obligations.HeldErrorHaltsTheCore := by
  refine ⟨fun s he hi => coreTurn_notEnabled hi (.inl he), fun s v b off he hi hr => ⟨fun hroom => ?_, fun hroom => ?_,
    fun rest hd => ?_, ?_, ⟨_, rfl⟩, writeCtrl v s, ?_, ?_, ?_⟩⟩
  · exact hostAction_pushCmd_eq_some.mpr ⟨⟨hr, hroom⟩, rfl⟩
  · exact hostAction_pushDin_eq_some.mpr ⟨⟨hr, hroom⟩, rfl⟩
  · exact hostAction_popDout_eq_some.mpr ⟨b, rest, hd, hr, rfl⟩
  · exact congrArg some (regRead_idle hi off)
  · exact congrArg some (regWrite_ctrl hr rfl v)
  · exact (writeCtrl_err v s).trans he
  · rw [writeCtrl_idle hi]
    exact ⟨rfl, rfl, rfl⟩

/-! ### The interrupt output: O33 -/

theorem irq_eq_true_iff (s : State) : s.irq = true ↔ s.err = true ∧ s.ie = true := by
  simp [State.irq]

/-- The step that makes `irq` 1 raises an error with `IE` at 1, or is the CTRL write that sets `IE` with an error held. -/
theorem irq_rises {s t : State} (ht : step s = .next t) (h : s.irq = false) (h' : t.irq = true) :
    (Claims.CoreTurn s ∧ s.ie = true ∧ RaisesError { s with turns := s.turns.tail } t) ∨
      (s.err = true ∧ ∃ off v, Claims.HostWrites s off v ∧ portOffset off = 0x00 ∧ v.getLsbD 1 = true) := by
  obtain ⟨herr', hie'⟩ := (irq_eq_true_iff t).mp h'
  rcases step_irq ht with hkeep | ⟨hcore, hraise⟩ | ⟨off, v, hw, ⟨hoff, herr, hie⟩ | ⟨-, -, herr⟩⟩ | ⟨-, herr⟩
  · rw [hkeep.irq, h] at h'
    cases h'
  · refine .inl ⟨hcore, ?_, hraise⟩
    obtain ⟨-, w, rest, -, -, rfl⟩ := hraise
    exact hie'
  · exact .inr ⟨herr.symm.trans herr', off, v, hw, hoff, hie.symm.trans hie'⟩
  · exact nomatch herr.symm.trans herr'
  · exact nomatch herr.symm.trans herr'

/-- The step that makes `irq` 0 clears the error record, writes 0 to `IE`, or resets. -/
theorem irq_falls {s t : State} (ht : step s = .next t) (h : s.irq = true) (h' : t.irq = false) :
    (∃ off v, Claims.HostWrites s off v ∧
      (portOffset off = 0x0C ∧ v.getLsbD 0 = true ∨ portOffset off = 0x00 ∧ v.getLsbD 1 = false)) ∨
      Claims.HostResets s := by
  obtain ⟨herr', hie'⟩ := (irq_eq_true_iff s).mp h
  rcases step_irq ht with hkeep | ⟨-, -, w, rest, -, -, rfl⟩ | ⟨off, v, hw, ⟨hoff, herr, hie⟩ | ⟨hoff, hv, -⟩⟩ | ⟨hr, -⟩
  · rw [hkeep.irq, h] at h'
    cases h'
  · rw [State.irq] at h'
    exact nomatch h'.symm.trans hie'
  · rw [State.irq, herr, herr', hie, Bool.true_and] at h'
    exact .inl ⟨off, v, hw, .inr ⟨hoff, h'⟩⟩
  · exact .inl ⟨off, v, hw, .inl ⟨hoff, hv⟩⟩
  · exact .inr hr

/-- Settles O33: STATUS has the bit, a register write is `writeCtrl` or `clearError`, and `irq` rises and falls by the
writers of `ERR` and `IE` alone. -/
theorem irqFollowsErrorAndEnable : Obligations.IrqFollowsErrorAndEnable := by
  refine ⟨fun s => ⟨rfl, ?status⟩, rfl, fun s t ht he he' hie => ?raised, fun s off v hs ts hr hts hh => ?written,
    fun s t ht h h' => ?rises, fun s t => irq_falls⟩
  case status =>
    obtain ⟨-, -, -, -, -, -, -, hirq⟩ := statusWord_bits s
    exact hirq
  case raised =>
    obtain ⟨-, w, rest, -, -, rfl⟩ := errorsArePrecise s t ht he he'
    exact hie
  case written =>
    refine ⟨_, step_of_regWrite hts hh, fun hoff => ?_, fun hoff hv => ?_⟩
    · rw [regWrite_ctrl (s := { s with turns := ts, host := hs }) hr hoff, State.irq, writeCtrl_err, writeCtrl_ie]
    · rw [regWrite_errstat (s := { s with turns := ts, host := hs }) hr hoff, if_pos hv]
      rfl
  case rises =>
    exact (irq_rises ht h h').imp_left fun ⟨hcore, hie, hi, w, rest, hc, hw, _⟩ => ⟨hcore, hie, hi, w, rest, hc, hw⟩

/-! ### The host's steps: O35 -/

/-- The parameters stay, and what the host has received only grows (assumption logs 2 and 6). -/
structure KeepsReceived (s t : State) : Prop where
  params : t.params = s.params
  popped : ∃ l, t.popped = s.popped ++ l
  reads : ∃ l, t.reads = s.reads ++ l

theorem KeepsReceived.of_eq {s t : State} (hparams : t.params = s.params) (hpopped : t.popped = s.popped)
    (hreads : t.reads = s.reads) : KeepsReceived s t :=
  ⟨hparams, ⟨[], by rw [hpopped, List.append_nil]⟩, ⟨[], by rw [hreads, List.append_nil]⟩⟩

theorem coreTurn_received {s t : State} (ht : coreTurn s = .next t) : KeepsReceived s t := by
  rcases coreTurn_keeps_or_raises ht with
    ⟨-, -, -, -, -, -, -, -, hparams, -, -, hpopped, hreads, -⟩ | ⟨-, w, rest, -, -, rfl⟩
  · exact .of_eq hparams hpopped hreads
  · exact .of_eq rfl rfl rfl

/-- A register write gives the host nothing. -/
theorem regWrite_received (off : BitVec 8) (v : Word) (s : State) : KeepsReceived s (regWrite off v s) := by
  rcases regWrite_cases off v s with heq | ⟨-, heq | heq⟩ <;> rw [heq]
  · exact .of_eq rfl rfl rfl
  · rw [writeCtrl_eq]
    exact .of_eq rfl rfl rfl
  · exact .of_eq rfl rfl rfl

/-- Of the host's steps a pop and a read give it something, and none takes anything back. -/
theorem hostAction_received {s t : State} {a : HostStep} (ha : hostAction a s = some t) : KeepsReceived s t := by
  cases a with
  | pushCmd v =>
    obtain ⟨-, rfl⟩ := hostAction_pushCmd_eq_some.mp ha
    exact .of_eq rfl rfl rfl
  | pushDin b =>
    obtain ⟨-, rfl⟩ := hostAction_pushDin_eq_some.mp ha
    exact .of_eq rfl rfl rfl
  | popDout =>
    obtain ⟨b, rest, -, -, rfl⟩ := hostAction_popDout_eq_some.mp ha
    exact ⟨rfl, ⟨[b], rfl⟩, ⟨[], (List.append_nil _).symm⟩⟩
  | regRead off =>
    cases ha
    exact ⟨rfl, ⟨[], (List.append_nil _).symm⟩, ⟨_, rfl⟩⟩
  | regWrite off v => cases ha; exact regWrite_received off v s
  | reset => cases ha; exact .of_eq rfl rfl rfl
  | setRst level => cases ha; cases level <;> exact .of_eq rfl rfl rfl

/-- No step of any agent changes a parameter or takes back what the host has received. -/
theorem step_received {s t : State} (ht : step s = .next t) : KeepsReceived s t := by
  rcases step_cases s with heq | ⟨ts, -, heq⟩ | ⟨ts, -, heq⟩
  · obtain ⟨hparams, hpopped, hreads⟩ := coreTurn_received (heq.symm.trans ht)
    exact ⟨hparams, hpopped, hreads⟩
  · cases heq.symm.trans ht
    rcases hostTurn_cases { s with turns := ts } with heq | ⟨a, hs, -, ha⟩
    · rw [heq]
      exact .of_eq rfl rfl rfl
    · obtain ⟨hparams, hpopped, hreads⟩ := hostAction_received ha
      exact ⟨hparams, hpopped, hreads⟩
  · cases heq.symm.trans ht
    rw [permTurn_eq]
    exact .of_eq rfl rfl rfl

/-- In the host's turn no error is raised (60_exceptions.md R162): a step that raises one is the core's. -/
theorem host_raises_no_error {s t : State} {ts : List Agent} (hts : s.turns = .host :: ts) (ht : step s = .next t)
    (he : t.err = true) : s.err = true := by
  cases he' : s.err with
  | true => rfl
  | false =>
    rcases (step_raises ht he' he).1 with hcore | ⟨_, hcore⟩
    · exact nomatch hts.symm.trans hcore
    · exact nomatch hts.symm.trans hcore

/-- Settles O35: the host's turn always ends in a next state, and the writers of `ERR` and of what the host received are
known. -/
theorem hostStepsRaiseNoError : Obligations.HostStepsRaiseNoError := by
  refine ⟨fun s ts hts => ⟨_, step_of_host hts, host_raises_no_error hts (step_of_host hts)⟩, fun s t ht => ?_⟩
  obtain ⟨hparams, hpopped, hreads⟩ := step_received ht
  exact ⟨hparams, hpopped, hreads⟩

/-! ### No step stops: O49 -/

/-- An effect that reaches for no missing byte is taken. -/
theorem commit_next (s : State) (q : Seq) {e : Effect} (h : ∀ a, e ≠ .noByte a) : ∃ t, commit s q e = .next t := by
  cases e with
  | noByte a => exact absurd rfl (h a)
  | _ => exact ⟨_, rfl⟩

/-- From the invariant the core's turn ends in a next state: every byte its steps reach exists (10_state.md R21). -/
theorem Inv.coreTurn_next {s : State} (h : Inv s) : ∃ t, coreTurn s = .next t := by
  rcases coreTurn_cases s with ⟨heq, -⟩ | ⟨w, rest, -, -, -, -, ⟨-, heq⟩ | ⟨i, -, heq⟩⟩ | ⟨i, k, -, hs, heq⟩
  · exact ⟨_, heq⟩
  · exact ⟨_, heq⟩
  · exact ⟨_, heq⟩
  · rw [heq]
    exact commit_next s _ (h.effectOf_ne_noByte hs)

/-- Settles O49: only a byte step of the core's turn can stop, and from the invariant it does not. -/
theorem invariantStepsNeverStop : Obligations.InvariantStepsNeverStop := by
  intro s h
  rcases step_cases s with heq | ⟨ts, -, heq⟩ | ⟨ts, -, heq⟩ <;> rw [heq]
  · exact (h.withWorld s.host s.turns.tail s.popped s.reads s.freeCount).coreTurn_next
  · exact ⟨_, rfl⟩
  · exact ⟨_, rfl⟩

end Sys2Proof.Machine
end

section
/-! PROOFS. Reset, as a pulse and as a level (70_reset_and_hazards.md R169 to R171): O36 and O37. -/

namespace Sys2Proof.Machine

/-! ### The registers of a core in reset -/

/-- The registers right after reset, by name (10_state.md R41). -/
theorem reset_registers :
    State.reset.ctrlWord = 0 ∧ State.reset.errstatWord = 0 ∧ State.reset.errcmd = 0 ∧
      State.reset.statusWord = 0x00000070 ∧ State.reset.configWord = 0x01000000 ∧ State.reset.irq = false := by
  decide

/-- No register shows what the reset action keeps (the parameters, the outside world, the free value's counter), nor the
level of `rst`. -/
theorem regReadWord_resetCore (s : State) (level : Bool) (off : BitVec 8) :
    { resetCore s with rst := level }.regReadWord off = State.reset.regReadWord off := by
  rw [regReadWord_idle rfl, regReadWord_idle rfl]
  rfl

/-! ### What waits while `rst` is asserted -/

/-- The core takes no step while `rst` is asserted (70_reset_and_hazards.md R170). -/
theorem coreTurn_of_rst {s : State} (hr : s.rst = true) : coreTurn s = .next s := by
  rcases coreTurn_cases s with ⟨heq, -⟩ | ⟨w, rest, hr', -⟩ | ⟨i, k, hr', -⟩
  · exact heq
  · exact nomatch hr.symm.trans hr'
  · exact nomatch hr.symm.trans hr'

/-- No push onto `CMDQ` is accepted while `rst` is asserted. -/
theorem pushCmd_of_rst {s : State} (hr : s.rst = true) (v : Word) : hostAction (.pushCmd v) s = none := by
  refine Option.eq_none_iff_forall_ne_some.mpr fun t ht => ?_
  obtain ⟨⟨hr', -⟩, -⟩ := hostAction_pushCmd_eq_some.mp ht
  exact nomatch hr.symm.trans hr'

/-- No push onto `DIN` is accepted while `rst` is asserted. -/
theorem pushDin_of_rst {s : State} (hr : s.rst = true) (b : Byte) : hostAction (.pushDin b) s = none := by
  refine Option.eq_none_iff_forall_ne_some.mpr fun t ht => ?_
  obtain ⟨⟨hr', -⟩, -⟩ := hostAction_pushDin_eq_some.mp ht
  exact nomatch hr.symm.trans hr'

/-- No pop is accepted while `rst` is asserted, whatever `DOUT` holds. -/
theorem popDout_of_rst {s : State} (hr : s.rst = true) : hostAction .popDout s = none := by
  refine Option.eq_none_iff_forall_ne_some.mpr fun t ht => ?_
  obtain ⟨b, rest, -, hr', -⟩ := hostAction_popDout_eq_some.mp ht
  exact nomatch hr.symm.trans hr'

/-! ### The obligations -/

/-- Settles O36: the host's turn on `reset` ends in the reset action's state, whose registers are those right after
reset. -/
theorem resetRestoresEveryField : Obligations.ResetRestoresEveryField := by
  intro s hs ts ht hh
  obtain ⟨hctrl, herrstat, herrcmd, hstatus, hconfig, hirq⟩ := reset_registers
  exact ⟨resetCore { s with turns := ts, host := hs }, step_of_hostStep ht hh, byteAt_nil, rfl, rfl, rfl, rfl, rfl,
    rfl, rfl, rfl, hctrl, herrstat, herrcmd, hstatus, hconfig, hirq, rfl⟩

/-- Settles O37: the core and the queues wait for the release of `rst`, and by the invariant the hardware is in its reset
state, so that the registers show its values. -/
theorem assertedResetHoldsEverything : Obligations.AssertedResetHoldsEverything := by
  refine ⟨fun s hr => coreTurn_of_rst hr, fun s v b off hr => ?_, fun s off h hr => ?_, fun s => ?_⟩
  · exact ⟨pushCmd_of_rst hr v, pushDin_of_rst hr b, popDout_of_rst hr, congrArg some (regWrite_of_rst hr off v)⟩
  · rw [h.inReset hr, regReadWord_resetCore]
  · exact ⟨{ resetCore s with rst := true }, rfl, rfl, rfl, rfl, rfl, rfl, rfl⟩

end Sys2Proof.Machine
end
